-- ==== Sys2Proof/Word.lean ====
section
/-! DEFINITION. The value types of the μPD17120 (00_scope.md R9 to R12): every value is unsigned. -/

namespace Sys2Proof

/-- One data-memory nibble, bits b3 b2 b1 b0 (R10). -/
abbrev Nibble := BitVec 4

/-- An 8-bit peripheral value, and the unit in which memory cells are listed. -/
abbrev Byte := BitVec 8

/-- A 16-bit program-memory word or the 16-bit data buffer (R24, R44). -/
abbrev Word := BitVec 16

/-- A 7-bit data-memory, register-file or peripheral address: row (3 bits) and column (4 bits) (R12). -/
abbrev Addr := BitVec 7

/-- A 10-bit program-memory address (R21). -/
abbrev ProgAddr := BitVec 10

end Sys2Proof
end

