-- ==== Sys2Proof/Syntax.lean ====
section
/-! DEFINITION. The instructions of the μPD17120: one constructor per row of the opcode table
(30_encoding.md R129), in the table's order. `m` is a data-memory address, `r` a general-register column,
`n` an immediate or a bit mask, `rf` a register-file address, `p` a peripheral address (R123, R124). -/

namespace Sys2Proof

inductive Instr where
  /-- `ADD r, m` -/
  | addReg (r : BitVec 4) (m : Addr)
  /-- `ADD m, #n4` -/
  | addImm (m : Addr) (n : Nibble)
  /-- `ADDC r, m` -/
  | addcReg (r : BitVec 4) (m : Addr)
  /-- `ADDC m, #n4` -/
  | addcImm (m : Addr) (n : Nibble)
  /-- `INC AR` -/
  | incAr
  /-- `INC IX` -/
  | incIx
  /-- `SUB r, m` -/
  | subReg (r : BitVec 4) (m : Addr)
  /-- `SUB m, #n4` -/
  | subImm (m : Addr) (n : Nibble)
  /-- `SUBC r, m` -/
  | subcReg (r : BitVec 4) (m : Addr)
  /-- `SUBC m, #n4` -/
  | subcImm (m : Addr) (n : Nibble)
  /-- `OR r, m` -/
  | orReg (r : BitVec 4) (m : Addr)
  /-- `OR m, #n4` -/
  | orImm (m : Addr) (n : Nibble)
  /-- `AND r, m` -/
  | andReg (r : BitVec 4) (m : Addr)
  /-- `AND m, #n4` -/
  | andImm (m : Addr) (n : Nibble)
  /-- `XOR r, m` -/
  | xorReg (r : BitVec 4) (m : Addr)
  /-- `XOR m, #n4` -/
  | xorImm (m : Addr) (n : Nibble)
  /-- `SKT m, #n` -/
  | skt (m : Addr) (n : Nibble)
  /-- `SKF m, #n` -/
  | skf (m : Addr) (n : Nibble)
  /-- `SKE m, #n4` -/
  | ske (m : Addr) (n : Nibble)
  /-- `SKNE m, #n4` -/
  | skne (m : Addr) (n : Nibble)
  /-- `SKGE m, #n4` -/
  | skge (m : Addr) (n : Nibble)
  /-- `SKLT m, #n4` -/
  | sklt (m : Addr) (n : Nibble)
  /-- `RORC r` -/
  | rorc (r : BitVec 4)
  /-- `LD r, m` -/
  | ld (r : BitVec 4) (m : Addr)
  /-- `ST m, r` -/
  | st (m : Addr) (r : BitVec 4)
  /-- `MOV @r, m` -/
  | movToInd (r : BitVec 4) (m : Addr)
  /-- `MOV m, @r` -/
  | movFromInd (m : Addr) (r : BitVec 4)
  /-- `MOV m, #n4` -/
  | movImm (m : Addr) (n : Nibble)
  /-- `MOVT DBF, @AR` -/
  | movt
  /-- `PUSH AR` -/
  | push
  /-- `POP AR` -/
  | pop
  /-- `PEEK WR, rf` -/
  | peek (rf : Addr)
  /-- `POKE rf, WR` -/
  | poke (rf : Addr)
  /-- `GET DBF, p` -/
  | get (p : Addr)
  /-- `PUT p, DBF` -/
  | put (p : Addr)
  /-- `BR addr` -/
  | br (addr : ProgAddr)
  /-- `BR @AR` -/
  | brAr
  /-- `CALL addr` -/
  | call (addr : ProgAddr)
  /-- `CALL @AR` -/
  | callAr
  /-- `RET` -/
  | ret
  /-- `RETSK` -/
  | retsk
  /-- `RETI` -/
  | reti
  /-- `EI` -/
  | ei
  /-- `DI` -/
  | di
  /-- `STOP s` -/
  | stop (s : Nibble)
  /-- `HALT h` -/
  | halt (h : Nibble)
  /-- `NOP` -/
  | nop
  deriving DecidableEq, Repr

end Sys2Proof
end

