-- ==== Sys2Proof/Decode.lean ====
section
/-! DEFINITION. Decoding and encoding (30_encoding.md R120 to R132). A word is five bits of operation code and
three operand fields f1 (3 bits), f2 (4), f3 (4). A word that matches no row of the table is rejected by name. -/

namespace Sys2Proof

/-- Why a word is no instruction of this part (R132). -/
inductive DecodeError where
  /-- operation code 01101, 01110, 01111 or 10111 -/
  | unassignedOpcode
  /-- BR or CALL with address bit 10 set (R126) -/
  | addressBitTen
  /-- group X with sub-opcode 0000 or 0110 -/
  | unassignedGroupX
  /-- group X with f1 or f3 different from the constant of its row -/
  | groupXConstant
  /-- fewer than two bytes -/
  | tooShort
  deriving DecidableEq, Repr

/-- The operation code, `w[15:11]` (R121). -/
def opField (w : Word) : BitVec 5 := w.extractLsb' 11 5

/-- First operand field, `w[10:8]` (R121). -/
def f1Field (w : Word) : BitVec 3 := w.extractLsb' 8 3

/-- Second operand field, `w[7:4]` (R121). -/
def f2Field (w : Word) : BitVec 4 := w.extractLsb' 4 4

/-- Third operand field, `w[3:0]` (R121). -/
def f3Field (w : Word) : BitVec 4 := w.extractLsb' 0 4

/-- Data-memory address `f1 : f2` of formats RM and MI (R123). -/
def mField (w : Word) : Addr := f1Field w ++ f2Field w

/-- Register-file or peripheral address `f1 : f3` of format X1 (R124). -/
def xField (w : Word) : Addr := f1Field w ++ f3Field w

/-- Format A: the low ten bits, where bit 10 is 0 (R126). -/
def decodeAddress (w : Word) (i : ProgAddr → Instr) : Except DecodeError Instr :=
  if w.getLsbD 10 then .error .addressBitTen else .ok (i (w.extractLsb' 0 10))

/-- A row of group X whose `f1` is a constant (R128). -/
def withF1 (w : Word) (f1 : BitVec 3) (i : Instr) : Except DecodeError Instr :=
  if f1Field w = f1 then .ok i else .error .groupXConstant

/-- A row of group X whose `f1` and `f3` are constants, `f3` being 0000 (R128). -/
def withF1F3 (w : Word) (f1 : BitVec 3) (i : Instr) : Except DecodeError Instr :=
  if f3Field w = 0 then withF1 w f1 i else .error .groupXConstant

/-- Group X, `op = 00111`, selected by `f2` and for 1110 and 1111 also by `f1` (R128). -/
def decodeGroupX (w : Word) : Except DecodeError Instr :=
  match (f2Field w).toNat with
  | 0b0001 => withF1F3 w 0 .movt
  | 0b0010 => .ok (.poke (xField w))
  | 0b0011 => .ok (.peek (xField w))
  | 0b0100 => withF1F3 w 0 .brAr
  | 0b0101 => withF1F3 w 0 .callAr
  | 0b0111 => withF1 w 0 (.rorc (f3Field w))
  | 0b1000 => withF1F3 w 0 .incIx
  | 0b1001 => withF1F3 w 0 .incAr
  | 0b1010 => .ok (.put (xField w))
  | 0b1011 => .ok (.get (xField w))
  | 0b1100 => withF1F3 w 0 .pop
  | 0b1101 => withF1F3 w 0 .push
  | 0b1110 =>
    match (f1Field w).toNat with
    | 0b000 => withF1F3 w 0 .ret
    | 0b001 => withF1F3 w 1 .retsk
    | 0b100 => withF1F3 w 4 .reti
    | _ => .error .groupXConstant
  | 0b1111 =>
    match (f1Field w).toNat with
    | 0b000 => withF1F3 w 0 .ei
    | 0b001 => withF1F3 w 1 .di
    | 0b010 => .ok (.stop (f3Field w))
    | 0b011 => .ok (.halt (f3Field w))
    | 0b100 => withF1F3 w 4 .nop
    | _ => .error .groupXConstant
  | _ => .error .unassignedGroupX

/-- The instruction a word is, or why it is none (R127, R130). -/
def decode (w : Word) : Except DecodeError Instr :=
  match (opField w).toNat with
  | 0b00000 => .ok (.addReg (f3Field w) (mField w))
  | 0b00001 => .ok (.subReg (f3Field w) (mField w))
  | 0b00010 => .ok (.addcReg (f3Field w) (mField w))
  | 0b00011 => .ok (.subcReg (f3Field w) (mField w))
  | 0b00100 => .ok (.andReg (f3Field w) (mField w))
  | 0b00101 => .ok (.xorReg (f3Field w) (mField w))
  | 0b00110 => .ok (.orReg (f3Field w) (mField w))
  | 0b00111 => decodeGroupX w
  | 0b01000 => .ok (.ld (f3Field w) (mField w))
  | 0b01001 => .ok (.ske (mField w) (f3Field w))
  | 0b01010 => .ok (.movToInd (f3Field w) (mField w))
  | 0b01011 => .ok (.skne (mField w) (f3Field w))
  | 0b01100 => decodeAddress w .br
  | 0b10000 => .ok (.addImm (mField w) (f3Field w))
  | 0b10001 => .ok (.subImm (mField w) (f3Field w))
  | 0b10010 => .ok (.addcImm (mField w) (f3Field w))
  | 0b10011 => .ok (.subcImm (mField w) (f3Field w))
  | 0b10100 => .ok (.andImm (mField w) (f3Field w))
  | 0b10101 => .ok (.xorImm (mField w) (f3Field w))
  | 0b10110 => .ok (.orImm (mField w) (f3Field w))
  | 0b11000 => .ok (.st (mField w) (f3Field w))
  | 0b11001 => .ok (.skge (mField w) (f3Field w))
  | 0b11010 => .ok (.movFromInd (mField w) (f3Field w))
  | 0b11011 => .ok (.sklt (mField w) (f3Field w))
  | 0b11100 => decodeAddress w .call
  | 0b11101 => .ok (.movImm (mField w) (f3Field w))
  | 0b11110 => .ok (.skt (mField w) (f3Field w))
  | 0b11111 => .ok (.skf (mField w) (f3Field w))
  | _ => .error .unassignedOpcode

/-- A program word from its two bytes, the low byte first (log 3: the spec divides no word into bytes). -/
def wordOfBytes (lo hi : Byte) : Word := hi ++ lo

/-- The two bytes of a program word, the low byte first (log 3). -/
def bytesOfWord (w : Word) : List Byte := [w.extractLsb' 0 8, w.extractLsb' 8 8]

/-- Decode the first instruction of a list of bytes; the rest of the list is left over. -/
def decodeBytes (bs : List Byte) : Except DecodeError (Instr × List Byte) :=
  match bs with
  | lo :: hi :: rest =>
    match decode (wordOfBytes lo hi) with
    | .ok i => .ok (i, rest)
    | .error e => .error e
  | _ => .error .tooShort

/-- The table's word of `nbits` bits, the bits above them 0. -/
def tableWord (nbits w : Nat) : Word := BitVec.ofNat 16 (w % 2 ^ nbits)

/-- The instruction the decoder reads from the word `w` of the opcode table. -/
def decodeTableWord (nbits w : Nat) : Option Instr :=
  match decodeBytes (bytesOfWord (tableWord nbits w)) with
  | .ok (i, _) => some i
  | .error _ => none

/-- Formats RM and MI: operation code, `m`, and `r` or `n4` (R122, R123). -/
def wordRM (op : BitVec 5) (m : Addr) (f3 : Nibble) : Word := op ++ m ++ f3

/-- Group X: `00111`, `f1`, `f2`, `f3` (R128). -/
def wordX (f1 : BitVec 3) (f2 f3 : Nibble) : Word := (0b00111#5 : BitVec 5) ++ f1 ++ f2 ++ f3

/-- Group X with a 7-bit address split over `f1` and `f3` (R124). -/
def wordX1 (a : Addr) (f2 : Nibble) : Word := wordX (a.extractLsb' 4 3) f2 (a.extractLsb' 0 4)

/-- Format A: operation code, bit 10 fixed 0, address (R126). -/
def wordA (op : BitVec 5) (a : ProgAddr) : Word := op ++ 0#1 ++ a

/-- The word of an instruction, from the encoding columns of R127 to R129. -/
def encode (i : Instr) : Word :=
  match i with
  | .addReg r m => wordRM 0b00000#5 m r
  | .addImm m n => wordRM 0b10000#5 m n
  | .addcReg r m => wordRM 0b00010#5 m r
  | .addcImm m n => wordRM 0b10010#5 m n
  | .incAr => wordX 0b000#3 0b1001#4 0b0000#4
  | .incIx => wordX 0b000#3 0b1000#4 0b0000#4
  | .subReg r m => wordRM 0b00001#5 m r
  | .subImm m n => wordRM 0b10001#5 m n
  | .subcReg r m => wordRM 0b00011#5 m r
  | .subcImm m n => wordRM 0b10011#5 m n
  | .orReg r m => wordRM 0b00110#5 m r
  | .orImm m n => wordRM 0b10110#5 m n
  | .andReg r m => wordRM 0b00100#5 m r
  | .andImm m n => wordRM 0b10100#5 m n
  | .xorReg r m => wordRM 0b00101#5 m r
  | .xorImm m n => wordRM 0b10101#5 m n
  | .skt m n => wordRM 0b11110#5 m n
  | .skf m n => wordRM 0b11111#5 m n
  | .ske m n => wordRM 0b01001#5 m n
  | .skne m n => wordRM 0b01011#5 m n
  | .skge m n => wordRM 0b11001#5 m n
  | .sklt m n => wordRM 0b11011#5 m n
  | .rorc r => wordX 0b000#3 0b0111#4 r
  | .ld r m => wordRM 0b01000#5 m r
  | .st m r => wordRM 0b11000#5 m r
  | .movToInd r m => wordRM 0b01010#5 m r
  | .movFromInd m r => wordRM 0b11010#5 m r
  | .movImm m n => wordRM 0b11101#5 m n
  | .movt => wordX 0b000#3 0b0001#4 0b0000#4
  | .push => wordX 0b000#3 0b1101#4 0b0000#4
  | .pop => wordX 0b000#3 0b1100#4 0b0000#4
  | .peek rf => wordX1 rf 0b0011#4
  | .poke rf => wordX1 rf 0b0010#4
  | .get p => wordX1 p 0b1011#4
  | .put p => wordX1 p 0b1010#4
  | .br a => wordA 0b01100#5 a
  | .brAr => wordX 0b000#3 0b0100#4 0b0000#4
  | .call a => wordA 0b11100#5 a
  | .callAr => wordX 0b000#3 0b0101#4 0b0000#4
  | .ret => wordX 0b000#3 0b1110#4 0b0000#4
  | .retsk => wordX 0b001#3 0b1110#4 0b0000#4
  | .reti => wordX 0b100#3 0b1110#4 0b0000#4
  | .ei => wordX 0b000#3 0b1111#4 0b0000#4
  | .di => wordX 0b001#3 0b1111#4 0b0000#4
  | .stop s => wordX 0b010#3 0b1111#4 s
  | .halt h => wordX 0b011#3 0b1111#4 h
  | .nop => wordX 0b100#3 0b1111#4 0b0000#4

end Sys2Proof
end

