-- ==== Sys2Proof/Config.lean ====
section
/-! DEFINITION. What the spec leaves to a parameter (00_scope.md R8) and the free values: constants with no
body, so that nothing can be proved of the value one has. -/

namespace Sys2Proof

/-- The edges of the INT pin that can request the interrupt (60_exceptions.md R290). -/
inductive Edge where
  | rising
  | falling
  | both
  deriving DecidableEq, Repr, Inhabited

/-- The seven mask options: a pull-up resistor is present where the bit is true (10_state.md R72). -/
structure MaskOptions where
  reset : Bool
  pod   : BitVec 4
  poe   : BitVec 2
  deriving DecidableEq, Repr, Inhabited

/-- Which open value of one step a free value stands for. Two slots of one step are independent; so are two
steps (log 5). -/
inductive DrawSlot where
  /-- the `k`-th operand read of the step, where the address holds nothing or POD1 is the SO pin (R84) -/
  | read (k : Nat)
  /-- the pins of POD that nothing drives, at the `k`-th operand read (R317) -/
  | floatingPod (k : Nat)
  /-- the pins of POE that nothing drives, at the `k`-th operand read (R317) -/
  | floatingPoe (k : Nat)
  /-- GET of a write-only or unassigned peripheral address (R93) -/
  | peripheral
  /-- a RAM nibble after a reset that leaves it undefined (R73) -/
  | ram (a : Nat)
  | wr
  | latchA
  | latchB
  | latchC
  | latchD
  | latchE
  | tmc
  | timerOut
  | asr (i : Nat)
  | intsk
  | sfr
  | clockCount
  | started
  | siots
  | irqSio
  | soLatch
  | sckLow
  /-- the idle level of the SCK pin with an internal clock selected (R321, 91_not_in_source.md N24) -/
  | sckIdle
  deriving DecidableEq, Repr

/-- The free values of the model: the value of slot `d` in the step numbered `n`. DESIGN CHOICE, log 5. -/
opaque Config.free (n : Nat) (d : DrawSlot) : Word

/-- Decimal-corrected addition `BcdAdd(a, b, c) = (res, cy)`, an open parameter (40_add_sub.md R173; log 8). -/
opaque Config.bcdAdd (a b : Nibble) (c : Bool) : Nibble × Bool

/-- Decimal-corrected subtraction `BcdSub(a, b, c) = (res, cy)`, an open parameter (40_add_sub.md R173; log 8). -/
opaque Config.bcdSub (a b : Nibble) (c : Bool) : Nibble × Bool

/-- The address an operand `m` denotes when IXE = 1, an open parameter (20_memory.md R86; log 9). -/
opaque Config.indexedAddr (m : Addr) (ix : BitVec 7) : Addr

/-- `EiDelay`: true where one more instruction completes after EI before a request is accepted
(46_interrupt_other.md R245; log 18). -/
opaque Config.eiDelay : Bool

/-- The edge each value of IEGMD1:IEGMD0 selects, an open parameter (60_exceptions.md R290; log 19). -/
opaque Config.iegmdEdge (code : BitVec 2) : Edge

/-- The mask options of the part (10_state.md R72; log 34). -/
opaque Config.pullUp : MaskOptions

end Sys2Proof
end

