-- ==== Sys2Proof/Machine/State.lean ====
section
/-! DEFINITION. The machine's state: every piece of state 10_state.md gives the μPD17120, as plain data, with the
reasons a step can stop and the state after reset. -/

namespace Sys2Proof.Machine

/-- Cells by address, the addresses strictly rising, none holding what an unlisted address reads as. -/
abbrev Memory := List Host.Cell

/-- What an unlisted byte of program memory reads as (log 3: an unprogrammed word is FFFFH). -/
def romUnlisted : Byte := 0xFF

/-- What an unlisted nibble of RAM reads as (log 1; unsafe: the spec says undefined). -/
def ramUnlisted : Byte := 0x00

/-- The five flags of PSWORD (10_state.md R39). -/
structure Psw where
  bcd : Bool
  cmp : Bool
  cy  : Bool
  z   : Bool
  ixe : Bool
  deriving DecidableEq, Repr

/-- All five flags 0. -/
def Psw.clear : Psw := { bcd := false, cmp := false, cy := false, z := false, ixe := false }

/-- The 8-bit timer counter (10_state.md R55, R56, R69, R71). TMRES holds no state (60_exceptions.md R304). -/
structure Timer where
  tmen   : Bool
  tmck   : BitVec 2
  tmosel : Bool
  tmc    : Byte
  tmm    : Byte
  /-- the timer-output flip-flop -/
  out    : Bool
  deriving DecidableEq, Repr

/-- The serial interface (10_state.md R52, R57, R69, R71). Its output latch is bit 1 of the POD latch. -/
structure Sio where
  sioen  : Bool
  siots  : Bool
  siohiz : Bool
  siock  : BitVec 2
  sfr    : Byte
  /-- the serial clock counter: rising edges counted, modulo 8 -/
  count  : BitVec 3
  /-- a falling edge has been seen since SIOTS was set (log 28) -/
  started : Bool
  /-- the last edge of the serial clock in this transfer was a falling one (R321, R323, R324; log 38) -/
  sckLow : Bool
  deriving DecidableEq, Repr

/-- Output latches and I/O modes of the ports (10_state.md R59, R61 to R64, R70); mode 1 is output. -/
structure Ports where
  latchA : Nibble
  latchB : Nibble
  latchC : Nibble
  latchD : Nibble
  latchE : BitVec 2
  poabio : Nibble
  pobgio : Bool
  pocbio : Nibble
  podbio : Nibble
  poebio : BitVec 2
  deriving DecidableEq, Repr

/-- The levels the outside world puts on the pins (60_exceptions.md R317). The open-drain ports POD and POE
may be left undriven outside: `podDriven`, `poeDriven` say which pins are driven. -/
structure Pins where
  poa : Nibble
  pob : Nibble
  poc : Nibble
  podDriven : Nibble
  pod : Nibble
  poeDriven : BitVec 2
  poe : BitVec 2
  int : Bool
  deriving DecidableEq, Repr

/-- What the CPU is doing (10_state.md R71; 70_reset_and_hazards.md R361, R362). -/
inductive Standby where
  | running
  /-- HALT mode with release condition `h` -/
  | halt (h : Nibble)
  /-- STOP mode with release condition `s` -/
  | stop (s : Nibble)
  /-- held in reset -/
  | resetHeld
  /-- waiting for the oscillation to stabilise after a reset of kind 1 or 2 -/
  | oscWait
  deriving DecidableEq, Repr

/-- What asserts a reset of kind 1 or 2 (70_reset_and_hazards.md R360). -/
inductive ResetCause where
  | resetPin
  | powerOn
  | powerDown
  deriving DecidableEq, Repr

/-- One move of an agent (60_exceptions.md R341). -/
inductive Event where
  /-- the CPU takes its turn -/
  | cpu
  /-- one count pulse of the clock TMCK selects (R301) -/
  | countPulse
  /-- a falling edge of the selected serial clock (R323) -/
  | sckFall
  /-- a rising edge of the selected serial clock (R324) -/
  | sckRise
  /-- the outside levels become `p`; a change of INT is an edge (R290) -/
  | pins (p : Pins)
  | resetAssert (c : ResetCause)
  | resetRelease
  /-- the oscillation-stabilisation wait ends -/
  | oscWaitOver
  deriving DecidableEq, Repr

/-- The three interrupt sources (60_exceptions.md R276). -/
inductive IntSource where
  | int
  | timer
  | serial
  deriving DecidableEq, Repr

/-- Why a push or a pop resets the chip (60_exceptions.md R271). -/
inductive StackEvent where
  | overflow
  | underflow
  deriving DecidableEq, Repr

/-- The state of the machine. -/
structure State where
  pc   : ProgAddr
  /-- program memory, two bytes a word -/
  rom  : Memory
  /-- RAM 00H to 3FH, one nibble a cell -/
  ram  : Memory
  /-- address register (R33) -/
  ar   : BitVec 10
  /-- window register (R34) -/
  wr   : Nibble
  /-- index register (R36); the row pointer MP is its upper three bits (R37) -/
  ix   : BitVec 7
  mpe  : Bool
  /-- the row of the general-register pointer, RPL[3:1] (R38) -/
  rp   : BitVec 3
  psw  : Psw
  sp   : BitVec 3
  /-- address-stack registers (R46) -/
  asr  : Vector ProgAddr 5
  /-- interrupt-stack register (R47) -/
  intsk : Psw
  inte : Bool
  /-- EI was the last instruction and `EiDelay` is 1 (log 18; the model's own) -/
  eiHold : Bool
  irq    : Bool
  irqTm  : Bool
  irqSio : Bool
  ip     : Bool
  ipTm   : Bool
  ipSio  : Bool
  iegmd  : BitVec 2
  pdresen : Bool
  timer : Timer
  sio   : Sio
  ports : Ports
  pins  : Pins
  standby : Standby
  /-- the agents' next moves, first to move first; empty means the CPU moves (log 16; the model's own) -/
  schedule : List Event
  /-- the number of the step, which indexes its free values (log 5; the model's own) -/
  drawClock : Nat
  deriving DecidableEq, Repr

/-- Why a step stops the machine with a fault. The machine has none: no access faults (20_memory.md R100), no
instruction traps (60_exceptions.md R272), and a stack overflow or underflow is a reset that goes on (log 14). -/
inductive Fault where
  deriving DecidableEq, Repr

/-- Why the model gives a step no meaning. -/
inductive Refusal where
  /-- Raised by a dispatch arm whose instruction has no meaning yet; safe. -/
  | notModelled (mnemonic : String)
  /-- Raised by the fetch: the word is no instruction of this part, and the spec gives it no semantics
  (30_encoding.md R132; log 13); safe. -/
  | undefinedWord (w : Word)
  /-- Raised by STOP and HALT whose operand sets a bit the spec fixes to 0 (46_interrupt_other.md R247, R248;
  log 11); safe. -/
  | standbyOperand (operand : Nibble)
  /-- Raised by STOP and HALT where the word before them is not NOP (70_reset_and_hazards.md R374; log 12); safe. -/
  | noNopBefore
  /-- Raised by ADD, ADDC, SUB, SUBC and RORC whose destination is the flags' nibble 7FH (40_add_sub.md R174,
  43_rotate.md R200; log 10); safe. -/
  | flagDestination
  /-- Raised by ADD, ADDC, SUB and SUBC with BCD = 1 and an operand above 9 (40_add_sub.md R173; log 8); safe. -/
  | decimalOperand
  /-- Raised by PUT and POKE that would disturb a serial transfer or set SIOTS with SIOEN = 0 (44_transfer.md R216,
  93_implementation_defined.md U9; log 15); safe. -/
  | serialDisturbed
  deriving DecidableEq, Repr

/-- The timer after a reset of kind 1 or 2 (10_state.md R73); the flip-flop's value is log 2's. -/
def Timer.reset : Timer :=
  { tmen := true, tmck := 0, tmosel := false, tmc := 0x00, tmm := 0xFF, out := true }

/-- The serial interface after reset; SIOSFR and the clock counter are log 2's. -/
def Sio.reset : Sio :=
  { sioen := false, siots := false, siohiz := false, siock := 0, sfr := 0, count := 0, started := false,
    sckLow := false }

/-- The ports after a reset of kind 1 or 2: input mode, latches 0 (10_state.md R70, R73). -/
def Ports.reset : Ports :=
  { latchA := 0, latchB := 0, latchC := 0, latchD := 0, latchE := 0,
    poabio := 0, pobgio := false, pocbio := 0, podbio := 0, poebio := 0 }

/-- The pins at the start: every pin driven low from outside (log 4). -/
def Pins.initial : Pins :=
  { poa := 0, pob := 0, poc := 0, podDriven := 0xF, pod := 0, poeDriven := 0b11, poe := 0, int := false }

/-- The machine right after reset (10_state.md R73, 70_reset_and_hazards.md R369; values the spec leaves open
are those of logs 1, 2, 4, 5, 16 and 18). -/
def State.reset : State :=
  { pc := 0x000
    rom := []
    ram := []
    ar := 0
    wr := 0
    ix := 0
    mpe := false
    rp := 0
    psw := Psw.clear
    sp := 5
    asr := Vector.replicate 5 0
    intsk := Psw.clear
    inte := false
    eiHold := false
    irq := false
    irqTm := true
    irqSio := false
    ip := false
    ipTm := false
    ipSio := false
    iegmd := 0
    pdresen := false
    timer := Timer.reset
    sio := Sio.reset
    ports := Ports.reset
    pins := Pins.initial
    standby := .running
    schedule := []
    drawClock := 0 }

end Sys2Proof.Machine
end

