-- ==== Sys2Proof/Machine/Flags.lean ====
section
/-! DEFINITION. The arithmetic of the ALU and the flags it computes (40_add_sub.md R161, R162, R173). Values are
taken as integers, computed exactly and narrowed at the end. -/

namespace Sys2Proof.Machine

/-- Binary addition: result modulo 16, carry iff the sum reaches 16 (R161). -/
def binaryAdd (a b : Nibble) (c : Bool) : Nibble × Bool :=
  let sum := a.toNat + b.toNat + c.toNat
  (BitVec.ofNat 4 sum, decide (16 ≤ sum))

/-- Binary subtraction: result modulo 16, borrow iff the difference is negative (R161). -/
def binarySub (a b : Nibble) (c : Bool) : Nibble × Bool :=
  let difference : Int := (a.toNat : Int) - b.toNat - c.toNat
  (BitVec.ofInt 4 difference, decide (difference < 0))

/-- Addition under BCD (R161, R173; log 8). -/
def aluAdd (bcd : Bool) (a b : Nibble) (c : Bool) : Nibble × Bool :=
  if bcd then Config.bcdAdd a b c else binaryAdd a b c

/-- Subtraction under BCD (R161, R173; log 8). -/
def aluSub (bcd : Bool) (a b : Nibble) (c : Bool) : Nibble × Bool :=
  if bcd then Config.bcdSub a b c else binarySub a b c

/-- BCD = 1 and an operand is no decimal digit (R173; log 8). -/
def notDecimal (bcd : Bool) (a b : Nibble) : Bool := bcd && (decide (9 < a.toNat) || decide (9 < b.toNat))

/-- The flags after an arithmetic result: CY always; Z set by the result when CMP = 0, only ever cleared when
CMP = 1 (R162; log 21). -/
def Psw.afterArith (p : Psw) (res : Nibble) (cy : Bool) : Psw :=
  { p with cy := cy, z := if p.cmp then p.z && decide (res = 0) else decide (res = 0) }

/-- The flags in the nibble 7FH: CMP CY Z IXE (10_state.md R39). -/
def Psw.withNibble (p : Psw) (v : Nibble) : Psw :=
  { p with cmp := v.getLsbD 3, cy := v.getLsbD 2, z := v.getLsbD 1, ixe := v.getLsbD 0 }

/-- Rotate right through carry: the new nibble and the new CY (43_rotate.md R200). -/
def rotateRight (v : Nibble) (cy : Bool) : Nibble × Bool :=
  ((BitVec.ofBool cy).setWidth 4 <<< 3 ||| v >>> 1, v.getLsbD 0)

/-- All the bits `n` selects are 1 (42_judge_compare.md R190). -/
def allOnes (v n : Nibble) : Bool := v &&& n = n

/-- All the bits `n` selects are 0 (42_judge_compare.md R191). -/
def allZeros (v n : Nibble) : Bool := v &&& n = 0

/-- A borrow in `v - n`, unsigned (42_judge_compare.md R197). -/
def borrows (v n : Nibble) : Bool := decide (v.toNat < n.toNat)

end Sys2Proof.Machine
end

