-- ==== Sys2Proof/Machine/Memory.lean ====
section
/-! DEFINITION. Memory as a list of cells in one canonical form: addresses strictly rising, and no cell holding
what an unlisted address reads as. Every operation keeps the form (Sys2Proof/Laws/Memory.lean). -/

namespace Sys2Proof.Machine

/-- The byte at address `a`, `unlisted` where no cell lists it. -/
def cellRead (unlisted : Byte) : Memory → Nat → Byte
  | [], _ => unlisted
  | (b, v) :: rest, a => if b = a then v else cellRead unlisted rest a

/-- Put a cell in its place among cells of rising addresses. -/
def cellInsert (c : Host.Cell) : Memory → Memory
  | [] => [c]
  | d :: rest => if c.1 < d.1 then c :: d :: rest else d :: cellInsert c rest

/-- Write a byte; writing what an unlisted address reads as removes the cell. -/
def cellWrite (unlisted : Byte) (m : Memory) (a : Nat) (v : Byte) : Memory :=
  let others := m.filter fun c => c.1 ≠ a
  if v = unlisted then others else cellInsert (a, v) others

/-- The memory of the addresses below `size` with contents `f`. -/
def cellFill (unlisted : Byte) (size : Nat) (f : Nat → Byte) : Memory :=
  ((List.range size).map fun a => (a, f a)).filter fun c => c.2 ≠ unlisted

/-- Addresses strictly rising. -/
def addressesRise : Memory → Bool
  | [] => true
  | [_] => true
  | c :: d :: rest => decide (c.1 < d.1) && addressesRise (d :: rest)

/-- The canonical form of a memory of `size` cells whose contents are at most `top`. -/
def Memory.wf (unlisted top : Byte) (size : Nat) (m : Memory) : Bool :=
  addressesRise m && m.all fun c => decide (c.1 < size) && decide (c.2 ≠ unlisted) && decide (c.2 ≤ top)

/-- The RAM nibble at address `a` (10_state.md R28). -/
def ramRead (m : Memory) (a : Nat) : Nibble := (cellRead ramUnlisted m a).setWidth 4

/-- Write a RAM nibble. -/
def ramWrite (m : Memory) (a : Nat) (v : Nibble) : Memory := cellWrite ramUnlisted m a (v.setWidth 8)

/-- RAM with contents `f`. -/
def ramFill (f : Nat → Nibble) : Memory := cellFill ramUnlisted 64 fun a => (f a).setWidth 8

/-- The program-memory word at address `a`: FFFFH from 0300H on (10_state.md R24). -/
def romWord (m : Memory) (a : ProgAddr) : Word :=
  if a.toNat < 0x300 then
    cellRead romUnlisted m (2 * a.toNat + 1) ++ cellRead romUnlisted m (2 * a.toNat)
  else 0xFFFF

/-- Put a word into program memory from outside (log 3); no instruction does (20_memory.md R98). -/
def romStore (m : Memory) (a : ProgAddr) (w : Word) : Memory :=
  let low := cellWrite romUnlisted m (2 * a.toNat) (w.extractLsb' 0 8)
  cellWrite romUnlisted low (2 * a.toNat + 1) (w.extractLsb' 8 8)

end Sys2Proof.Machine
end

