-- ==== Sys2Proof/Machine/Bits.lean ====
section
/-! DEFINITION. The bit fields multi-part registers are made of: most significant part first (20_memory.md R83). -/

namespace Sys2Proof.Machine

/-- A nibble from its bits b3 b2 b1 b0. -/
def nibbleOf (b3 b2 b1 b0 : Bool) : Nibble :=
  BitVec.ofBool b3 ++ BitVec.ofBool b2 ++ BitVec.ofBool b1 ++ BitVec.ofBool b0

/-- A 7-bit value from a row and a column (00_scope.md R12). -/
def rowCol (row : BitVec 3) (col : Nibble) : Addr := row ++ col

/-- The row, the upper three bits of a 7-bit value. -/
def rowOf (a : Addr) : BitVec 3 := a.extractLsb' 4 3

/-- The column, the lower four bits of a 7-bit value. -/
def colOf (a : Addr) : Nibble := a.extractLsb' 0 4

/-- The address register from AR2[1:0], AR1, AR0 (10_state.md R33). -/
def arOf (high : BitVec 2) (middle low : Nibble) : BitVec 10 := high ++ middle ++ low

/-- AR2[1:0]. -/
def arHigh (a : BitVec 10) : BitVec 2 := a.extractLsb' 8 2

/-- AR1. -/
def arMiddle (a : BitVec 10) : Nibble := a.extractLsb' 4 4

/-- AR0. -/
def arLow (a : BitVec 10) : Nibble := a.extractLsb' 0 4

/-- The nibble 7EH: RP's row and the flag BCD (10_state.md R38). -/
def rplOf (row : BitVec 3) (bcd : Bool) : Nibble := row ++ BitVec.ofBool bcd

/-- RP's row in the nibble 7EH. -/
def rplRow (v : Nibble) : BitVec 3 := v.extractLsb' 1 3

/-- The upper nibble of a byte. -/
def highNibble (b : Byte) : Nibble := b.extractLsb' 4 4

/-- The lower nibble of a byte. -/
def lowNibble (b : Byte) : Nibble := b.extractLsb' 0 4

/-- A byte shifted left by one bit, `bit` entering as bit 0 (60_exceptions.md R324). -/
def shiftIn (b : Byte) (bit : Bool) : Byte := b.extractLsb' 0 7 ++ BitVec.ofBool bit

/-- Four nibbles as a word (10_state.md R44). -/
def wordOf (n3 n2 n1 n0 : Nibble) : Word := n3 ++ n2 ++ n1 ++ n0

/-- Nibble `k` of a word, nibble 0 the least significant. -/
def nibbleAt (w : Word) (k : Nat) : Nibble := w.extractLsb' (4 * k) 4

end Sys2Proof.Machine
end

