-- ==== Sys2Proof/Machine/Ports.lean ====
section
/-! DEFINITION. Free values, and what the port registers and the pins read as (60_exceptions.md R312 to R318). -/

namespace Sys2Proof.Machine

/-- A free 16-bit value of this step (log 5). -/
def State.freeWord (s : State) (d : DrawSlot) : Word := Config.free s.drawClock d

/-- A free byte of this step. -/
def State.freeByte (s : State) (d : DrawSlot) : Byte := (s.freeWord d).setWidth 8

/-- A free nibble of this step. -/
def State.freeNibble (s : State) (d : DrawSlot) : Nibble := (s.freeWord d).setWidth 4

/-- A free bit of this step. -/
def State.freeBit (s : State) (d : DrawSlot) : Bool := (s.freeWord d).getLsbD 0

/-- Per bit, `x` where the mode bit is 1 (output) and `y` where it is 0 (input). -/
def byMode {n : Nat} (mode x y : BitVec n) : BitVec n := (mode &&& x) ||| (~~~mode &&& y)

/-- The level of one line: what the outside drives, else high where there is a pull-up, else free (R317, R72;
log 7). -/
def lineBit (driven level pullUp floating : Bool) : Bool :=
  if driven then level else pullUp || floating

/-- Bit `n` of the POD pins as the outside leaves them, at the `k`-th operand read. -/
def State.podLine (s : State) (k n : Nat) : Bool :=
  lineBit (s.pins.podDriven.getLsbD n) (s.pins.pod.getLsbD n) (Config.pullUp.pod.getLsbD n)
    ((s.freeWord (.floatingPod k)).getLsbD n)

/-- The POD pins as the outside leaves them, at the `k`-th operand read. -/
def State.podOutside (s : State) (k : Nat) : Nibble :=
  nibbleOf (s.podLine k 3) (s.podLine k 2) (s.podLine k 1) (s.podLine k 0)

/-- Bit `n` of the POE pins as the outside leaves them, at the `k`-th operand read. -/
def State.poeLine (s : State) (k n : Nat) : Bool :=
  lineBit (s.pins.poeDriven.getLsbD n) (s.pins.poe.getLsbD n) (Config.pullUp.poe.getLsbD n)
    ((s.freeWord (.floatingPoe k)).getLsbD n)

/-- The POE pins as the outside leaves them, at the `k`-th operand read. -/
def State.poeOutside (s : State) (k : Nat) : BitVec 2 :=
  BitVec.ofBool (s.poeLine k 1) ++ BitVec.ofBool (s.poeLine k 0)

/-- An open-drain pin is low where the chip pulls it low, else as the outside leaves it (R317). -/
def openDrain {n : Nat} (pulledLow outside : BitVec n) : BitVec n := ~~~pulledLow &&& outside

/-- The POE pins: pulled low by an output whose latch is 0 (R316, R317). -/
def State.poePins (s : State) (k : Nat) : BitVec 2 :=
  openDrain (s.ports.poebio &&& ~~~s.ports.latchE) (s.poeOutside k)

/-- A read of 6FH: bits 3, 2 are 0, bits 1, 0 the pins in either mode (R316). -/
def State.readPortE (s : State) (k : Nat) : Nibble := (s.poePins k).setWidth 4

/-- A read of 70H (R312). -/
def State.readPortA (s : State) : Nibble := byMode s.ports.poabio s.ports.latchA s.pins.poa

/-- A read of 71H: one mode bit for the four pins (R313). -/
def State.readPortB (s : State) : Nibble := if s.ports.pobgio then s.ports.latchB else s.pins.pob

/-- A read of 72H (R314). -/
def State.readPortC (s : State) : Nibble := byMode s.ports.pocbio s.ports.latchC s.pins.poc

/-- Bit `n` of POD as a port: latch in output mode, pin in input mode (table 13-5, R315). -/
def State.podPortBit (s : State) (k n : Nat) : Bool :=
  if s.ports.podbio.getLsbD n then s.ports.latchD.getLsbD n else s.podLine k n

/-- POD0 or SCK: the latch with an internal clock, the pin with the external one (R315). -/
def State.readPod0 (s : State) (k : Nat) : Bool :=
  if s.sio.sioen then
    if s.sio.siock = 0 then s.podLine k 0 else s.ports.latchD.getLsbD 0
  else s.podPortBit k 0

/-- POD1 or SO: undefined as SO, the pin in receive mode (R315, R327, R328; log 7). -/
def State.readPod1 (s : State) (k : Nat) : Bool :=
  if s.sio.sioen then
    if s.sio.siohiz then s.podLine k 1 else s.freeBit (.read k)
  else s.podPortBit k 1

/-- POD2 or SI: the pin as SI (R315). -/
def State.readPod2 (s : State) (k : Nat) : Bool :=
  if s.sio.sioen then s.podLine k 2 else s.podPortBit k 2

/-- POD3 or TMOUT: the latch as TMOUT (R307, R315). -/
def State.readPod3 (s : State) (k : Nat) : Bool :=
  if s.timer.tmosel then s.ports.latchD.getLsbD 3 else s.podPortBit k 3

/-- A read of 73H, each bit by the function of its pin (R315). -/
def State.readPortD (s : State) (k : Nat) : Nibble :=
  nibbleOf (s.readPod3 k) (s.readPod2 k) (s.readPod1 k) (s.readPod0 k)

/-- The chip pulls SCK low: with an internal clock, between a falling and the next rising edge of a transfer (R321,
R323, R324); before the first falling edge and after the eighth rising one the level is idle and open
(91_not_in_source.md N24; log 38). -/
def State.sckPulledLow (s : State) : Bool :=
  s.sio.siock ≠ 0 && if s.sio.siots && s.sio.started then s.sio.sckLow else s.freeBit .sckIdle

/-- The pins the chip pulls low on POD: output ports and SO by their latch, TMOUT by the flip-flop, SCK by the internal
clock; inputs and SI never (R307, R315, R317, R321, R326, R327). -/
def State.podPulledLow (s : State) : Nibble :=
  let port (n : Nat) : Bool := s.ports.podbio.getLsbD n && !s.ports.latchD.getLsbD n
  nibbleOf
    (if s.timer.tmosel then !s.timer.out else port 3)
    (!s.sio.sioen && port 2)
    (if s.sio.sioen then !s.sio.siohiz && !s.ports.latchD.getLsbD 1 else port 1)
    (if s.sio.sioen then s.sckPulledLow else port 0)

/-- The levels of the POD pins as an observer outside sees them (R317). -/
def State.podPins (s : State) : Nibble := openDrain s.podPulledLow (s.podOutside 0)

end Sys2Proof.Machine
end

