-- ==== Sys2Proof/Machine/Ops.lean ====
section
/-! DEFINITION. The named operations over data memory, the register file, the peripheral registers and the
stack, the resets, and taking an interrupt and returning from one. -/

namespace Sys2Proof.Machine

/-! ## Program counter -/

/-- The instruction ends at the next address (10_state.md R22). -/
def State.advance (s : State) : State := { s with pc := s.pc + 1 }

/-- Skip the next instruction where `c` holds (30_encoding.md R131). -/
def State.skipIf (s : State) (c : Bool) : State := { s with pc := s.pc + if c then 2 else 1 }

/-! ## Data memory (20_memory.md R84, R85) -/

/-- What stands at a data-memory address (10_state.md R28, R32). -/
inductive DmPlace where
  | ram (a : Nat)
  | empty
  | portE
  | portA
  | portB
  | portC
  | portD
  | ar3
  | ar2
  | ar1
  | ar0
  | wr
  | bank
  | ixh
  | ixm
  | ixl
  | rph
  | rpl
  | psw
  deriving DecidableEq, Repr

/-- The data-memory map of bank 0 (10_state.md R28, R32). -/
def dmPlace (a : Addr) : DmPlace :=
  let n := a.toNat
  if n < 0x40 then .ram n
  else if n < 0x6F then .empty
  else match n with
    | 0x6F => .portE
    | 0x70 => .portA
    | 0x71 => .portB
    | 0x72 => .portC
    | 0x73 => .portD
    | 0x74 => .ar3
    | 0x75 => .ar2
    | 0x76 => .ar1
    | 0x77 => .ar0
    | 0x78 => .wr
    | 0x79 => .bank
    | 0x7A => .ixh
    | 0x7B => .ixm
    | 0x7C => .ixl
    | 0x7D => .rph
    | 0x7E => .rpl
    | _ => .psw

/-- `MemRead(a, 1)`, as the `k`-th operand read of the step (R84): fixed-0 bits read 0 (10_state.md R40), the
unimplemented area reads a free value (10_state.md R29; log 6). -/
def memRead (s : State) (k : Nat) (a : Addr) : Nibble :=
  match dmPlace a with
  | .ram n => ramRead s.ram n
  | .empty => s.freeNibble (.read k)
  | .portE => s.readPortE k
  | .portA => s.readPortA
  | .portB => s.readPortB
  | .portC => s.readPortC
  | .portD => s.readPortD k
  | .ar3 => 0
  | .ar2 => (arHigh s.ar).setWidth 4
  | .ar1 => arMiddle s.ar
  | .ar0 => arLow s.ar
  | .wr => s.wr
  | .bank => 0
  | .ixh => nibbleOf s.mpe false false false
  | .ixm => (rowOf s.ix).setWidth 4
  | .ixl => colOf s.ix
  | .rph => 0
  | .rpl => rplOf s.rp s.psw.bcd
  | .psw => nibbleOf s.psw.cmp s.psw.cy s.psw.z s.psw.ixe

/-- `MemWrite(a, 1, v)` (R85): a port write loads the output latch in either mode (log 26), fixed-0 bits and the
unimplemented area ignore the write (log 35). -/
def memWrite (s : State) (a : Addr) (v : Nibble) : State :=
  match dmPlace a with
  | .ram n => { s with ram := ramWrite s.ram n v }
  | .empty => s
  | .portE => { s with ports := { s.ports with latchE := v.setWidth 2 } }
  | .portA => { s with ports := { s.ports with latchA := v } }
  | .portB => { s with ports := { s.ports with latchB := v } }
  | .portC => { s with ports := { s.ports with latchC := v } }
  | .portD => { s with ports := { s.ports with latchD := v } }
  | .ar3 => s
  | .ar2 => { s with ar := arOf (v.setWidth 2) (arMiddle s.ar) (arLow s.ar) }
  | .ar1 => { s with ar := arOf (arHigh s.ar) v (arLow s.ar) }
  | .ar0 => { s with ar := arOf (arHigh s.ar) (arMiddle s.ar) v }
  | .wr => { s with wr := v }
  | .bank => s
  | .ixh => { s with mpe := v.getLsbD 3 }
  | .ixm => { s with ix := rowCol (v.setWidth 3) (colOf s.ix) }
  | .ixl => { s with ix := rowCol (rowOf s.ix) v }
  | .rph => s
  | .rpl => { s with rp := rplRow v, psw := { s.psw with bcd := v.getLsbD 0 } }
  | .psw => { s with psw := s.psw.withNibble v }

/-- The data buffer, most significant nibble at 0CH (10_state.md R44). -/
def State.dbf (s : State) : Word :=
  wordOf (ramRead s.ram 0x0C) (ramRead s.ram 0x0D) (ramRead s.ram 0x0E) (ramRead s.ram 0x0F)

/-- Load DBF1:DBF0 and leave DBF3, DBF2 (20_memory.md R93; log 29). -/
def State.withDbfLow (s : State) (v : Byte) : State :=
  { s with ram := ramWrite (ramWrite s.ram 0x0E (highNibble v)) 0x0F (lowNibble v) }

/-- Load all four nibbles of DBF (20_memory.md R93, 44_transfer.md R210). -/
def State.withDbf (s : State) (v : Word) : State :=
  let high := ramWrite (ramWrite s.ram 0x0C (nibbleAt v 3)) 0x0D (nibbleAt v 2)
  { s with ram := ramWrite (ramWrite high 0x0E (nibbleAt v 1)) 0x0F (nibbleAt v 0) }

/-! ## Serial interface (60_exceptions.md R322, R330; 93_implementation_defined.md U9) -/

/-- The POD latch with bit 1, the SO latch, replaced (60_exceptions.md R326). -/
def Ports.withSoLatch (p : Ports) (b : Bool) : Ports :=
  { p with latchD := nibbleOf (p.latchD.getLsbD 3) (p.latchD.getLsbD 2) b (p.latchD.getLsbD 0) }

/-- The serial unit where a clock edge meets SIOTS = 1 with SIOEN = 0: not described (60_exceptions.md R330), so its
contents are free. No step leads to such a state (log 15). -/
def serialOpen (s : State) : State :=
  { s with
    sio := { s.sio with
      siots := s.freeBit .siots
      sfr := s.freeByte .sfr
      count := (s.freeWord .clockCount).setWidth 3
      started := s.freeBit .started
      sckLow := s.freeBit .sckLow }
    irqSio := s.freeBit .irqSio
    ports := s.ports.withSoLatch (s.freeBit .soLatch) }

/-- A write of SIOTS, SIOHIZ, SIOCK: setting SIOTS clears IRQSIO and the clock counter (60_exceptions.md R322;
log 28). -/
def writeSioMode (s : State) (v : Nibble) : State :=
  let ts := v.getLsbD 3
  { s with
    sio := { s.sio with
      siots := ts
      siohiz := v.getLsbD 2
      siock := v.setWidth 2
      count := if ts then 0 else s.sio.count
      started := if ts then false else s.sio.started }
    irqSio := if ts then false else s.irqSio }

/-! ## Register file (20_memory.md R90, R91) -/

/-- What stands at a register-file address (10_state.md R49, R50, R68). -/
inductive RfPlace where
  | dataMemory (a : Addr)
  | sp
  | sioen
  | intPin
  | pdresen
  | timerMode
  | tmosel
  | sioMode
  | iegmd
  | pobgio
  | ipFlags
  | poebio
  | podbio
  | pocbio
  | poabio
  | irqSio
  | irqTm
  | irq
  | unassigned
  deriving DecidableEq, Repr

/-- The control-register map; 40H to 7FH are data memory (10_state.md R49, R50). -/
def rfPlace (rf : Addr) : RfPlace :=
  let n := rf.toNat
  if 0x40 ≤ n then .dataMemory rf
  else match n with
    | 0x01 => .sp
    | 0x0A => .sioen
    | 0x0F => .intPin
    | 0x10 => .pdresen
    | 0x11 => .timerMode
    | 0x12 => .tmosel
    | 0x1A => .sioMode
    | 0x1F => .iegmd
    | 0x24 => .pobgio
    | 0x2F => .ipFlags
    | 0x32 => .poebio
    | 0x33 => .podbio
    | 0x34 => .pocbio
    | 0x35 => .poabio
    | 0x3D => .irqSio
    | 0x3E => .irqTm
    | 0x3F => .irq
    | _ => .unassigned

/-- `RFRead(rf)` (R90): TMRES and fixed-0 bits read 0, INT is the pin, an unassigned address a free value (log 6). -/
def rfRead (s : State) (rf : Addr) : Nibble :=
  match rfPlace rf with
  | .dataMemory a => memRead s 0 a
  | .sp => s.sp.setWidth 4
  | .sioen => nibbleOf false false false s.sio.sioen
  | .intPin => nibbleOf false false false s.pins.int
  | .pdresen => nibbleOf false false false s.pdresen
  | .timerMode => nibbleOf s.timer.tmen false (s.timer.tmck.getLsbD 1) (s.timer.tmck.getLsbD 0)
  | .tmosel => nibbleOf false false false s.timer.tmosel
  | .sioMode => nibbleOf s.sio.siots s.sio.siohiz (s.sio.siock.getLsbD 1) (s.sio.siock.getLsbD 0)
  | .iegmd => s.iegmd.setWidth 4
  | .pobgio => nibbleOf false false false s.ports.pobgio
  | .ipFlags => nibbleOf false s.ipSio s.ipTm s.ip
  | .poebio => s.ports.poebio.setWidth 4
  | .podbio => s.ports.podbio
  | .pocbio => s.ports.pocbio
  | .poabio => s.ports.poabio
  | .irqSio => nibbleOf false false false s.irqSio
  | .irqTm => nibbleOf false false false s.irqTm
  | .irq => nibbleOf false false false s.irq
  | .unassigned => s.freeNibble (.read 0)

/-- A write of TMEN, TMRES, TMCK: TMRES = 1 clears the count and sets the flip-flop to its reset state
(60_exceptions.md R304). -/
def Timer.writeMode (t : Timer) (v : Nibble) : Timer :=
  { t with
    tmen := v.getLsbD 3
    tmck := v.setWidth 2
    tmc := if v.getLsbD 2 then 0 else t.tmc
    out := if v.getLsbD 2 then true else t.out }

/-- `RFWrite(rf, v)` (R91): a whole-nibble write of the assigned bits. -/
def rfWrite (s : State) (rf : Addr) (v : Nibble) : State :=
  match rfPlace rf with
  | .dataMemory a => memWrite s a v
  | .sp => { s with sp := v.setWidth 3 }
  | .sioen => { s with sio := { s.sio with sioen := v.getLsbD 0 } }
  | .intPin => s
  | .pdresen => { s with pdresen := v.getLsbD 0 }
  | .timerMode => { s with timer := s.timer.writeMode v }
  | .tmosel => { s with timer := { s.timer with tmosel := v.getLsbD 0 } }
  | .sioMode => writeSioMode s v
  | .iegmd => { s with iegmd := v.setWidth 2 }
  | .pobgio => { s with ports := { s.ports with pobgio := v.getLsbD 0 } }
  | .ipFlags => { s with ipSio := v.getLsbD 2, ipTm := v.getLsbD 1, ip := v.getLsbD 0 }
  | .poebio => { s with ports := { s.ports with poebio := v.setWidth 2 } }
  | .podbio => { s with ports := { s.ports with podbio := v } }
  | .pocbio => { s with ports := { s.ports with pocbio := v } }
  | .poabio => { s with ports := { s.ports with poabio := v } }
  | .irqSio => { s with irqSio := v.getLsbD 0 }
  | .irqTm => { s with irqTm := v.getLsbD 0 }
  | .irq => { s with irq := v.getLsbD 0 }
  | .unassigned => s

/-- Writing `v` to `rf` changes SIOEN, SIOHIZ or SIOCK while SIOTS = 1, or sets SIOTS with SIOEN = 0: a program the
model refuses (93_implementation_defined.md U9; log 15). -/
def rfWriteDisturbs (s : State) (rf : Addr) (v : Nibble) : Bool :=
  match rfPlace rf with
  | .sioen => s.sio.siots && v.getLsbD 0 != s.sio.sioen
  | .sioMode =>
    s.sio.siots && (v.getLsbD 2 != s.sio.siohiz || v.setWidth 2 != s.sio.siock) || v.getLsbD 3 && !s.sio.sioen
  | _ => false

/-! ## Peripheral registers (20_memory.md R93, R94) -/

/-- The peripheral registers (10_state.md R69). -/
inductive PeriPlace where
  | sfr
  | tmc
  | tmm
  | ar
  | unassigned
  deriving DecidableEq, Repr

/-- The peripheral address map (10_state.md R69, 20_memory.md R95). -/
def periPlace (p : Addr) : PeriPlace :=
  match p.toNat with
  | 0x01 => .sfr
  | 0x02 => .tmc
  | 0x03 => .tmm
  | 0x40 => .ar
  | _ => .unassigned

/-- GET: `DBF <- PeriRead(p)`. TMM is write-only: a free byte; an unassigned address, whose width the spec does
not give: sixteen free bits (R93; log 6). -/
def periRead (s : State) (p : Addr) : State :=
  match periPlace p with
  | .sfr => s.withDbfLow s.sio.sfr
  | .tmc => s.withDbfLow s.timer.tmc
  | .tmm => s.withDbfLow (s.freeByte .peripheral)
  | .ar => s.withDbf (s.ar.setWidth 16)
  | .unassigned => s.withDbf (s.freeWord .peripheral)

/-- PUT: `PeriWrite(p, DBF)` (R94). -/
def periWrite (s : State) (p : Addr) : State :=
  match periPlace p with
  | .sfr => { s with sio := { s.sio with sfr := s.dbf.setWidth 8 } }
  | .tmc => s
  | .tmm => { s with timer := { s.timer with tmm := s.dbf.setWidth 8 } }
  | .ar => { s with ar := s.dbf.setWidth 10 }
  | .unassigned => s

/-- PUT to `p` loads SIOSFR during a transfer: a program the model refuses (44_transfer.md R216,
93_implementation_defined.md U9; log 15). -/
def periWriteDisturbs (s : State) (p : Addr) : Bool := decide (periPlace p = .sfr) && s.sio.siots

/-! ## Resets (10_state.md R73, 60_exceptions.md R270, 70_reset_and_hazards.md R360 to R369) -/

/-- What a reset of kind 1 or 2 and `STOP 0000B` set to a defined value (70_reset_and_hazards.md R368). -/
def resetDefined (s : State) : State :=
  { s with
    ar := 0
    ix := 0
    mpe := false
    rp := 0
    psw := Psw.clear
    sp := 5
    inte := false
    eiHold := false
    irq := false
    irqTm := true
    irqSio := false
    ip := false
    ipTm := false
    ipSio := false
    iegmd := 0
    pdresen := false
    timer := { tmen := true, tmck := 0, tmosel := false, tmc := 0x00, tmm := 0xFF, out := s.timer.out }
    sio := { sioen := false, siots := false, siohiz := false, siock := 0,
             sfr := s.sio.sfr, count := s.sio.count, started := false, sckLow := false }
    ports := { latchA := 0, latchB := 0, latchC := 0, latchD := 0, latchE := 0,
               poabio := 0, pobgio := false, pocbio := 0, podbio := 0, poebio := 0 } }

/-- Five free flags. -/
def State.freePsw (s : State) (d : DrawSlot) : Psw :=
  let w := s.freeWord d
  { bcd := w.getLsbD 4, cmp := w.getLsbD 3, cy := w.getLsbD 2, z := w.getLsbD 1, ixe := w.getLsbD 0 }

/-- What no reset gives a value: ASR, INTSK, the timer-output flip-flop, the serial clock counter, DBF. They are
free (10_state.md R73; log 5). -/
def resetOpen (s : State) : State :=
  let t := s.withDbf (wordOf (s.freeNibble (.ram 0x0C)) (s.freeNibble (.ram 0x0D))
    (s.freeNibble (.ram 0x0E)) (s.freeNibble (.ram 0x0F)))
  { t with
    asr := Vector.ofFn fun i => (s.freeWord (.asr i.val)).setWidth 10
    intsk := s.freePsw .intsk
    timer := { s.timer with out := s.freeBit .timerOut }
    sio := { s.sio with count := (s.freeWord .clockCount).setWidth 3 } }

/-- Reset kind 2: RAM except DBF, WR and SIOSFR are kept (10_state.md R73, 70_reset_and_hazards.md R366). -/
def resetKind2 (s : State) : State :=
  { resetOpen (resetDefined s) with pc := 0 }

/-- Reset kind 1: RAM, WR and SIOSFR are free as well (10_state.md R73). -/
def resetKind1 (s : State) : State :=
  let t := resetOpen (resetDefined s)
  { t with
    pc := 0
    ram := ramFill fun a => s.freeNibble (.ram a)
    wr := s.freeNibble .wr
    sio := { t.sio with sfr := s.freeByte .sfr } }

/-- Reset kind 3, by stack overflow or underflow (60_exceptions.md R270, 70_reset_and_hazards.md R367): execution
goes on at 0000H, the control registers but SP and the port modes keep their values, and what becomes undefined is
free (log 14, log 31). -/
def stackReset (s : State) (_why : StackEvent) : State :=
  { s with
    pc := 0
    ram := ramFill fun a => s.freeNibble (.ram a)
    ar := 0
    wr := s.freeNibble .wr
    ix := 0
    mpe := false
    rp := 0
    psw := Psw.clear
    sp := 5
    asr := Vector.ofFn fun i => (s.freeWord (.asr i.val)).setWidth 10
    intsk := s.freePsw .intsk
    inte := false
    eiHold := false
    timer := { s.timer with tmc := s.freeByte .tmc, tmm := 0xFF, out := s.freeBit .timerOut }
    sio := { s.sio with
      sfr := s.freeByte .sfr
      count := (s.freeWord .clockCount).setWidth 3
      started := s.freeBit .started
      sckLow := s.freeBit .sckLow }
    ports := { latchA := s.freeNibble .latchA, latchB := s.freeNibble .latchB,
               latchC := s.freeNibble .latchC, latchD := s.freeNibble .latchD,
               latchE := (s.freeWord .latchE).setWidth 2,
               poabio := 0, pobgio := false, pocbio := 0, podbio := 0, poebio := 0 } }

/-! ## Stack (60_exceptions.md R271) -/

/-- The address-stack register ASR[i]. -/
def State.asrAt (s : State) (i : Nat) : ProgAddr := (s.asr[i]?).getD 0

/-- `Push(v)`: overflow with SP = 0, underflow with SP 6 or 7 (R271; log 24). -/
def push (s : State) (v : ProgAddr) : Except StackEvent State :=
  if s.sp = 0 then .error .overflow
  else if 6 ≤ s.sp.toNat then .error .underflow
  else .ok { s with sp := s.sp - 1, asr := s.asr.setIfInBounds (s.sp.toNat - 1) v }

/-- `Pop()`: underflow with SP from 5 on (R271; log 24). -/
def pop (s : State) : Except StackEvent (ProgAddr × State) :=
  if 5 ≤ s.sp.toNat then .error .underflow
  else .ok (s.asrAt s.sp.toNat, { s with sp := s.sp + 1 })

/-- Push `v` and go on from the state after it, or take the stack reset. -/
def withPush (s : State) (v : ProgAddr) (go : State → State) : State :=
  match push s v with
  | .ok t => go t
  | .error why => stackReset s why

/-- Pop an address and go on with it, or take the stack reset. -/
def withPop (s : State) (go : ProgAddr → State → State) : State :=
  match pop s with
  | .ok (a, t) => go a t
  | .error why => stackReset s why

/-! ## Interrupts (60_exceptions.md R276, R277, R281) -/

/-- The source accepted among the requested and enabled ones, in the priority order of table 16-1 (R276, R277). -/
def requestedSource (s : State) : Option IntSource :=
  if s.irq && s.ip then some .int
  else if s.irqTm && s.ipTm then some .timer
  else if s.irqSio && s.ipSio then some .serial
  else none

/-- The source to accept at this boundary: INTE = 1 and EI has taken effect (R277, R278; log 18). -/
def acceptedSource (s : State) : Option IntSource :=
  if s.inte && !s.eiHold then requestedSource s else none

/-- The vector addresses of table 16-1 (R276). -/
def vectorOf (x : IntSource) : ProgAddr :=
  match x with
  | .int => 0x003
  | .timer => 0x002
  | .serial => 0x001

/-- `IRQx <- 0` (R274). -/
def clearRequest (s : State) (x : IntSource) : State :=
  match x with
  | .int => { s with irq := false }
  | .timer => { s with irqTm := false }
  | .serial => { s with irqSio := false }

/-- The entry sequence (R281): the return address on the stack, PSWORD in INTSK, PSWORD, the request and INTE
cleared, the pc at the vector; the stack reset where no level is free (R288). -/
def takeInterrupt (s : State) (x : IntSource) : State :=
  withPush s s.pc fun t =>
    clearRequest { t with intsk := s.psw, psw := Psw.clear, inte := false, pc := vectorOf x } x

/-- The return (45_branch_subroutine.md R236): the pc from the stack, PSWORD from INTSK, nothing else. -/
def returnFromInterrupt (s : State) : State :=
  withPop s fun a t => { t with pc := a, psw := s.intsk }

/-! ## Standby (46_interrupt_other.md R247, R248; 60_exceptions.md R348, R349) -/

/-- The release condition of HALT (R348). -/
def haltReleased (s : State) (h : Nibble) : Bool :=
  h.getLsbD 3 && (s.irq && s.ip || s.irqTm && s.ipTm || s.irqSio && s.ipSio) || h.getLsbD 1 && s.irqTm

/-- The release condition of STOP: never by IRQTM (R349). -/
def stopReleased (s : State) (c : Nibble) : Bool :=
  c.getLsbD 3 && (s.irq && s.ip || s.irqSio && s.ipSio)

/-- The word before the instruction at `pc` is NOP, 3CF0H (70_reset_and_hazards.md R374). -/
def nopBefore (s : State) : Bool := romWord s.rom (s.pc - 1) = 0x3CF0

end Sys2Proof.Machine
end

