-- ==== Sys2Proof/Machine/Operands.lean ====
section
/-! DEFINITION. The operand forms: the addresses operands denote (20_memory.md R86 to R88). -/

namespace Sys2Proof.Machine

/-- `EA(m)`: `m` itself with IXE = 0, the open parameter's address with IXE = 1 (R86; log 9). -/
def ea (s : State) (m : Addr) : Addr :=
  if s.psw.ixe then Config.indexedAddr m s.ix else m

/-- `GRaddr(r)`: row RP, column `r`; IXE does not modify it (R87). -/
def grAddr (s : State) (r : Nibble) : Addr := rowCol s.rp r

/-- The contents of general register `r`, as the `k`-th operand read. -/
def grRead (s : State) (k : Nat) (r : Nibble) : Nibble := memRead s k (grAddr s r)

/-- The data-memory operand `m`, as the `k`-th operand read. -/
def mRead (s : State) (k : Nat) (m : Addr) : Nibble := memRead s k (ea s m)

/-- The address `@r` denotes beside the direct operand `m`: column the contents `c` of `r`, row `mR` with MPE = 0 and
the row pointer MP with MPE = 1 (R88). -/
def indirectAddr (s : State) (m : Addr) (c : Nibble) : Addr :=
  rowCol (if s.mpe then rowOf s.ix else rowOf m) c

end Sys2Proof.Machine
end

