-- ==== Sys2Proof/Machine/Arith.lean ====
section
/-! DEFINITION. Addition and subtraction: ADD, ADDC, SUB, SUBC, INC (40_add_sub.md). All operands are read before
anything is written (20_memory.md R96). -/

namespace Sys2Proof.Machine

/-- What any instruction answers. -/
abbrev Result := Host.Outcome State Fault Refusal

/-- An arithmetic result goes to `dst` and the flags are updated (40_add_sub.md R162): with CMP = 1 only the flags
change. -/
def arithStore (s : State) (dst : Addr) (out : Nibble × Bool) : State :=
  let t := { s with psw := s.psw.afterArith out.1 out.2 }
  if s.psw.cmp then t else memWrite t dst out.1

/-- An instruction that writes flags ends in `t` at the next address, but for the destination 7FH, which holds the flags
it writes: the spec refuses it (40_add_sub.md R174, 43_rotate.md R200; log 10). -/
def endUnlessFlags (dst : Addr) (t : State) : Result :=
  if dst = 0x7F then .refused .flagDestination else .next t.advance

/-- An arithmetic instruction with the operands `a`, `b` ends: refused with BCD = 1 and an operand above 9 (R173;
log 8), and for the destination 7FH; else `out` is stored. -/
def endArith (s : State) (dst : Addr) (a b : Nibble) (out : Nibble × Bool) : Result :=
  if dst ≠ 0x7F ∧ notDecimal s.psw.bcd a b then .refused .decimalOperand
  else endUnlessFlags dst (arithStore s dst out)

/-- `(r) <- (r) + (m) + c` (R163, R165). -/
def addToReg (r : Nibble) (m : Addr) (c : Bool) (s : State) : Result :=
  let a := grRead s 0 r
  let b := mRead s 1 m
  endArith s (grAddr s r) a b (aluAdd s.psw.bcd a b c)

/-- `(m) <- (m) + n4 + c` (R164, R166). -/
def addToMem (m : Addr) (n : Nibble) (c : Bool) (s : State) : Result :=
  let a := mRead s 0 m
  endArith s (ea s m) a n (aluAdd s.psw.bcd a n c)

/-- `(r) <- (r) - (m) - c` (R167, R169). -/
def subFromReg (r : Nibble) (m : Addr) (c : Bool) (s : State) : Result :=
  let a := grRead s 0 r
  let b := mRead s 1 m
  endArith s (grAddr s r) a b (aluSub s.psw.bcd a b c)

/-- `(m) <- (m) - n4 - c` (R168, R170). -/
def subFromMem (m : Addr) (n : Nibble) (c : Bool) (s : State) : Result :=
  let a := mRead s 0 m
  endArith s (ea s m) a n (aluSub s.psw.bcd a n c)

/-- `ADD r, m` (R163). -/
def execAddReg (r : Nibble) (m : Addr) (s : State) : Result := addToReg r m false s

/-- `ADD m, #n4` (R164). -/
def execAddImm (m : Addr) (n : Nibble) (s : State) : Result := addToMem m n false s

/-- `ADDC r, m` (R165). -/
def execAddcReg (r : Nibble) (m : Addr) (s : State) : Result := addToReg r m s.psw.cy s

/-- `ADDC m, #n4` (R166). -/
def execAddcImm (m : Addr) (n : Nibble) (s : State) : Result := addToMem m n s.psw.cy s

/-- `SUB r, m` (R167). -/
def execSubReg (r : Nibble) (m : Addr) (s : State) : Result := subFromReg r m false s

/-- `SUB m, #n4` (R168). -/
def execSubImm (m : Addr) (n : Nibble) (s : State) : Result := subFromMem m n false s

/-- `SUBC r, m` (R169). -/
def execSubcReg (r : Nibble) (m : Addr) (s : State) : Result := subFromReg r m s.psw.cy s

/-- `SUBC m, #n4` (R170). -/
def execSubcImm (m : Addr) (n : Nibble) (s : State) : Result := subFromMem m n s.psw.cy s

/-- `INC AR`: ten bits, no flag (R171; log 22, log 23). -/
def execIncAr (s : State) : Result := .next { s with ar := s.ar + 1 }.advance

/-- `INC IX`: seven bits, MPE untouched, no flag (R172; log 22, log 23). -/
def execIncIx (s : State) : Result := .next { s with ix := s.ix + 1 }.advance

end Sys2Proof.Machine
end

