-- ==== Sys2Proof/Machine/Branch.lean ====
section
/-! DEFINITION. Branch and subroutine (45_branch_subroutine.md). The address pushed by a call is the next one in
sequence (R237; log 25). -/

namespace Sys2Proof.Machine

/-- `BR addr` (R230). -/
def execBr (a : ProgAddr) (s : State) : Result := .next { s with pc := a }

/-- `BR @AR` (R231). -/
def execBrAr (s : State) : Result := .next { s with pc := s.ar }

/-- `CALL addr` (R232). -/
def execCall (a : ProgAddr) (s : State) : Result :=
  .next (withPush s (s.pc + 1) fun t => { t with pc := a })

/-- `CALL @AR` (R233). -/
def execCallAr (s : State) : Result :=
  .next (withPush s (s.pc + 1) fun t => { t with pc := s.ar })

/-- `RET` (R234). -/
def execRet (s : State) : Result := .next (withPop s fun a t => { t with pc := a })

/-- `RETSK`: the instruction at the return address is skipped (R235). -/
def execRetsk (s : State) : Result := .next (withPop s fun a t => { t with pc := a + 1 })

/-- `RETI` (R236). -/
def execReti (s : State) : Result := .next (returnFromInterrupt s)

end Sys2Proof.Machine
end

