-- ==== Sys2Proof/Machine/Judge.lean ====
section
/-! DEFINITION. Judge and compare (42_judge_compare.md): conditional skips. SKT and SKF clear CMP, having read the
nibble first (R192; log 36); the comparisons write no flag (R197; log 22). -/

namespace Sys2Proof.Machine

/-- `CMP <- 0` and skip where the nibble at `m` passes `test` (R190, R191). -/
def judge (test : Nibble → Bool) (m : Addr) (s : State) : State :=
  { s with psw := { s.psw with cmp := false } }.skipIf (test (mRead s 0 m))

/-- Skip where the nibble at `m` passes `test` (R197). -/
def compare (test : Nibble → Bool) (m : Addr) (s : State) : State :=
  s.skipIf (test (mRead s 0 m))

/-- `SKT m, #n` (R190). -/
def execSkt (m : Addr) (n : Nibble) (s : State) : Result := .next (judge (fun v => allOnes v n) m s)

/-- `SKF m, #n` (R191). -/
def execSkf (m : Addr) (n : Nibble) (s : State) : Result := .next (judge (fun v => allZeros v n) m s)

/-- `SKE m, #n4` (R193). -/
def execSke (m : Addr) (n : Nibble) (s : State) : Result := .next (compare (fun v => decide (v = n)) m s)

/-- `SKNE m, #n4` (R194). -/
def execSkne (m : Addr) (n : Nibble) (s : State) : Result := .next (compare (fun v => decide (v ≠ n)) m s)

/-- `SKGE m, #n4` (R195). -/
def execSkge (m : Addr) (n : Nibble) (s : State) : Result := .next (compare (fun v => !borrows v n) m s)

/-- `SKLT m, #n4` (R196). -/
def execSklt (m : Addr) (n : Nibble) (s : State) : Result := .next (compare (fun v => borrows v n) m s)

end Sys2Proof.Machine
end

