-- ==== Sys2Proof/Machine/Logic.lean ====
section
/-! DEFINITION. Logical instructions: OR, AND, XOR (41_logic.md). The result is always stored and no flag is
written but by storing into 7EH or 7FH (R180; log 22). -/

namespace Sys2Proof.Machine

/-- `(r) <- (r) op (m)` (R180). -/
def logicToReg (op : Nibble → Nibble → Nibble) (r : Nibble) (m : Addr) (s : State) : State :=
  (memWrite s (grAddr s r) (op (grRead s 0 r) (mRead s 1 m))).advance

/-- `(m) <- (m) op n4` (R180). -/
def logicToMem (op : Nibble → Nibble → Nibble) (m : Addr) (n : Nibble) (s : State) : State :=
  (memWrite s (ea s m) (op (mRead s 0 m) n)).advance

/-- `OR r, m` (R181). -/
def execOrReg (r : Nibble) (m : Addr) (s : State) : Result := .next (logicToReg (· ||| ·) r m s)

/-- `OR m, #n4` (R182). -/
def execOrImm (m : Addr) (n : Nibble) (s : State) : Result := .next (logicToMem (· ||| ·) m n s)

/-- `AND r, m` (R183). -/
def execAndReg (r : Nibble) (m : Addr) (s : State) : Result := .next (logicToReg (· &&& ·) r m s)

/-- `AND m, #n4` (R184). -/
def execAndImm (m : Addr) (n : Nibble) (s : State) : Result := .next (logicToMem (· &&& ·) m n s)

/-- `XOR r, m` (R185). -/
def execXorReg (r : Nibble) (m : Addr) (s : State) : Result := .next (logicToReg (· ^^^ ·) r m s)

/-- `XOR m, #n4` (R186). -/
def execXorImm (m : Addr) (n : Nibble) (s : State) : Result := .next (logicToMem (· ^^^ ·) m n s)

end Sys2Proof.Machine
end

