-- ==== Sys2Proof/Machine/Rotate.lean ====
section
/-! DEFINITION. Rotate: RORC (43_rotate.md). -/

namespace Sys2Proof.Machine

/-- A rotated nibble goes to `dst` and the bit shifted out to CY, whatever CMP is (R200). -/
def rotateStore (s : State) (dst : Addr) (out : Nibble × Bool) : State :=
  memWrite { s with psw := { s.psw with cy := out.2 } } dst out.1

/-- `RORC r` (R200). -/
def execRorc (r : Nibble) (s : State) : Result :=
  let dst := grAddr s r
  endUnlessFlags dst (rotateStore s dst (rotateRight (grRead s 0 r) s.psw.cy))

end Sys2Proof.Machine
end

