-- ==== Sys2Proof/Machine/System.lean ====
section
/-! DEFINITION. Interrupt and other instructions: EI, DI, STOP, HALT, NOP (46_interrupt_other.md). -/

namespace Sys2Proof.Machine

/-- `EI`: INTE is set; with `EiDelay` = 1 one more instruction completes before a request is accepted (R245; log 18). -/
def execEi (s : State) : Result := .next { s with inte := true, eiHold := Config.eiDelay }.advance

/-- `DI`, at once (R246). -/
def execDi (s : State) : Result := .next { s with inte := false }.advance

/-- `STOP s` (R247): a fixed-0 operand bit set or no NOP before it is refused (log 11, log 12); `STOP 0000B`
initialises the chip (R368); a release condition that already holds makes it a NOP (log 37); entering STOP mode
resets the count to 0 (60_exceptions.md R309, R346). -/
def execStop (c : Nibble) (s : State) : Result :=
  if c.setWidth 3 ≠ 0 then .refused (.standbyOperand c)
  else if !nopBefore s then .refused .noNopBefore
  else if c = 0 then .next { resetDefined s with standby := .stop c }.advance
  else if stopReleased s c then .next s.advance
  else .next { s with standby := .stop c, timer := { s.timer with tmc := 0 } }.advance

/-- `HALT h` (R248): refusals as for STOP; a release condition that already holds makes it a NOP (log 37). -/
def execHalt (h : Nibble) (s : State) : Result :=
  if h.getLsbD 2 || h.getLsbD 0 then .refused (.standbyOperand h)
  else if !nopBefore s then .refused .noNopBefore
  else if haltReleased s h then .next s.advance
  else .next { s with standby := .halt h }.advance

/-- `NOP` (R249). -/
def execNop (s : State) : Result := .next s.advance

end Sys2Proof.Machine
end

