-- ==== Sys2Proof/Machine/Transfer.lean ====
section
/-! DEFINITION. Transfers (44_transfer.md). None is conditioned by CMP or BCD and none writes a flag but by storing
into 7EH or 7FH (log 22). -/

namespace Sys2Proof.Machine

/-- `LD r, m` (R205). -/
def execLd (r : Nibble) (m : Addr) (s : State) : Result :=
  .next (memWrite s (grAddr s r) (mRead s 0 m)).advance

/-- `ST m, r` (R206). -/
def execSt (m : Addr) (r : Nibble) (s : State) : Result :=
  .next (memWrite s (ea s m) (grRead s 0 r)).advance

/-- `MOV @r, m` (R207). -/
def execMovToInd (r : Nibble) (m : Addr) (s : State) : Result :=
  .next (memWrite s (indirectAddr s m (grRead s 1 r)) (mRead s 0 m)).advance

/-- `MOV m, @r` (R208). -/
def execMovFromInd (m : Addr) (r : Nibble) (s : State) : Result :=
  .next (memWrite s (ea s m) (memRead s 1 (indirectAddr s m (grRead s 0 r)))).advance

/-- `MOV m, #n4` (R209). -/
def execMovImm (m : Addr) (n : Nibble) (s : State) : Result :=
  .next (memWrite s (ea s m) n).advance

/-- `MOVT DBF, @AR` (R210): a push and a pop around the table read, so ASR[SP - 1] keeps the return address. -/
def execMovt (s : State) : Result :=
  .next <| withPush s (s.pc + 1) fun t =>
    withPop (t.withDbf (romWord s.rom s.ar)) fun a u => { u with pc := a }

/-- `PUSH AR` (R211). -/
def execPush (s : State) : Result := .next (withPush s s.ar State.advance)

/-- `POP AR` (R212). -/
def execPop (s : State) : Result := .next (withPop s fun a t => { t with ar := a }.advance)

/-- `PEEK WR, rf` (R213). -/
def execPeek (rf : Addr) (s : State) : Result := .next { s with wr := rfRead s rf }.advance

/-- `POKE rf, WR` (R214); refused where it disturbs the serial interface (93_implementation_defined.md U9; log 15). -/
def execPoke (rf : Addr) (s : State) : Result :=
  if rfWriteDisturbs s rf s.wr then .refused .serialDisturbed else .next (rfWrite s rf s.wr).advance

/-- `GET DBF, p` (R215). -/
def execGet (p : Addr) (s : State) : Result := .next (periRead s p).advance

/-- `PUT p, DBF` (R216); refused for SIOSFR during a transfer (R216; log 15). -/
def execPut (p : Addr) (s : State) : Result :=
  if periWriteDisturbs s p then .refused .serialDisturbed else .next (periWrite s p).advance

end Sys2Proof.Machine
end

