-- ==== Sys2Proof/Machine/Dispatch.lean ====
section
/-! DEFINITION. The dispatch: one arm per instruction, each a call of its meaning. -/

namespace Sys2Proof.Machine

def exec (i : Instr) (s : State) : Host.Outcome State Fault Refusal :=
  match i with
  | .addReg r m => Sys2Proof.Machine.execAddReg r m s
  | .addImm m n => Sys2Proof.Machine.execAddImm m n s
  | .addcReg r m => Sys2Proof.Machine.execAddcReg r m s
  | .addcImm m n => Sys2Proof.Machine.execAddcImm m n s
  | .incAr => Sys2Proof.Machine.execIncAr s
  | .incIx => Sys2Proof.Machine.execIncIx s
  | .subReg r m => Sys2Proof.Machine.execSubReg r m s
  | .subImm m n => Sys2Proof.Machine.execSubImm m n s
  | .subcReg r m => Sys2Proof.Machine.execSubcReg r m s
  | .subcImm m n => Sys2Proof.Machine.execSubcImm m n s
  | .orReg r m => Sys2Proof.Machine.execOrReg r m s
  | .orImm m n => Sys2Proof.Machine.execOrImm m n s
  | .andReg r m => Sys2Proof.Machine.execAndReg r m s
  | .andImm m n => Sys2Proof.Machine.execAndImm m n s
  | .xorReg r m => Sys2Proof.Machine.execXorReg r m s
  | .xorImm m n => Sys2Proof.Machine.execXorImm m n s
  | .skt m n => Sys2Proof.Machine.execSkt m n s
  | .skf m n => Sys2Proof.Machine.execSkf m n s
  | .ske m n => Sys2Proof.Machine.execSke m n s
  | .skne m n => Sys2Proof.Machine.execSkne m n s
  | .skge m n => Sys2Proof.Machine.execSkge m n s
  | .sklt m n => Sys2Proof.Machine.execSklt m n s
  | .rorc r => Sys2Proof.Machine.execRorc r s
  | .ld r m => Sys2Proof.Machine.execLd r m s
  | .st m r => Sys2Proof.Machine.execSt m r s
  | .movToInd r m => Sys2Proof.Machine.execMovToInd r m s
  | .movFromInd m r => Sys2Proof.Machine.execMovFromInd m r s
  | .movImm m n => Sys2Proof.Machine.execMovImm m n s
  | .movt => Sys2Proof.Machine.execMovt s
  | .push => Sys2Proof.Machine.execPush s
  | .pop => Sys2Proof.Machine.execPop s
  | .peek rf => Sys2Proof.Machine.execPeek rf s
  | .poke rf => Sys2Proof.Machine.execPoke rf s
  | .get p => Sys2Proof.Machine.execGet p s
  | .put p => Sys2Proof.Machine.execPut p s
  | .br addr => Sys2Proof.Machine.execBr addr s
  | .brAr => Sys2Proof.Machine.execBrAr s
  | .call addr => Sys2Proof.Machine.execCall addr s
  | .callAr => Sys2Proof.Machine.execCallAr s
  | .ret => Sys2Proof.Machine.execRet s
  | .retsk => Sys2Proof.Machine.execRetsk s
  | .reti => Sys2Proof.Machine.execReti s
  | .ei => Sys2Proof.Machine.execEi s
  | .di => Sys2Proof.Machine.execDi s
  | .stop c => Sys2Proof.Machine.execStop c s
  | .halt h => Sys2Proof.Machine.execHalt h s
  | .nop => Sys2Proof.Machine.execNop s

end Sys2Proof.Machine
end

