-- ==== Sys2Proof/Machine/Events.lean ====
section
/-! DEFINITION. What happens between instructions (60_exceptions.md R341): the events of the timer, the serial
interface, the pins and the resets, and the CPU's turn when it does not execute an instruction. -/

namespace Sys2Proof.Machine

/-- One count pulse (60_exceptions.md R302): on a match the count returns to 0, IRQTM is set and the output flip-flop
inverts. Nothing counts with TMEN = 0 (R303) or outside running and HALT (R309). -/
def countPulse (s : State) : State :=
  let counts : Bool := match s.standby with
    | .running => s.timer.tmen
    | .halt _ => s.timer.tmen
    | .stop _ => false
    | .resetHeld => false
    | .oscWait => false
  if !counts then s
  else if s.timer.tmc = s.timer.tmm then
    { s with timer := { s.timer with tmc := 0, out := !s.timer.out }, irqTm := true }
  else { s with timer := { s.timer with tmc := s.timer.tmc + 1 } }

/-- A clock edge reaches the shift register: SIOTS = 1, and in STOP mode only with the external clock
(60_exceptions.md R329, R332). -/
def serialClocked (s : State) : Bool :=
  s.sio.siots && match s.standby with
    | .running => true
    | .halt _ => true
    | .stop _ => decide (s.sio.siock = 0)
    | .resetHeld => false
    | .oscWait => false

/-- A falling edge of the serial clock (60_exceptions.md R322, R323): the transfer starts, and in transmit/receive mode
the MSB goes to the SO latch. -/
def sckFall (s : State) : State :=
  if !serialClocked s then s
  else if !s.sio.sioen then serialOpen s
  else
    { s with
      sio := { s.sio with started := true, sckLow := true }
      ports := if s.sio.siohiz then s.ports else s.ports.withSoLatch (s.sio.sfr.getLsbD 7) }

/-- The level of the SI line (60_exceptions.md R324). -/
def siLevel (s : State) : Bool := s.podLine 0 2

/-- A rising edge of the serial clock (60_exceptions.md R324, R325): shift left, SI into bit 0; the eighth ends the
transfer. Before the first falling edge nothing has started (R322; log 28). -/
def sckRise (s : State) : State :=
  if !serialClocked s then s
  else if !s.sio.sioen then serialOpen s
  else if !s.sio.started then s
  else
    let sfr := shiftIn s.sio.sfr (siLevel s)
    if s.sio.count = 7 then
      { s with
        sio := { s.sio with sfr := sfr, count := 0, siots := false, started := false, sckLow := false }
        irqSio := true }
    else { s with sio := { s.sio with sfr := sfr, count := s.sio.count + 1, sckLow := false } }

/-- The change of the INT pin from `was` to `now` is an edge the code selects (60_exceptions.md R290). -/
def edgeSelected (e : Edge) (was now : Bool) : Bool :=
  match e with
  | .rising => !was && now
  | .falling => was && !now
  | .both => was != now

/-- The outside levels become `p`; a selected edge of INT sets IRQ, in HALT and STOP mode too (60_exceptions.md R274,
R290, R346), but not while the chip is held in reset or waits for the oscillation (log 30). -/
def pinsChange (s : State) (p : Pins) : State :=
  let detects : Bool := match s.standby with
    | .running => true
    | .halt _ => true
    | .stop _ => true
    | .resetHeld => false
    | .oscWait => false
  { s with
    pins := p
    irq := s.irq || (detects && edgeSelected (Config.iegmdEdge s.iegmd) s.pins.int p.int) }

/-- A reset of kind 1 or 2 is asserted (70_reset_and_hazards.md R360 to R365): whatever its cause, kind 2 in a standby
mode, else kind 1 (R360, R363; log 30); the power-down reset acts only with PDRESEN = 1 (R365). -/
def resetAssert (s : State) (c : ResetCause) : State :=
  let inStandby : Bool := match s.standby with
    | .running => false
    | .halt _ => true
    | .stop _ => true
    | .resetHeld => false
    | .oscWait => false
  if c = .powerDown ∧ s.pdresen = false then s
  else if inStandby then { resetKind2 s with standby := .resetHeld }
  else { resetKind1 s with standby := .resetHeld }

/-- The reset is released: the oscillation-stabilisation wait begins (70_reset_and_hazards.md R361, R362). -/
def resetRelease (s : State) : State :=
  if s.standby = .resetHeld then { s with standby := .oscWait } else s

/-- The wait is over: the chip runs from 0000H (70_reset_and_hazards.md R362). -/
def oscWaitOver (s : State) : State :=
  if s.standby = .oscWait then { s with standby := .running } else s

/-- The state after an agent's move; the CPU's turn is taken in `boundary`. -/
def applyEvent (e : Event) (s : State) : State :=
  match e with
  | .cpu => s
  | .countPulse => countPulse s
  | .sckFall => sckFall s
  | .sckRise => sckRise s
  | .pins p => pinsChange s p
  | .resetAssert c => resetAssert s c
  | .resetRelease => resetRelease s
  | .oscWaitOver => oscWaitOver s

/-- What a step turns out to be. -/
inductive Turn where
  /-- an event, a wait, a release or an interrupt acceptance; the machine goes on from `t` -/
  | done (t : State)
  /-- the CPU executes the instruction at `t`'s pc -/
  | execute (t : State)
  deriving DecidableEq, Repr

/-- The CPU's turn (60_exceptions.md R277, R278, R347 to R350): in standby it waits or is released; running, it
accepts an interrupt or executes an instruction, which ends the hold EI put on acceptance (log 17, log 18). -/
def cpuTurn (s : State) : Turn :=
  match s.standby with
  | .running =>
    match acceptedSource s with
    | some x => .done (takeInterrupt s x)
    | none => .execute { s with eiHold := false }
  | .halt h => .done (if haltReleased s h then { s with standby := .running } else s)
  | .stop c => .done (if stopReleased s c then { s with standby := .running } else s)
  | .resetHeld => .done s
  | .oscWait => .done s

/-- The state in which the step numbered `s.drawClock + 1` acts, with the schedule `rest` left (log 5, log 16). -/
def State.begin (s : State) (rest : List Event) : State :=
  { s with schedule := rest, drawClock := s.drawClock + 1 }

/-- The next move: the schedule's first event, the CPU's where it is empty (log 16). -/
def boundary (s : State) : Turn :=
  match s.schedule with
  | [] => cpuTurn (s.begin [])
  | .cpu :: rest => cpuTurn (s.begin rest)
  | e :: rest => .done (applyEvent e (s.begin rest))

/-- The word the CPU fetches (30_encoding.md R120). -/
def fetchWord (s : State) : Word := romWord s.rom s.pc

/-- The schedule with the CPU next to move. -/
def cpuNext (l : List Event) : List Event :=
  match l with
  | [] => []
  | .cpu :: rest => .cpu :: rest
  | e :: rest => .cpu :: e :: rest

/-- STOP or HALT (30_encoding.md R128), which must stand after a NOP (70_reset_and_hazards.md R374). -/
def needsNop (w : Word) : Bool := w.extractLsb' 4 12 = 0x3AF || w.extractLsb' 4 12 = 0x3BF

/-- The address a program word is put at: the pc, or 0000H where the pc is outside the ROM; 0001H for a STOP or HALT
that would otherwise stand at 0000H with no word before it (log 3). -/
def placeAddr (s : State) (w : Word) : ProgAddr :=
  if needsNop w ∧ (s.pc = 0 ∨ 0x300 ≤ s.pc.toNat) then 1
  else if s.pc.toNat < 0x300 then s.pc
  else 0

/-- `s` with the word `w` as the next instruction of a running CPU that accepts no interrupt first, and a NOP before it
where it needs one (log 3). -/
def placeWord (s : State) (w : Word) : State :=
  let a := placeAddr s w
  let before := if needsNop w then romStore s.rom (a - 1) 0x3CF0 else s.rom
  { s with
    rom := romStore before a w
    pc := a
    standby := .running
    eiHold := s.eiHold || (acceptedSource s).isSome
    schedule := cpuNext s.schedule }

end Sys2Proof.Machine
end

