-- ==== Sys2Proof/Machine/Step.lean ====
section
/-! DEFINITION. One step of the machine, and a program word put where the next step fetches. -/

namespace Sys2Proof.Machine

/-- One step: one agent's move (60_exceptions.md R341), or one instruction fetched, decoded and executed
(30_encoding.md R120, R130). A word that is no instruction is refused (R132; log 13). -/
def step (s : State) : Host.Outcome State Fault Refusal :=
  match boundary s with
  | .done t => .next t
  | .execute t =>
    match decode (fetchWord t) with
    | .ok i => exec i t
    | .error _ => .refused (.undefinedWord (fetchWord t))

/-- `s` with the table's word `w` of `nbits` bits as its next instruction (log 3). -/
def State.withFetchWord (s : State) (nbits w : Nat) : State := placeWord s (tableWord nbits w)

end Sys2Proof.Machine
end

