-- ==== Sys2Proof/WellFormed.lean ====
section
/-! DEFINITION. Which instructions are well formed. Every operand field is typed at its encoded width, so all
that is left to check are the operand bits the spec fixes to 0 (46_interrupt_other.md R247, R248). -/

namespace Sys2Proof

/-- A STOP release condition: b2, b1, b0 are fixed 0 (R247). -/
def legalStop (s : Nibble) : Bool :=
  !s.getLsbD 2 && !s.getLsbD 1 && !s.getLsbD 0

/-- A HALT release condition: b2 and b0 are fixed 0 (R248). -/
def legalHalt (h : Nibble) : Bool :=
  !h.getLsbD 2 && !h.getLsbD 0

/-- The operands respect the fixed-0 bits of STOP and HALT. -/
def Instr.wellFormed (i : Instr) : Bool :=
  match i with
  | .stop s => legalStop s
  | .halt h => legalHalt h
  | .addReg .. | .addImm .. | .addcReg .. | .addcImm .. | .incAr | .incIx
  | .subReg .. | .subImm .. | .subcReg .. | .subcImm ..
  | .orReg .. | .orImm .. | .andReg .. | .andImm .. | .xorReg .. | .xorImm ..
  | .skt .. | .skf .. | .ske .. | .skne .. | .skge .. | .sklt .. | .rorc ..
  | .ld .. | .st .. | .movToInd .. | .movFromInd .. | .movImm .. | .movt | .push | .pop
  | .peek .. | .poke .. | .get .. | .put .. | .br .. | .brAr | .call .. | .callAr
  | .ret | .retsk | .reti | .ei | .di | .nop => true

end Sys2Proof
end

