-- ==== Sys2Proof/Safety.lean ====
section
/-! DEFINITION. The terms claims are stated in: the stored contents of a data-memory address, what a step leaves
alone, and the invariant of the machine's states. The machine has no faults, so a safe run is one in which no step
is refused. -/

namespace Sys2Proof.Machine

/-- The nibble stored at a data-memory address: for a port its output latch, for the empty area and the hard-wired
registers 0 (10_state.md R28, R32, R70). It differs from `memRead`, which may read pins. -/
def stored (s : State) (a : Addr) : Nibble :=
  match dmPlace a with
  | .ram n => ramRead s.ram n
  | .empty => 0
  | .portE => s.ports.latchE.setWidth 4
  | .portA => s.ports.latchA
  | .portB => s.ports.latchB
  | .portC => s.ports.latchC
  | .portD => s.ports.latchD
  | .ar3 => 0
  | .ar2 => (arHigh s.ar).setWidth 4
  | .ar1 => arMiddle s.ar
  | .ar0 => arLow s.ar
  | .wr => s.wr
  | .bank => 0
  | .ixh => nibbleOf s.mpe false false false
  | .ixm => (rowOf s.ix).setWidth 4
  | .ixl => colOf s.ix
  | .rph => 0
  | .rpl => rplOf s.rp s.psw.bcd
  | .psw => nibbleOf s.psw.cmp s.psw.cy s.psw.z s.psw.ixe

/-- The bits of a data-memory address that hold what is written to them (10_state.md R28, R32, R40). -/
def writableBits (a : Addr) : Nibble :=
  let n := a.toNat
  if n < 0x40 then 0xF
  else if n < 0x6F then 0
  else match n with
    | 0x6F => 0b0011
    | 0x74 => 0
    | 0x75 => 0b0011
    | 0x79 => 0
    | 0x7A => 0b1000
    | 0x7B => 0b0111
    | 0x7D => 0
    | _ => 0xF

/-- The data memory outside `touched` is unchanged: what is stored there, and what any operand read of the step
gives there. -/
def KeepsData (s t : State) (touched : List Addr) : Prop :=
  ∀ a, a ∉ touched → stored t a = stored s a ∧ ∀ k, memRead t k a = memRead s k a

/-- `s` with its pc and its data memory blanked: what is left is everything an instruction that only writes data
memory must keep. -/
def State.outsideData (s : State) : State :=
  { s with
    pc := 0
    ram := []
    ar := 0
    wr := 0
    ix := 0
    mpe := false
    rp := 0
    psw := Psw.clear
    ports := { s.ports with latchA := 0, latchB := 0, latchC := 0, latchD := 0, latchE := 0 } }

/-- Program memory, stack, interrupt flags, control registers, timer, serial interface, port modes, pins and standby
state are unchanged. -/
def KeepsOutside (s t : State) : Prop := t.outsideData = s.outsideData

/-! ## The opcode table (30_encoding.md R129) -/

/-- One row: a word is the instruction where its bits under `mask` are `pattern`. -/
structure OpcodeRow where
  mask    : Word
  pattern : Word
  instr   : Word → Instr

/-- The operand in `w[3:0]` (30_encoding.md R121). -/
def lowNibbleOf (w : Word) : Nibble := w.extractLsb' 0 4

/-- The operand `m` in `w[10:4]` (30_encoding.md R123). -/
def addressOf (w : Word) : Addr := w.extractLsb' 4 7

/-- The operands `rf` and `p`, row in `w[10:8]` and column in `w[3:0]` (30_encoding.md R124). -/
def splitAddressOf (w : Word) : Addr := w.extractLsb' 8 3 ++ w.extractLsb' 0 4

/-- Rows 1 to 16: arithmetic and logic. -/
def arithmeticRows : List OpcodeRow :=
  [
    { mask := 0xF800, pattern := 0x0000, instr := fun w => .addReg (lowNibbleOf w) (addressOf w) },
    { mask := 0xF800, pattern := 0x8000, instr := fun w => .addImm (addressOf w) (lowNibbleOf w) },
    { mask := 0xF800, pattern := 0x1000, instr := fun w => .addcReg (lowNibbleOf w) (addressOf w) },
    { mask := 0xF800, pattern := 0x9000, instr := fun w => .addcImm (addressOf w) (lowNibbleOf w) },
    { mask := 0xFFFF, pattern := 0x3890, instr := fun _ => .incAr },
    { mask := 0xFFFF, pattern := 0x3880, instr := fun _ => .incIx },
    { mask := 0xF800, pattern := 0x0800, instr := fun w => .subReg (lowNibbleOf w) (addressOf w) },
    { mask := 0xF800, pattern := 0x8800, instr := fun w => .subImm (addressOf w) (lowNibbleOf w) },
    { mask := 0xF800, pattern := 0x1800, instr := fun w => .subcReg (lowNibbleOf w) (addressOf w) },
    { mask := 0xF800, pattern := 0x9800, instr := fun w => .subcImm (addressOf w) (lowNibbleOf w) },
    { mask := 0xF800, pattern := 0x3000, instr := fun w => .orReg (lowNibbleOf w) (addressOf w) },
    { mask := 0xF800, pattern := 0xB000, instr := fun w => .orImm (addressOf w) (lowNibbleOf w) },
    { mask := 0xF800, pattern := 0x2000, instr := fun w => .andReg (lowNibbleOf w) (addressOf w) },
    { mask := 0xF800, pattern := 0xA000, instr := fun w => .andImm (addressOf w) (lowNibbleOf w) },
    { mask := 0xF800, pattern := 0x2800, instr := fun w => .xorReg (lowNibbleOf w) (addressOf w) },
    { mask := 0xF800, pattern := 0xA800, instr := fun w => .xorImm (addressOf w) (lowNibbleOf w) }
  ]

/-- Rows 17 to 28: judge, compare, rotate and the plain transfers. -/
def judgeRows : List OpcodeRow :=
  [
    { mask := 0xF800, pattern := 0xF000, instr := fun w => .skt (addressOf w) (lowNibbleOf w) },
    { mask := 0xF800, pattern := 0xF800, instr := fun w => .skf (addressOf w) (lowNibbleOf w) },
    { mask := 0xF800, pattern := 0x4800, instr := fun w => .ske (addressOf w) (lowNibbleOf w) },
    { mask := 0xF800, pattern := 0x5800, instr := fun w => .skne (addressOf w) (lowNibbleOf w) },
    { mask := 0xF800, pattern := 0xC800, instr := fun w => .skge (addressOf w) (lowNibbleOf w) },
    { mask := 0xF800, pattern := 0xD800, instr := fun w => .sklt (addressOf w) (lowNibbleOf w) },
    { mask := 0xFFF0, pattern := 0x3870, instr := fun w => .rorc (lowNibbleOf w) },
    { mask := 0xF800, pattern := 0x4000, instr := fun w => .ld (lowNibbleOf w) (addressOf w) },
    { mask := 0xF800, pattern := 0xC000, instr := fun w => .st (addressOf w) (lowNibbleOf w) },
    { mask := 0xF800, pattern := 0x5000, instr := fun w => .movToInd (lowNibbleOf w) (addressOf w) },
    { mask := 0xF800, pattern := 0xD000, instr := fun w => .movFromInd (addressOf w) (lowNibbleOf w) },
    { mask := 0xF800, pattern := 0xE800, instr := fun w => .movImm (addressOf w) (lowNibbleOf w) }
  ]

/-- Rows 29 to 35: table reference, stack and register transfers. -/
def transferRows : List OpcodeRow :=
  [
    { mask := 0xFFFF, pattern := 0x3810, instr := fun _ => .movt },
    { mask := 0xFFFF, pattern := 0x38D0, instr := fun _ => .push },
    { mask := 0xFFFF, pattern := 0x38C0, instr := fun _ => .pop },
    { mask := 0xF8F0, pattern := 0x3830, instr := fun w => .peek (splitAddressOf w) },
    { mask := 0xF8F0, pattern := 0x3820, instr := fun w => .poke (splitAddressOf w) },
    { mask := 0xF8F0, pattern := 0x38B0, instr := fun w => .get (splitAddressOf w) },
    { mask := 0xF8F0, pattern := 0x38A0, instr := fun w => .put (splitAddressOf w) }
  ]

/-- Rows 36 to 47: branches, subroutines, interrupts and standby. -/
def controlRows : List OpcodeRow :=
  [
    { mask := 0xFC00, pattern := 0x6000, instr := fun w => .br (w.extractLsb' 0 10) },
    { mask := 0xFFFF, pattern := 0x3840, instr := fun _ => .brAr },
    { mask := 0xFC00, pattern := 0xE000, instr := fun w => .call (w.extractLsb' 0 10) },
    { mask := 0xFFFF, pattern := 0x3850, instr := fun _ => .callAr },
    { mask := 0xFFFF, pattern := 0x38E0, instr := fun _ => .ret },
    { mask := 0xFFFF, pattern := 0x39E0, instr := fun _ => .retsk },
    { mask := 0xFFFF, pattern := 0x3CE0, instr := fun _ => .reti },
    { mask := 0xFFFF, pattern := 0x38F0, instr := fun _ => .ei },
    { mask := 0xFFFF, pattern := 0x39F0, instr := fun _ => .di },
    { mask := 0xFFF0, pattern := 0x3AF0, instr := fun w => .stop (lowNibbleOf w) },
    { mask := 0xFFF0, pattern := 0x3BF0, instr := fun w => .halt (lowNibbleOf w) },
    { mask := 0xFFFF, pattern := 0x3CF0, instr := fun _ => .nop }
  ]

/-- The 47 rows, `match` and `mask` as R129 gives them. -/
def opcodeRows : List OpcodeRow := arithmeticRows ++ judgeRows ++ transferRows ++ controlRows

/-- The words under `mask` and `pattern` are exactly those that decode to `i`, its operands read from the word. -/
def Encodes (mask pattern : Word) (i : Word → Instr) : Prop :=
  ∀ w, w &&& mask = pattern ↔ decode w = .ok (i w)

/-! ## The ends of instructions -/

/-- `v` is written to the data-memory address `a`, nothing else changes, and the pc goes to the next address. -/
def WritesOnly (s t : State) (a : Addr) (v : Nibble) : Prop :=
  stored t a = v &&& writableBits a ∧ KeepsData s t [a] ∧ KeepsOutside s t ∧ t.pc = s.pc + 1

/-- The end of ADD, ADDC, SUB, SUBC with the result `res` and the carry or borrow `cy` (40_add_sub.md R162): stored
with CMP = 0; only the flags with CMP = 1. -/
def ArithmeticEnds (s t : State) (dst : Addr) (res : Nibble) (cy : Bool) : Prop :=
  t.pc = s.pc + 1 ∧ KeepsOutside s t ∧
    (s.psw.cmp = false →
      stored t dst = res &&& writableBits dst ∧
        stored t 0x7F = nibbleOf false cy (decide (res = 0)) s.psw.ixe ∧ KeepsData s t [dst, 0x7F]) ∧
    (s.psw.cmp = true →
      stored t 0x7F = nibbleOf true cy (s.psw.z && decide (res = 0)) s.psw.ixe ∧ KeepsData s t [0x7F])

/-- The state after a stack overflow or underflow (60_exceptions.md R270, 70_reset_and_hazards.md R367): what the
third column of table 18-1 sets and what it keeps (that the port modes are cleared is log 31). What it leaves
undefined is not said. -/
structure AfterStackReset (s t : State) : Prop where
  pc : t.pc = 0
  sp : t.sp = 5
  systemRegisters : t.ar = 0 ∧ t.ix = 0 ∧ t.mpe = false ∧ t.rp = 0 ∧ t.psw = Psw.clear
  inte : t.inte = false
  modulo : t.timer.tmm = 0xFF
  inputMode : t.ports.poabio = 0 ∧ t.ports.pobgio = false ∧ t.ports.pocbio = 0 ∧ t.ports.podbio = 0 ∧
    t.ports.poebio = 0
  keepsRequests : t.irq = s.irq ∧ t.irqTm = s.irqTm ∧ t.irqSio = s.irqSio
  keepsEnables : t.ip = s.ip ∧ t.ipTm = s.ipTm ∧ t.ipSio = s.ipSio
  keepsControl : t.iegmd = s.iegmd ∧ t.pdresen = s.pdresen ∧ t.timer.tmen = s.timer.tmen ∧
    t.timer.tmck = s.timer.tmck ∧ t.timer.tmosel = s.timer.tmosel
  keepsSerialMode : t.sio.sioen = s.sio.sioen ∧ t.sio.siots = s.sio.siots ∧ t.sio.siohiz = s.sio.siohiz ∧
    t.sio.siock = s.sio.siock
  keepsRest : t.rom = s.rom ∧ t.pins = s.pins ∧ t.standby = s.standby ∧ t.schedule = s.schedule

/-- Every field of table 18-1 that a reset of kind 1 or 2 and `STOP 0000B` give a value, but the pc (10_state.md R73,
70_reset_and_hazards.md R368, R369). -/
structure HasResetValues (t : State) : Prop where
  sp : t.sp = 5
  inte : t.inte = false
  systemRegisters : t.ar = 0 ∧ t.ix = 0 ∧ t.mpe = false ∧ t.rp = 0 ∧ t.psw = Psw.clear
  latches : t.ports.latchA = 0 ∧ t.ports.latchB = 0 ∧ t.ports.latchC = 0 ∧ t.ports.latchD = 0 ∧ t.ports.latchE = 0
  inputMode : t.ports.poabio = 0 ∧ t.ports.pobgio = false ∧ t.ports.pocbio = 0 ∧ t.ports.podbio = 0 ∧
    t.ports.poebio = 0
  timer : t.timer.tmen = true ∧ t.timer.tmck = 0 ∧ t.timer.tmosel = false ∧ t.timer.tmc = 0x00 ∧ t.timer.tmm = 0xFF
  serial : t.sio.sioen = false ∧ t.sio.siots = false ∧ t.sio.siohiz = false ∧ t.sio.siock = 0
  requests : t.irq = false ∧ t.irqTm = true ∧ t.irqSio = false
  enables : t.ip = false ∧ t.ipTm = false ∧ t.ipSio = false
  control : t.iegmd = 0 ∧ t.pdresen = false

/-- The outside holds POD line `n` at `v`: driven there, or undriven and pulled up (60_exceptions.md R317, 10_state.md
R72; log 7). -/
def State.podHeld (s : State) (n : Nat) (v : Bool) : Prop :=
  (s.pins.podDriven.getLsbD n = true ∧ v = s.pins.pod.getLsbD n) ∨
    (s.pins.podDriven.getLsbD n = false ∧ Config.pullUp.pod.getLsbD n = true ∧ v = true)

/-- The outside holds POE line `n` at `v`. -/
def State.poeHeld (s : State) (n : Nat) (v : Bool) : Prop :=
  (s.pins.poeDriven.getLsbD n = true ∧ v = s.pins.poe.getLsbD n) ∨
    (s.pins.poeDriven.getLsbD n = false ∧ Config.pullUp.poe.getLsbD n = true ∧ v = true)

/-- The pc, RAM and every register an instruction works on are unchanged (60_exceptions.md R345). -/
structure KeepsRegisters (s t : State) : Prop where
  pc : t.pc = s.pc
  ram : t.ram = s.ram
  systemRegisters : t.ar = s.ar ∧ t.wr = s.wr ∧ t.ix = s.ix ∧ t.mpe = s.mpe ∧ t.rp = s.rp ∧ t.psw = s.psw
  stack : t.sp = s.sp ∧ t.asr = s.asr ∧ t.intsk = s.intsk

/-- A clock edge reaches the shift register: a transfer is under way, and in STOP mode the clock is the external one
(60_exceptions.md R329, R332). -/
def State.shifts (s : State) : Prop :=
  s.sio.siots = true ∧
    (s.standby = .running ∨ (∃ h, s.standby = .halt h) ∨ (s.sio.siock = 0 ∧ ∃ c, s.standby = .stop c))

/-- The instructions `is` executed one after the other, with nothing between them. -/
def execAll : List Instr → State → Result
  | [], s => .next s
  | i :: is, s =>
    match exec i s with
    | .next t => execAll is t
    | .fault r => .fault r
    | .refused r => .refused r

/-! ## Turns -/

/-- The CPU moves next (log 16). -/
def State.cpuMoves (s : State) : Prop := s.schedule = [] ∨ s.schedule.head? = some .cpu

/-- `s` as the step that moves it sees it: the schedule's first event taken, the step counted (logs 5, 16). -/
def State.turn (s : State) : State := { s with schedule := s.schedule.tail, drawClock := s.drawClock + 1 }

/-- The request of source `x` is present and enabled (60_exceptions.md R276, R277). -/
def State.wants (s : State) (x : IntSource) : Bool :=
  match x with
  | .int => s.irq && s.ip
  | .timer => s.irqTm && s.ipTm
  | .serial => s.irqSio && s.ipSio

/-- Some source is requested and enabled. -/
def State.anyWants (s : State) : Bool := s.wants .int || s.wants .timer || s.wants .serial

/-- `x` is the source of highest priority among the requested and enabled ones (60_exceptions.md R276). -/
def State.firstWanted (s : State) (x : IntSource) : Bool :=
  match x with
  | .int => s.wants .int
  | .timer => s.wants .timer && !s.wants .int
  | .serial => s.wants .serial && !s.wants .timer && !s.wants .int

/-- The address execution continues at (60_exceptions.md R276). -/
def entryAddress (x : IntSource) : ProgAddr :=
  match x with
  | .int => 0x003
  | .timer => 0x002
  | .serial => 0x001

/-- `s` after the entry sequence for `x` (60_exceptions.md R281; clearing INTE is log 20's). -/
def entered (s : State) (x : IntSource) : State :=
  { s with
    pc := entryAddress x
    sp := s.sp - 1
    asr := s.asr.setIfInBounds (s.sp.toNat - 1) s.pc
    intsk := s.psw
    psw := Psw.clear
    inte := false
    irq := s.irq && decide (x ≠ .int)
    irqTm := s.irqTm && decide (x ≠ .timer)
    irqSio := s.irqSio && decide (x ≠ .serial) }

/-- A push has a free level (60_exceptions.md R271). -/
def State.canPush (s : State) : Prop := 1 ≤ s.sp.toNat ∧ s.sp.toNat ≤ 5

/-- The CPU moves next, runs and is at an acceptance point (60_exceptions.md R278; logs 16, 17, 18). -/
def State.acceptancePoint (s : State) : Prop := s.cpuMoves ∧ s.standby = .running ∧ s.eiHold = false

/-! ## The invariant -/

/-- The standby state names a release condition that the instructions accept (46_interrupt_other.md R247, R248). -/
def Standby.legal (m : Standby) : Bool :=
  match m with
  | .running => true
  | .halt h => legalHalt h
  | .stop c => legalStop c
  | .resetHeld => true
  | .oscWait => true

/-- The invariant: both memories are in their canonical form, the standby state is legal, acceptance is held only while
INTE = 1, and a serial transfer is under way only with SIOEN = 1 (93_implementation_defined.md U9). -/
def State.inv (s : State) : Bool :=
  Memory.wf romUnlisted 0xFF 0x600 s.rom && Memory.wf ramUnlisted 0x0F 0x40 s.ram &&
    s.standby.legal && (!s.eiHold || s.inte) && (!s.sio.siots || s.sio.sioen)

end Sys2Proof.Machine
end

