-- ==== Sys2Proof/Certificates/Slice0/Obligations.lean ====
section
/-! DEFINITION. The statements for the provers, from the numbered rules of spec/. Where one rests on a choice of the
model, its docstring names the log entry. -/

open Sys2Proof Sys2Proof.Machine

/-! ## Encoding (30_encoding.md) -/

/-- The table has 47 rows, and a word decodes to an instruction exactly where some row's match and mask accept the
word and the row, its operands read from the word, is that instruction. Rules: R129. -/
def Obligations.DecodeIsTheOpcodeTable : Prop :=
  opcodeRows.length = 47 ∧
    ∀ w i, decode w = .ok i ↔ ∃ row ∈ opcodeRows, w &&& row.mask = row.pattern ∧ row.instr w = i

/-- For every instruction, with every operand its fields admit, decode of encode is the instruction; and decoding the
word's two bytes followed by any bytes gives the instruction and leaves those bytes. The byte order is the model's
choice (log 3). Spec: 30_encoding.md section 2, 30_encoding.md section 3. -/
def Obligations.DecodeOfEncode : Prop :=
  ∀ (i : Instr) (rest : List Byte),
    decode (encode i) = .ok i ∧ decodeBytes (bytesOfWord (encode i) ++ rest) = .ok (i, rest)

/-- For every word that decodes to an instruction, encoding that instruction gives the word: no bit of an accepted
word is dropped. Spec: 30_encoding.md section 2, 30_encoding.md section 3. -/
def Obligations.EncodeOfDecode : Prop :=
  ∀ (w : Word) (i : Instr), decode w = .ok i → encode i = w

/-- A word is rejected exactly where its operation code is one of the four unassigned ones, or it is BR or CALL with
bit 10 set, or it is of group X with an unassigned sub-opcode or with f1 or f3 different from its row's constant. That
such a word is refused is the spec's decision (log 13). Spec: 30_encoding.md section 3. -/
def Obligations.UndefinedWordsAreThoseOfR132 : Prop :=
  ∀ w : Word, (∃ e, decode w = .error e) ↔
    let op : BitVec 5 := w.extractLsb' 11 5
    let f1 : BitVec 3 := w.extractLsb' 8 3
    let f2 : BitVec 4 := w.extractLsb' 4 4
    let f3 : BitVec 4 := w.extractLsb' 0 4
    op ∈ [0b01101, 0b01110, 0b01111, 0b10111] ∨
      (op ∈ [0b01100, 0b11100] ∧ w.getLsbD 10 = true) ∨
      (op = 0b00111 ∧
        (f2 ∈ [0b0000, 0b0110] ∨
          (f2 ∈ [0b0001, 0b0100, 0b0101, 0b1000, 0b1001, 0b1100, 0b1101] ∧ (f1 ≠ 0 ∨ f3 ≠ 0)) ∨
          (f2 = 0b0111 ∧ f1 ≠ 0) ∨
          (f2 = 0b1110 ∧ (f1 ∉ [0b000, 0b001, 0b100] ∨ f3 ≠ 0)) ∨
          (f2 = 0b1111 ∧ (f1 ∈ [0b101, 0b110, 0b111] ∨ (f1 ∈ [0b000, 0b001, 0b100] ∧ f3 ≠ 0)))))

/-- One or two printed words of every family of the table decode to the instruction the spec gives for them. Spec:
30_encoding.md section 3, 95_test_vectors.md. -/
def Obligations.SampleWordsDecode : Prop :=
  decode 0x0111 = .ok (.addReg 1 0x11) ∧ decode 0x3890 = .ok .incAr ∧ decode 0x3133 = .ok (.orReg 3 0x13) ∧
    decode 0xA6FD = .ok (.andImm 0x6F 0b1101) ∧ decode 0xFFFF = .ok (.skf 0x7F 0xF) ∧
    decode 0x5A13 = .ok (.skne 0x21 3) ∧ decode 0x3872 = .ok (.rorc 2) ∧ decode 0x5300 = .ok (.movToInd 0 0x30) ∧
    decode 0xEEFD = .ok (.movImm 0x6F 0b1101) ∧ decode 0x3B2E = .ok (.poke 0x3E) ∧
    decode 0x3CB0 = .ok (.get 0x40) ∧ decode 0xE008 = .ok (.call 0x008) ∧ decode 0x3BFA = .ok (.halt 0b1010) ∧
    decode 0x3AF8 = .ok (.stop 0b1000) ∧ decode 0x3CF0 = .ok .nop

/-! ## The step, the invariant and rules of the whole machine -/

/-- Where the CPU moves next, is running and has no interrupt to accept, a step is the meaning of the decoded
instruction in the state with the turn taken (the schedule's head consumed, the step counted: logs 5 and 16) and the
hold EI put on acceptance ended (log 18); where the word is no instruction the step refuses that word (log 13). Spec:
30_encoding.md section 1, 30_encoding.md section 3, 60_exceptions.md section 2. -/
def Obligations.StepRunsDecodedInstruction : Prop :=
  ∀ s : State, s.cpuMoves → s.standby = .running → (s.inte && !s.eiHold && s.anyWants) = false →
    (∀ i, decode (romWord s.rom s.pc) = .ok i → step s = exec i { s.turn with eiHold := false }) ∧
      (∀ e, decode (romWord s.rom s.pc) = .error e → step s = .refused (.undefinedWord (romWord s.rom s.pc)))

/-- Where the schedule's head is not the CPU, the step applies that event to the state with the turn taken, whatever
the CPU is doing. The schedule is the model's own (log 16). Spec: 60_exceptions.md section 7, 92_eei_decisions.md D22.
-/
def Obligations.StepTakesScheduledEvents : Prop :=
  ∀ (s : State) (e : Event) (rest : List Event), s.schedule = e :: rest → e ≠ .cpu →
    step s = .next (applyEvent e s.turn)

/-- From every state that meets the invariant (program memory and RAM in their canonical form, within their sizes and
cell widths; a standby state whose release condition has its fixed-0 bits 0; acceptance held only while INTE = 1;
SIOTS = 1 only with SIOEN = 1), a step that answers a next state gives one that meets it. The canonical forms and the
EI hold are the model's own (logs 1, 3, 18); that no POKE breaks the last clause is the spec's decision to refuse it
(log 15). Spec: 20_memory.md section 1, 46_interrupt_other.md, 60_exceptions.md section 8. -/
def Obligations.EveryStepKeepsTheInvariant : Prop :=
  ∀ s t : State, s.inv = true → step s = .next t → t.inv = true

/-- State.reset meets the invariant that every step keeps; what it holds where the spec gives no value is the model's
choice (logs 1, 2). Spec: 70_reset_and_hazards.md section 1. -/
def Obligations.ResetMeetsTheInvariant : Prop :=
  State.reset.inv = true

/-- Whatever the step is, an instruction, an interrupt entry, a reset or a device event, program memory is the same
after it. Spec: 20_memory.md section 7, 10_state.md section 2. -/
def Obligations.ProgramMemoryIsNeverWritten : Prop :=
  ∀ s t : State, step s = .next t → t.rom = s.rom

/-- No step faults. A refused step is of a running CPU whose turn it is, and the word at the pc is no instruction, or
it is a STOP or HALT whose operand sets a fixed-0 bit, or one that does not follow a NOP, or it is ADD, ADDC, SUB,
SUBC or RORC whose destination is 7FH, or it is ADD, ADDC, SUB or SUBC with BCD = 1 and an operand above 9, or a PUT
to SIOSFR with SIOTS = 1, or a POKE that changes SIOEN, SIOHIZ or SIOCK with SIOTS = 1 or sets SIOTS with SIOEN = 0.
The refusals are the spec's decisions (logs 8, 10, 11, 12, 13, 15). That no step faults is the model's choice: a stack
overflow or underflow, which the spec calls a fault for proofs, goes on as a reset (log 14). With IXE = 1 the address
of m is the open parameter's (log 9). Spec: 30_encoding.md section 3, 40_add_sub.md section 1, 43_rotate.md,
44_transfer.md section 5, 46_interrupt_other.md, 60_exceptions.md section 6, 70_reset_and_hazards.md section 3,
93_implementation_defined.md. -/
def Obligations.StepStopsOnlyForNamedReasons : Prop :=
  ∀ s : State, (∀ f, step s ≠ .fault f) ∧ ∀ r, step s = .refused r →
    s.cpuMoves ∧ s.standby = .running ∧
      ((r = .undefinedWord (romWord s.rom s.pc) ∧ ∃ e, decode (romWord s.rom s.pc) = .error e) ∨
        (∃ c, r = .standbyOperand c ∧
          ((decode (romWord s.rom s.pc) = .ok (.stop c) ∧ legalStop c = false) ∨
            (decode (romWord s.rom s.pc) = .ok (.halt c) ∧ legalHalt c = false))) ∨
        (r = .noNopBefore ∧ romWord s.rom (s.pc - 1) ≠ 0x3CF0 ∧
          ∃ c, decode (romWord s.rom s.pc) = .ok (.stop c) ∨ decode (romWord s.rom s.pc) = .ok (.halt c)) ∨
        (r = .flagDestination ∧ ∃ i, decode (romWord s.rom s.pc) = .ok i ∧
          ((∃ g m, rowCol s.rp g = 0x7F ∧
              i ∈ [Instr.addReg g m, Instr.addcReg g m, Instr.subReg g m, Instr.subcReg g m, Instr.rorc g]) ∨
            ∃ m n, ea s m = 0x7F ∧ i ∈ [Instr.addImm m n, Instr.addcImm m n, Instr.subImm m n, Instr.subcImm m n])) ∨
        (r = .decimalOperand ∧ s.psw.bcd = true ∧ ∃ i, decode (romWord s.rom s.pc) = .ok i ∧
          ((∃ g m, i ∈ [Instr.addReg g m, Instr.addcReg g m, Instr.subReg g m, Instr.subcReg g m] ∧
              (9 < (memRead s.turn 0 (rowCol s.rp g)).toNat ∨ 9 < (memRead s.turn 1 (ea s m)).toNat)) ∨
            ∃ m n, i ∈ [Instr.addImm m n, Instr.addcImm m n, Instr.subImm m n, Instr.subcImm m n] ∧
              (9 < (memRead s.turn 0 (ea s m)).toNat ∨ 9 < n.toNat))) ∨
        (r = .serialDisturbed ∧
          ((decode (romWord s.rom s.pc) = .ok (.put 0x01) ∧ s.sio.siots = true) ∨
            (decode (romWord s.rom s.pc) = .ok (.poke 0x0A) ∧ s.sio.siots = true ∧ s.wr.getLsbD 0 ≠ s.sio.sioen) ∨
            (decode (romWord s.rom s.pc) = .ok (.poke 0x1A) ∧
              ((s.sio.siots = true ∧ (s.wr.getLsbD 2 ≠ s.sio.siohiz ∨ s.wr.extractLsb' 0 2 ≠ s.sio.siock)) ∨
                (s.wr.getLsbD 3 = true ∧ s.sio.sioen = false))))))

/-- If INTE is 0 before a step and 1 after it, the step was the CPU's, running, and the word at the pc decodes to EI.
RETI and every device event leave INTE 0 (log 20). Spec: 10_state.md section 7, 46_interrupt_other.md,
60_exceptions.md section 2. -/
def Obligations.InteIsRaisedOnlyByEi : Prop :=
  ∀ s t : State, step s = .next t → s.inte = false → t.inte = true →
    s.cpuMoves ∧ s.standby = .running ∧ decode (romWord s.rom s.pc) = .ok .ei

/-- A step in HALT or STOP mode keeps the mode, the pc, RAM, AR, WR, IX, MPE, RP, PSW, SP, ASR and INTSK, or releases
the mode on the CPU's turn with its release condition met and all of those kept, or is the assertion of a reset. That
a release is a step of its own is log 17. Spec: 60_exceptions.md section 8. -/
def Obligations.StandbyIsLeftOnlyByReleaseOrReset : Prop :=
  ∀ s t : State, step s = .next t →
    (∀ h, s.standby = .halt h →
      (t.standby = .halt h ∧ KeepsRegisters s t) ∨
        (t.standby = .running ∧ KeepsRegisters s t ∧ s.cpuMoves ∧
          ((h.getLsbD 3 = true ∧ s.anyWants = true) ∨ (h.getLsbD 1 = true ∧ s.irqTm = true))) ∨
        (t.standby = .resetHeld ∧ ∃ c, s.schedule.head? = some (.resetAssert c))) ∧
      ∀ c, s.standby = .stop c →
        (t.standby = .stop c ∧ KeepsRegisters s t) ∨
          (t.standby = .running ∧ KeepsRegisters s t ∧ s.cpuMoves ∧ c.getLsbD 3 = true ∧
            (s.wants .int || s.wants .serial) = true) ∨
          (t.standby = .resetHeld ∧ ∃ c, s.schedule.head? = some (.resetAssert c))

/-- At every address of RAM and of the system registers an operand read gives the stored nibble, at any operand
position; and wherever something stands (all but 40H to 6EH), bits that ignore writes read 0, so AR3, BANK and RPH
read 0 in every state. That fixed-0 bits read 0 is the spec's decision (log 35), and which bits of 75H, 7AH and 7BH
are fixed is its decision too (log 23). Spec: 20_memory.md section 3, 10_state.md section 4. -/
def Obligations.ReadsGiveWhatIsStored : Prop :=
  ∀ (s : State) (k : Nat) (a : Addr),
    (a.toNat < 0x40 ∨ 0x74 ≤ a.toNat → memRead s k a = stored s a) ∧
      (a.toNat < 0x40 ∨ 0x6F ≤ a.toNat → memRead s k a &&& ~~~(writableBits a) = 0)

/-! ## Addition and subtraction (40_add_sub.md) -/

/-- ADD r, m and ADDC r, m complete from every state in which the destination is not 7FH and, with BCD = 1, both
operands are decimal digits: in binary the result and 16 times the carry are the integer sum of the register, the
operand and the carry in; CY and Z, the store under CMP, and everything else unchanged. With BCD = 1 the result is the
open parameter's, and an operand above 9 is refused (the spec's decision, log 8); the CMP and Z rule is the spec's
decision (log 21); that fixed-0 bits ignore the store, and which they are, too (logs 23, 35); destination 7FH is
refused (the spec's decision, log 10); with IXE = 1 the operand address is the open parameter's (log 9). Spec:
40_add_sub.md section 1, 40_add_sub.md section 2. -/
def Obligations.AddToGeneralRegister : Prop :=
  ∀ (r : Nibble) (m : Addr) (s : State), ∀ p ∈ [(Instr.addReg r m, false), (Instr.addcReg r m, s.psw.cy)],
    let a := memRead s 0 (rowCol s.rp r)
    let b := memRead s 1 (ea s m)
    let illegal : Prop := s.psw.bcd = true ∧ (9 < a.toNat ∨ 9 < b.toNat)
    (rowCol s.rp r = 0x7F → exec p.1 s = .refused .flagDestination) ∧
      (rowCol s.rp r ≠ 0x7F → illegal → exec p.1 s = .refused .decimalOperand) ∧
      (rowCol s.rp r ≠ 0x7F → ¬ illegal → ∃ t res cy, exec p.1 s = .next t ∧
        (s.psw.bcd = false → res.toNat + 16 * cy.toNat = a.toNat + b.toNat + p.2.toNat) ∧
        (s.psw.bcd = true → (res, cy) = Config.bcdAdd a b p.2) ∧
        ArithmeticEnds s t (rowCol s.rp r) res cy)

/-- ADD m, #n4 and ADDC m, #n4 complete from every state in which the destination is not 7FH and, with BCD = 1, both
operands are decimal digits: in binary the result and 16 times the carry are the integer sum of the operand, the
immediate and the carry in; CY and Z, the store under CMP, and everything else unchanged. With BCD = 1 the result is
the open parameter's, and an operand above 9 is refused (the spec's decision, log 8); the CMP and Z rule is the spec's
decision (log 21); that fixed-0 bits ignore the store, and which they are, too (logs 23, 35); destination 7FH is
refused (the spec's decision, log 10); with IXE = 1 the operand address is the open parameter's (log 9). Spec:
40_add_sub.md section 1, 40_add_sub.md section 2. -/
def Obligations.AddToDataMemory : Prop :=
  ∀ (m : Addr) (n : Nibble) (s : State), ∀ p ∈ [(Instr.addImm m n, false), (Instr.addcImm m n, s.psw.cy)],
    let a := memRead s 0 (ea s m)
    let illegal : Prop := s.psw.bcd = true ∧ (9 < a.toNat ∨ 9 < n.toNat)
    (ea s m = 0x7F → exec p.1 s = .refused .flagDestination) ∧
      (ea s m ≠ 0x7F → illegal → exec p.1 s = .refused .decimalOperand) ∧
      (ea s m ≠ 0x7F → ¬ illegal → ∃ t res cy, exec p.1 s = .next t ∧
        (s.psw.bcd = false → res.toNat + 16 * cy.toNat = a.toNat + n.toNat + p.2.toNat) ∧
        (s.psw.bcd = true → (res, cy) = Config.bcdAdd a n p.2) ∧
        ArithmeticEnds s t (ea s m) res cy)

/-- SUB r, m and SUBC r, m complete from every state in which the destination is not 7FH and, with BCD = 1, both
operands are decimal digits: in binary the result less 16 times the borrow is the integer difference; CY holds the
borrow; Z, the store under CMP, and everything else unchanged. With BCD = 1 the result is the open parameter's, and an
operand above 9 is refused (the spec's decision, log 8); the CMP and Z rule is the spec's decision (log 21); that
fixed-0 bits ignore the store, and which they are, too (logs 23, 35); destination 7FH is refused (the spec's decision,
log 10); with IXE = 1 the operand address is the open parameter's (log 9). Spec: 40_add_sub.md section 1,
40_add_sub.md section 2. -/
def Obligations.SubtractFromGeneralRegister : Prop :=
  ∀ (r : Nibble) (m : Addr) (s : State), ∀ p ∈ [(Instr.subReg r m, false), (Instr.subcReg r m, s.psw.cy)],
    let a := memRead s 0 (rowCol s.rp r)
    let b := memRead s 1 (ea s m)
    let illegal : Prop := s.psw.bcd = true ∧ (9 < a.toNat ∨ 9 < b.toNat)
    (rowCol s.rp r = 0x7F → exec p.1 s = .refused .flagDestination) ∧
      (rowCol s.rp r ≠ 0x7F → illegal → exec p.1 s = .refused .decimalOperand) ∧
      (rowCol s.rp r ≠ 0x7F → ¬ illegal → ∃ t res cy, exec p.1 s = .next t ∧
        (s.psw.bcd = false → (res.toNat : Int) - 16 * cy.toNat = a.toNat - b.toNat - p.2.toNat) ∧
        (s.psw.bcd = true → (res, cy) = Config.bcdSub a b p.2) ∧
        ArithmeticEnds s t (rowCol s.rp r) res cy)

/-- SUB m, #n4 and SUBC m, #n4 complete from every state in which the destination is not 7FH and, with BCD = 1, both
operands are decimal digits: in binary the result less 16 times the borrow is the integer difference; CY holds the
borrow; Z, the store under CMP, and everything else unchanged. With BCD = 1 the result is the open parameter's, and an
operand above 9 is refused (the spec's decision, log 8); the CMP and Z rule is the spec's decision (log 21); that
fixed-0 bits ignore the store, and which they are, too (logs 23, 35); destination 7FH is refused (the spec's decision,
log 10); with IXE = 1 the operand address is the open parameter's (log 9). Spec: 40_add_sub.md section 1,
40_add_sub.md section 2. -/
def Obligations.SubtractFromDataMemory : Prop :=
  ∀ (m : Addr) (n : Nibble) (s : State), ∀ p ∈ [(Instr.subImm m n, false), (Instr.subcImm m n, s.psw.cy)],
    let a := memRead s 0 (ea s m)
    let illegal : Prop := s.psw.bcd = true ∧ (9 < a.toNat ∨ 9 < n.toNat)
    (ea s m = 0x7F → exec p.1 s = .refused .flagDestination) ∧
      (ea s m ≠ 0x7F → illegal → exec p.1 s = .refused .decimalOperand) ∧
      (ea s m ≠ 0x7F → ¬ illegal → ∃ t res cy, exec p.1 s = .next t ∧
        (s.psw.bcd = false → (res.toNat : Int) - 16 * cy.toNat = a.toNat - n.toNat - p.2.toNat) ∧
        (s.psw.bcd = true → (res, cy) = Config.bcdSub a n p.2) ∧
        ArithmeticEnds s t (ea s m) res cy)

/-- INC AR and INC IX complete from every state; the register wraps in its width (the spec's decisions, log 23), the
pc goes to the next address and no flag, no memory and no other register changes (log 22). Spec: 40_add_sub.md section
2. -/
def Obligations.IncrementsCountInTheirWidths : Prop :=
  ∀ s : State,
    exec .incAr s = .next { s with ar := s.ar + 1, pc := s.pc + 1 } ∧
      exec .incIx s = .next { s with ix := s.ix + 1, pc := s.pc + 1 }

/-! ## Logic (41_logic.md) -/

/-- The words of the six logical instructions are those of their rules; each completes from every state, its bitwise
result goes to the destination (fixed-0 bits staying 0), and nothing else changes, no flag but by being part of the
destination. That the result is stored and no flag written whatever CMP is, is the spec's decision (log 22), and so is
that fixed-0 bits ignore the store, and which they are (logs 23, 35). With IXE = 1 the address of m is the open
parameter's (the model's choice, log 9). Spec: 41_logic.md. -/
def Obligations.LogicIsBitwiseAndAlwaysStored : Prop :=
  (Encodes 0xF800 0x3000 (fun w => .orReg (lowNibbleOf w) (addressOf w)) ∧
    Encodes 0xF800 0xB000 (fun w => .orImm (addressOf w) (lowNibbleOf w)) ∧
    Encodes 0xF800 0x2000 (fun w => .andReg (lowNibbleOf w) (addressOf w)) ∧
    Encodes 0xF800 0xA000 (fun w => .andImm (addressOf w) (lowNibbleOf w)) ∧
    Encodes 0xF800 0x2800 (fun w => .xorReg (lowNibbleOf w) (addressOf w)) ∧
    Encodes 0xF800 0xA800 (fun w => .xorImm (addressOf w) (lowNibbleOf w))) ∧
  ∀ (r : Nibble) (m : Addr) (n : Nibble) (s : State),
    let a := memRead s 0 (rowCol s.rp r)
    let b := memRead s 1 (ea s m)
    let v := memRead s 0 (ea s m)
    (∃ t, exec (.orReg r m) s = .next t ∧ WritesOnly s t (rowCol s.rp r) (a ||| b)) ∧
      (∃ t, exec (.orImm m n) s = .next t ∧ WritesOnly s t (ea s m) (v ||| n)) ∧
      (∃ t, exec (.andReg r m) s = .next t ∧ WritesOnly s t (rowCol s.rp r) (a &&& b)) ∧
      (∃ t, exec (.andImm m n) s = .next t ∧ WritesOnly s t (ea s m) (v &&& n)) ∧
      (∃ t, exec (.xorReg r m) s = .next t ∧ WritesOnly s t (rowCol s.rp r) (a ^^^ b)) ∧
      (∃ t, exec (.xorImm m n) s = .next t ∧ WritesOnly s t (ea s m) (v ^^^ n))

/-! ## Judge and compare (42_judge_compare.md) -/

/-- The words of SKT and SKF are those of their rules; each completes from every state, clears CMP, skips exactly when
all bits the mask selects are 1 (SKT) or 0 (SKF) in the nibble read before CMP is cleared, and changes nothing else.
That a skip moves the pc by 2 and that the nibble is read first are the spec's decisions (logs 25, 36). With IXE = 1
the address of m is the open parameter's (log 9). Spec: 42_judge_compare.md section 1, 30_encoding.md section 3. -/
def Obligations.JudgeClearsCmpAndSkips : Prop :=
  (Encodes 0xF800 0xF000 (fun w => .skt (addressOf w) (lowNibbleOf w)) ∧
    Encodes 0xF800 0xF800 (fun w => .skf (addressOf w) (lowNibbleOf w))) ∧
  ∀ (m : Addr) (n : Nibble) (s : State),
    let v := memRead s 0 (ea s m)
    exec (.skt m n) s = .next { s with
        psw := { s.psw with cmp := false }
        pc := if v &&& n = n then s.pc + 2 else s.pc + 1 } ∧
      exec (.skf m n) s = .next { s with
        psw := { s.psw with cmp := false }
        pc := if v &&& n = 0 then s.pc + 2 else s.pc + 1 }

/-- The words of the four comparisons are those of their rules; each completes from every state, skips exactly when
the nibble read is equal to, different from, not below or below the immediate, unsigned, and changes nothing but the
pc. That no flag is written and that a skip moves the pc by 2 are the spec's decisions (logs 22, 25). With IXE = 1 the
address of m is the open parameter's (log 9). Spec: 42_judge_compare.md section 2, 30_encoding.md section 3. -/
def Obligations.CompareSkipsAndWritesNothing : Prop :=
  (Encodes 0xF800 0x4800 (fun w => .ske (addressOf w) (lowNibbleOf w)) ∧
    Encodes 0xF800 0x5800 (fun w => .skne (addressOf w) (lowNibbleOf w)) ∧
    Encodes 0xF800 0xC800 (fun w => .skge (addressOf w) (lowNibbleOf w)) ∧
    Encodes 0xF800 0xD800 (fun w => .sklt (addressOf w) (lowNibbleOf w))) ∧
  ∀ (m : Addr) (n : Nibble) (s : State),
    let v := memRead s 0 (ea s m)
    exec (.ske m n) s = .next { s with pc := if v = n then s.pc + 2 else s.pc + 1 } ∧
      exec (.skne m n) s = .next { s with pc := if v = n then s.pc + 1 else s.pc + 2 } ∧
      exec (.skge m n) s = .next { s with pc := if n.toNat ≤ v.toNat then s.pc + 2 else s.pc + 1 } ∧
      exec (.sklt m n) s = .next { s with pc := if v.toNat < n.toNat then s.pc + 2 else s.pc + 1 }

/-! ## Rotate (43_rotate.md) -/

/-- RORC completes from every state in which the register is not 7FH: the register becomes old CY and its three upper
bits, CY its old bit 0, and nothing else changes, whatever CMP is (the spec's decision, log 22; that fixed-0 bits
ignore the store, and which they are, are logs 35 and 23). Rotating 7FH is refused (the spec's decision, log 10).
Spec: 43_rotate.md. -/
def Obligations.RorcRotatesThroughCarry : Prop :=
  ∀ (r : Nibble) (s : State),
    let dst := rowCol s.rp r
    let v := memRead s 0 dst
    (dst = 0x7F → exec (.rorc r) s = .refused .flagDestination) ∧
      (dst ≠ 0x7F → ∃ t, exec (.rorc r) s = .next t ∧ t.pc = s.pc + 1 ∧ KeepsOutside s t ∧
        stored t dst = nibbleOf s.psw.cy (v.getLsbD 3) (v.getLsbD 2) (v.getLsbD 1) &&& writableBits dst ∧
        stored t 0x7F = nibbleOf s.psw.cmp (v.getLsbD 0) s.psw.z s.psw.ixe ∧ KeepsData s t [dst, 0x7F])

/-- Where the general register lies in RAM, five successive RORC of it give back every flag and every nibble of data
memory, and only the pc has moved, by five. That Z stays is the spec's decision (log 22). Spec: 43_rotate.md. -/
def Obligations.FiveRotationsRestore : Prop :=
  ∀ (r : Nibble) (s : State), (rowCol s.rp r).toNat < 0x40 →
    ∃ t, execAll (List.replicate 5 (.rorc r)) s = .next t ∧ t.psw = s.psw ∧ KeepsData s t [] ∧ KeepsOutside s t ∧
      t.pc = s.pc + 5

/-! ## Transfers (44_transfer.md) -/

/-- The words of LD r, m, ST m, r and MOV m, #n4 are those of their rules; each completes from every state, the value
goes to the destination (fixed-0 bits staying 0, nothing at all where nothing is implemented), and nothing else
changes. That CMP does not bear on the store and no flag is written is the spec's decision (log 22), and so is that
fixed-0 bits ignore the store, and which they are (logs 23, 35). With IXE = 1 the address of m is the open parameter's
(the model's choice, log 9). Spec: 44_transfer.md section 1. -/
def Obligations.LoadStoreAndMoveImmediate : Prop :=
  (Encodes 0xF800 0x4000 (fun w => .ld (lowNibbleOf w) (addressOf w)) ∧
    Encodes 0xF800 0xC000 (fun w => .st (addressOf w) (lowNibbleOf w)) ∧
    Encodes 0xF800 0xE800 (fun w => .movImm (addressOf w) (lowNibbleOf w))) ∧
  ∀ (r : Nibble) (m : Addr) (n : Nibble) (s : State),
    (∃ t, exec (.ld r m) s = .next t ∧ WritesOnly s t (rowCol s.rp r) (memRead s 0 (ea s m))) ∧
      (∃ t, exec (.st m r) s = .next t ∧ WritesOnly s t (ea s m) (memRead s 0 (rowCol s.rp r))) ∧
      (∃ t, exec (.movImm m n) s = .next t ∧ WritesOnly s t (ea s m) n)

/-- The words of the indirect moves are those of their rules; each completes from every state; the indirect address
has as column the contents of the general register and as row MP with MPE = 1, mR with MPE = 0; the value goes to the
destination and nothing else changes. That CMP does not bear on the store and no flag is written is the spec's
decision (log 22), and so is that fixed-0 bits ignore the store, and which they are (logs 23, 35). With IXE = 1 the
address of m is the open parameter's and the indirect row is not modified (the model's choices, log 9). Spec:
44_transfer.md section 1. -/
def Obligations.MoveIndirectSelectsTheRowByMpe : Prop :=
  (Encodes 0xF800 0x5000 (fun w => .movToInd (lowNibbleOf w) (addressOf w)) ∧
    Encodes 0xF800 0xD000 (fun w => .movFromInd (addressOf w) (lowNibbleOf w))) ∧
  ∀ (r : Nibble) (m : Addr) (s : State),
    let row : BitVec 3 := if s.mpe then s.ix.extractLsb' 4 3 else m.extractLsb' 4 3
    (∃ t, exec (.movToInd r m) s = .next t ∧
        WritesOnly s t (rowCol row (memRead s 1 (rowCol s.rp r))) (memRead s 0 (ea s m))) ∧
      (∃ t, exec (.movFromInd m r) s = .next t ∧
        WritesOnly s t (ea s m) (memRead s 1 (rowCol row (memRead s 0 (rowCol s.rp r)))))

/-- With a free stack level MOVT completes: DBF holds the program word AR addresses (all ones from 0300H on), SP is as
before, ASR[SP - 1] keeps the return address, and nothing else changes. When a level is free and what the return
address is are the spec's decisions (logs 24, 25). Spec: 44_transfer.md section 2. -/
def Obligations.MovtReadsTheTableThroughTheStack : Prop :=
  ∀ s : State, s.canPush →
    let w := romWord s.rom s.ar
    ∃ t, exec .movt s = .next t ∧
      (stored t 0x0C = w.extractLsb' 12 4 ∧ stored t 0x0D = w.extractLsb' 8 4 ∧
        stored t 0x0E = w.extractLsb' 4 4 ∧ stored t 0x0F = w.extractLsb' 0 4) ∧
      (0x300 ≤ s.ar.toNat → w = 0xFFFF) ∧ KeepsData s t [0x0C, 0x0D, 0x0E, 0x0F] ∧
      KeepsOutside { s with asr := s.asr.setIfInBounds (s.sp.toNat - 1) (s.pc + 1) } t ∧ t.pc = s.pc + 1

/-- The words of PUSH AR and POP AR are those of their rules. With SP from 1 to 5 PUSH AR decrements SP and stores AR
in ASR[SP]; with SP = 0 the chip resets. With SP below 5 POP AR loads AR from ASR[SP] and increments SP; with SP from
5 on the chip resets. Nothing else changes. The conditions and the reset's effect are the spec's decisions (logs 24,
31), that the machine goes on is the model's choice (log 14). Spec: 44_transfer.md section 3, 60_exceptions.md section
1. -/
def Obligations.PushAndPopOfAr : Prop :=
  (Encodes 0xFFFF 0x38D0 (fun _ => .push) ∧ Encodes 0xFFFF 0x38C0 (fun _ => .pop)) ∧
  ∀ s : State,
    (s.canPush → exec .push s = .next { s with
        sp := s.sp - 1
        asr := s.asr.setIfInBounds (s.sp.toNat - 1) s.ar
        pc := s.pc + 1 }) ∧
      (s.sp = 0 → ∃ t, exec .push s = .next t ∧ AfterStackReset s t) ∧
      (∀ h : s.sp.toNat < 5, exec .pop s = .next { s with
        ar := s.asr[s.sp.toNat]
        sp := s.sp + 1
        pc := s.pc + 1 }) ∧
      (5 ≤ s.sp.toNat → ∃ t, exec .pop s = .next t ∧ AfterStackReset s t)

/-- PEEK completes from every state and register-file address: WR takes the data-memory nibble at 40H to 7FH, and the
bits of each control register elsewhere, TMRES and fixed-0 bits as 0, INT as the pin level; at an unassigned address
WR's value is left open (log 6). That TMRES reads 0 is the spec's decision (log 27), and so is that fixed-0 bits do
(log 35). Nothing else changes. Spec: 44_transfer.md section 4, 20_memory.md section 5, 10_state.md section 8. -/
def Obligations.PeekReadsTheRegisterFile : Prop :=
  ∀ (rf : Addr) (s : State), ∃ t v, exec (.peek rf) s = .next t ∧ WritesOnly s t 0x78 v ∧
    (0x40 ≤ rf.toNat → v = memRead s 0 rf) ∧
    (rf = 0x01 → v.toNat = s.sp.toNat) ∧
    (rf = 0x0A → v = nibbleOf false false false s.sio.sioen) ∧
    (rf = 0x0F → v = nibbleOf false false false s.pins.int) ∧
    (rf = 0x10 → v = nibbleOf false false false s.pdresen) ∧
    (rf = 0x11 → v = nibbleOf s.timer.tmen false (s.timer.tmck.getLsbD 1) (s.timer.tmck.getLsbD 0)) ∧
    (rf = 0x12 → v = nibbleOf false false false s.timer.tmosel) ∧
    (rf = 0x1A → v = nibbleOf s.sio.siots s.sio.siohiz (s.sio.siock.getLsbD 1) (s.sio.siock.getLsbD 0)) ∧
    (rf = 0x1F → v.toNat = s.iegmd.toNat) ∧
    (rf = 0x24 → v = nibbleOf false false false s.ports.pobgio) ∧
    (rf = 0x2F → v = nibbleOf false s.ipSio s.ipTm s.ip) ∧
    (rf = 0x32 → v.toNat = s.ports.poebio.toNat) ∧
    (rf = 0x33 → v = s.ports.podbio) ∧ (rf = 0x34 → v = s.ports.pocbio) ∧ (rf = 0x35 → v = s.ports.poabio) ∧
    (rf = 0x3D → v = nibbleOf false false false s.irqSio) ∧
    (rf = 0x3E → v = nibbleOf false false false s.irqTm) ∧
    (rf = 0x3F → v = nibbleOf false false false s.irq)

/-- POKE to a register-file address from 40H to 7FH completes from every state: WR goes to that data-memory address
(fixed-0 bits staying 0, the spec's decisions, logs 23 and 35) and nothing else changes. Spec: 44_transfer.md section
4, 20_memory.md section 5. -/
def Obligations.PokeWritesDataMemory : Prop :=
  ∀ (rf : Addr) (s : State), 0x40 ≤ rf.toNat → ∃ t, exec (.poke rf) s = .next t ∧ WritesOnly s t rf s.wr

/-- POKE to SP, PDRESEN, the timer mode, TMOSEL, IEGMD, the port modes, the enable and the request flags completes
from every state and writes exactly the assigned bits from WR; TMRES = 1 clears the count and sets the output flip-
flop (the spec's decision, log 27); fixed-0 bits ignore the write (the spec's decision, log 35); at INT and at every
unassigned address only the pc moves (log 6). Spec: 44_transfer.md section 4, 20_memory.md section 5, 10_state.md
section 8, 60_exceptions.md section 4. -/
def Obligations.PokeWritesControlRegisters : Prop :=
  ∀ s : State,
    let t : State := { s with pc := s.pc + 1 }
    let v := s.wr
    (exec (.poke 0x01) s = .next { t with sp := v.extractLsb' 0 3 } ∧
      exec (.poke 0x10) s = .next { t with pdresen := v.getLsbD 0 } ∧
      exec (.poke 0x11) s = .next { t with timer := { s.timer with
        tmen := v.getLsbD 3
        tmck := v.extractLsb' 0 2
        tmc := if v.getLsbD 2 then 0 else s.timer.tmc
        out := v.getLsbD 2 || s.timer.out } } ∧
      exec (.poke 0x12) s = .next { t with timer := { s.timer with tmosel := v.getLsbD 0 } } ∧
      exec (.poke 0x1F) s = .next { t with iegmd := v.extractLsb' 0 2 } ∧
      exec (.poke 0x24) s = .next { t with ports := { s.ports with pobgio := v.getLsbD 0 } } ∧
      exec (.poke 0x2F) s = .next { t with ipSio := v.getLsbD 2, ipTm := v.getLsbD 1, ip := v.getLsbD 0 } ∧
      exec (.poke 0x32) s = .next { t with ports := { s.ports with poebio := v.extractLsb' 0 2 } } ∧
      exec (.poke 0x33) s = .next { t with ports := { s.ports with podbio := v } } ∧
      exec (.poke 0x34) s = .next { t with ports := { s.ports with pocbio := v } } ∧
      exec (.poke 0x35) s = .next { t with ports := { s.ports with poabio := v } } ∧
      exec (.poke 0x3D) s = .next { t with irqSio := v.getLsbD 0 } ∧
      exec (.poke 0x3E) s = .next { t with irqTm := v.getLsbD 0 } ∧
      exec (.poke 0x3F) s = .next { t with irq := v.getLsbD 0 }) ∧
    ∀ rf : Addr, rf.toNat < 0x40 →
      rf ∉ ([0x01, 0x0A, 0x10, 0x11, 0x12, 0x1A, 0x1F, 0x24, 0x2F, 0x32, 0x33, 0x34, 0x35, 0x3D, 0x3E, 0x3F] : List Addr) →
      exec (.poke rf) s = .next t

/-- Where no transfer is disturbed, POKE to 0AH writes SIOEN and POKE to 1AH writes SIOTS, SIOHIZ and SIOCK, and
setting SIOTS clears IRQSIO and the clock counter (the counter is the spec's decision, log 28) and changes nothing
else. A POKE that changes SIOEN, SIOHIZ or SIOCK while SIOTS = 1, or sets SIOTS with SIOEN = 0, is refused (the spec's
decision, log 15). Spec: 44_transfer.md section 4, 60_exceptions.md section 6, 93_implementation_defined.md. -/
def Obligations.PokeSerialControl : Prop :=
  ∀ s : State,
    let v := s.wr
    let t : State := { s with pc := s.pc + 1 }
    let changesEn := s.sio.siots && (v.getLsbD 0 != s.sio.sioen)
    let changesMode :=
      (s.sio.siots && (v.getLsbD 2 != s.sio.siohiz || v.extractLsb' 0 2 != s.sio.siock)) ||
        (v.getLsbD 3 && !s.sio.sioen)
    (changesEn = false → exec (.poke 0x0A) s = .next { t with sio := { s.sio with sioen := v.getLsbD 0 } }) ∧
      (changesMode = false → exec (.poke 0x1A) s = .next { t with
        sio := { s.sio with
          siots := v.getLsbD 3
          siohiz := v.getLsbD 2
          siock := v.extractLsb' 0 2
          count := if v.getLsbD 3 then 0 else s.sio.count
          started := !v.getLsbD 3 && s.sio.started }
        irqSio := !v.getLsbD 3 && s.irqSio }) ∧
      (changesEn = true → exec (.poke 0x0A) s = .refused .serialDisturbed) ∧
      (changesMode = true → exec (.poke 0x1A) s = .refused .serialDisturbed)

/-- GET completes from every state. At 01H and 02H the byte goes to 0EH and 0FH and DBF3, DBF2 are kept (the spec's
decision, log 29); at 40H AR goes zero-extended to the four nibbles (that it is ten bits wide is the spec's decision,
log 23); at 03H the two low nibbles, and at an unassigned address all four, are left open (log 6). Nothing else
changes. Spec: 44_transfer.md section 5, 20_memory.md section 6. -/
def Obligations.GetLoadsTheDataBuffer : Prop :=
  ∀ (p : Addr) (s : State), ∃ t, exec (.get p) s = .next t ∧ KeepsOutside s t ∧ t.pc = s.pc + 1 ∧
    KeepsData s t (if p = 0x01 ∨ p = 0x02 ∨ p = 0x03 then [0x0E, 0x0F] else [0x0C, 0x0D, 0x0E, 0x0F]) ∧
    (p = 0x01 → stored t 0x0E = s.sio.sfr.extractLsb' 4 4 ∧ stored t 0x0F = s.sio.sfr.extractLsb' 0 4) ∧
    (p = 0x02 → stored t 0x0E = s.timer.tmc.extractLsb' 4 4 ∧ stored t 0x0F = s.timer.tmc.extractLsb' 0 4) ∧
    (p = 0x40 → stored t 0x0C = 0 ∧ (stored t 0x0D).toNat = s.ar.toNat / 256 ∧
      stored t 0x0E = s.ar.extractLsb' 4 4 ∧ stored t 0x0F = s.ar.extractLsb' 0 4)

/-- PUT completes from every state, but for 01H with SIOTS = 1. At 01H with SIOTS = 0 SIOSFR, and at 03H TMM, takes
DBF1:DBF0 (the placement is the spec's decision, log 29); at 40H AR takes bits 9 to 0 of DBF (that AR is ten bits wide
is the spec's decision, log 23); at every other address only the pc moves (log 6). At 01H with SIOTS = 1 it is refused
(the spec's decision, log 15). Spec: 44_transfer.md section 5, 20_memory.md section 6. -/
def Obligations.PutStoresTheDataBuffer : Prop :=
  ∀ s : State,
    let t : State := { s with pc := s.pc + 1 }
    let low : Byte := stored s 0x0E ++ stored s 0x0F
    (s.sio.siots = false → exec (.put 0x01) s = .next { t with sio := { s.sio with sfr := low } }) ∧
      (s.sio.siots = true → exec (.put 0x01) s = .refused .serialDisturbed) ∧
      exec (.put 0x03) s = .next { t with timer := { s.timer with tmm := low } } ∧
      exec (.put 0x40) s = .next { t with ar := (stored s 0x0D).extractLsb' 0 2 ++ stored s 0x0E ++ stored s 0x0F } ∧
      ∀ p : Addr, p ∉ ([0x01, 0x03, 0x40] : List Addr) → exec (.put p) s = .next t

/-! ## Branch and subroutine (45_branch_subroutine.md) -/

/-- The words of the branches are those of their rules; each completes from every state and loads the pc with the
address or with AR, changing nothing else. Rules: R230, R231. -/
def Obligations.BranchesLoadThePc : Prop :=
  (Encodes 0xFC00 0x6000 (fun w => .br (w.extractLsb' 0 10)) ∧ Encodes 0xFFFF 0x3840 (fun _ => .brAr)) ∧
  ∀ (a : ProgAddr) (s : State),
    exec (.br a) s = .next { s with pc := a } ∧ exec .brAr s = .next { s with pc := s.ar }

/-- The words of the calls are those of their rules. With SP from 1 to 5 a call decrements SP, stores the next address
in ASR[SP] and loads the pc; with SP = 0 the chip resets and the call does not happen. Nothing else changes. The
return address, the conditions and the reset's effect are the spec's decisions (logs 24, 25, 31), that the machine
goes on is the model's choice (log 14). Spec: 45_branch_subroutine.md section 1, 45_branch_subroutine.md section 2,
60_exceptions.md section 1. -/
def Obligations.CallsPushTheReturnAddress : Prop :=
  (Encodes 0xFC00 0xE000 (fun w => .call (w.extractLsb' 0 10)) ∧ Encodes 0xFFFF 0x3850 (fun _ => .callAr)) ∧
  ∀ (a : ProgAddr) (s : State), ∀ p ∈ [(Instr.call a, a), (Instr.callAr, s.ar)],
    (s.canPush → exec p.1 s = .next { s with
        sp := s.sp - 1
        asr := s.asr.setIfInBounds (s.sp.toNat - 1) (s.pc + 1)
        pc := p.2 }) ∧
      (s.sp = 0 → ∃ t, exec p.1 s = .next t ∧ AfterStackReset s t)

/-- The words of RET and RETSK are those of their rules. With SP below 5 RET loads the pc from ASR[SP], RETSK with the
address after that, modulo 1024, and SP is incremented; with SP from 5 on the chip resets. Nothing else changes. What
a skip is, the conditions and the reset's effect are the spec's decisions (logs 24, 25, 31), that the machine goes on
is the model's choice (log 14). Spec: 45_branch_subroutine.md section 2, 60_exceptions.md section 1. -/
def Obligations.ReturnsPopThePc : Prop :=
  (Encodes 0xFFFF 0x38E0 (fun _ => .ret) ∧ Encodes 0xFFFF 0x39E0 (fun _ => .retsk)) ∧
  ∀ s : State,
    (∀ h : s.sp.toNat < 5,
        exec .ret s = .next { s with pc := s.asr[s.sp.toNat], sp := s.sp + 1 } ∧
          exec .retsk s = .next { s with pc := s.asr[s.sp.toNat] + 1, sp := s.sp + 1 }) ∧
      (5 ≤ s.sp.toNat →
        (∃ t, exec .ret s = .next t ∧ AfterStackReset s t) ∧ ∃ t, exec .retsk s = .next t ∧ AfterStackReset s t)

/-- With SP below 5 RETI loads the pc from ASR[SP], increments SP and copies INTSK into PSWORD; INTE, INTSK, RP, MPE
and everything else keep their values (the spec's decisions, logs 20 and 24). Spec: 45_branch_subroutine.md section 2,
60_exceptions.md section 2. -/
def Obligations.RetiRestoresTheFlags : Prop :=
  ∀ (s : State) (h : s.sp.toNat < 5),
    exec .reti s = .next { s with pc := s.asr[s.sp.toNat], sp := s.sp + 1, psw := s.intsk }

/-- With SP = 0, 6 or 7 every pushing instruction, and with SP from 5 on every popping one, answers a state after a
reset of kind 3: pc 0000H, SP 5, the system registers but WR 0, ports in input mode, the other control registers kept
(conditions and effect are the spec's decisions, logs 24 and 31; that the machine goes on is the model's choice, log
14). From SP = 5 exactly five PUSH AR succeed and the sixth resets. Spec: 60_exceptions.md section 1,
45_branch_subroutine.md section 1. -/
def Obligations.FiveLevelsThenTheStackResets : Prop :=
  ∀ s : State,
    (s.sp = 0 ∨ 6 ≤ s.sp.toNat → ∀ a : ProgAddr, ∀ i ∈ [Instr.call a, Instr.callAr, Instr.movt, Instr.push],
        ∃ t, exec i s = .next t ∧ AfterStackReset s t) ∧
      (5 ≤ s.sp.toNat → ∀ i ∈ [Instr.ret, Instr.retsk, Instr.reti, Instr.pop],
        ∃ t, exec i s = .next t ∧ AfterStackReset s t) ∧
      (s.sp = 5 → ∃ t u, execAll (List.replicate 5 .push) s = .next t ∧ t.sp = 0 ∧ t.pc = s.pc + 5 ∧
        t.asr = Vector.replicate 5 s.ar ∧ exec .push t = .next u ∧ AfterStackReset t u)

/-! ## Interrupts and standby (46_interrupt_other.md, 60_exceptions.md) -/

/-- EI sets INTE and DI clears it, each from every state with nothing else changed but the pc (and the model's own EI
hold, log 18). Where the CPU goes on alone and a request is present and enabled, after EI the next step enters the
interrupt if EiDelay is 0, and else executes one more instruction; after DI the next step executes the next
instruction whatever is requested. That DI acts at once, and that EI acts at once or after one instruction, is the
spec's decision (log 18), and so are, of the entry, that it clears INTE (log 20), that it pushes the address of the
next instruction (log 25), when a level is free (log 24) and where it is accepted (log 17). Spec:
46_interrupt_other.md, 60_exceptions.md section 2. -/
def Obligations.EiAndDiTakeEffect : Prop :=
  ∀ s : State,
    (exec .ei s = .next { s with inte := true, eiHold := Config.eiDelay, pc := s.pc + 1 } ∧
      exec .di s = .next { s with inte := false, pc := s.pc + 1 }) ∧
    (s.schedule = [] → s.standby = .running → s.canPush →
      (∀ x, s.firstWanted x = true → ∀ t, exec .ei s = .next t →
        (Config.eiDelay = false → step t = .next (entered t.turn x)) ∧
        (Config.eiDelay = true → ∀ i, decode (romWord s.rom (s.pc + 1)) = .ok i →
          step t = exec i { t.turn with eiHold := false })) ∧
      (∀ t, exec .di s = .next t → ∀ i, decode (romWord s.rom (s.pc + 1)) = .ok i →
        step t = exec i { t.turn with eiHold := false }))

/-- The word of NOP is 3CF0H; NOP completes from every state and moves the pc to the next address, changing nothing
else. The word 0000H is ADD 0, 00H and FFFFH is SKF PSW, #0FH. Rules: R249. -/
def Obligations.NopOnlyMovesThePc : Prop :=
  Encodes 0xFFFF 0x3CF0 (fun _ => .nop) ∧ decode 0x0000 = .ok (.addReg 0 0x00) ∧
    decode 0xFFFF = .ok (.skf 0x7F 0xF) ∧ ∀ s : State, exec .nop s = .next { s with pc := s.pc + 1 }

/-- A HALT that follows a NOP and whose fixed-0 bits are 0 completes: the pc goes on, and the mode is entered unless
the release condition holds already (the spec's decision, log 37); nothing else changes. With a fixed-0 bit set (log
11), or without the NOP (log 12), it is refused by name. Spec: 46_interrupt_other.md, 60_exceptions.md section 8,
70_reset_and_hazards.md section 3. -/
def Obligations.HaltEntersUnlessReleased : Prop :=
  ∀ (h : Nibble) (s : State),
    let met := (h.getLsbD 3 && s.anyWants) || (h.getLsbD 1 && s.irqTm)
    (legalHalt h = true → romWord s.rom (s.pc - 1) = 0x3CF0 →
        exec (.halt h) s = .next { s with pc := s.pc + 1, standby := if met then s.standby else .halt h }) ∧
      (legalHalt h = false → exec (.halt h) s = .refused (.standbyOperand h)) ∧
      (legalHalt h = true → romWord s.rom (s.pc - 1) ≠ 0x3CF0 → exec (.halt h) s = .refused .noNopBefore)

/-- STOP 1000B after a NOP completes: unless INT or the serial interface is requested and enabled (IRQTM never
prevents it; the spec's decision, log 37), the mode is entered and the timer count cleared (that entry clears it is
log 27); nothing else changes. Every STOP with a fixed-0 bit set (log 11), and every STOP without the NOP (log 12), is
refused by name. Spec: 46_interrupt_other.md, 60_exceptions.md section 4, 60_exceptions.md section 8,
70_reset_and_hazards.md section 3. -/
def Obligations.StopEntersUnlessReleased : Prop :=
  ∀ s : State,
    (romWord s.rom (s.pc - 1) = 0x3CF0 →
        exec (.stop 0b1000) s = .next
          (if s.wants .int || s.wants .serial then { s with pc := s.pc + 1 }
          else { s with pc := s.pc + 1, standby := .stop 0b1000, timer := { s.timer with tmc := 0 } })) ∧
      (∀ c, legalStop c = false → exec (.stop c) s = .refused (.standbyOperand c)) ∧
      (∀ c, legalStop c = true → romWord s.rom (s.pc - 1) ≠ 0x3CF0 → exec (.stop c) s = .refused .noNopBefore)

/-- STOP 0000B after a NOP completes whatever is requested (log 37): every register that reset gives a value has it,
the pc goes on, the mode is entered, and RAM with DBF, WR, SIOSFR, program memory, pins and schedule keep their values
(that ASR and INTSK also do is log 32). Spec: 46_interrupt_other.md, 70_reset_and_hazards.md section 1. -/
def Obligations.StopZeroInitialisesAndSleeps : Prop :=
  ∀ s : State, romWord s.rom (s.pc - 1) = 0x3CF0 →
    ∃ t, exec (.stop 0) s = .next t ∧ t.pc = s.pc + 1 ∧ t.standby = .stop 0 ∧ HasResetValues t ∧
      t.ram = s.ram ∧ t.wr = s.wr ∧ t.sio.sfr = s.sio.sfr ∧ t.asr = s.asr ∧ t.intsk = s.intsk ∧ t.rom = s.rom ∧
      t.pins = s.pins ∧ t.schedule = s.schedule

/-- At an acceptance point with INTE = 1, the source of highest priority among those requested and enabled is entered:
with a free level the step is exactly the entry sequence (clearing INTE and which address is pushed are the spec's
decisions, logs 20 and 25), every other register, RP and MPE among them, all data memory and the enable flags
unchanged; with SP = 0, 6 or 7 the chip resets (the spec's decision, logs 24 and 31; that the machine goes on is log
14). Where acceptance points lie is the spec's decision too (logs 17, 18). Spec: 60_exceptions.md section 2,
10_state.md section 7. -/
def Obligations.InterruptEntrySavesAndVectors : Prop :=
  ∀ (s : State) (x : IntSource), s.acceptancePoint → s.inte = true → s.firstWanted x = true →
    (s.canPush → step s = .next (entered s.turn x)) ∧
      (¬ s.canPush → ∃ t, step s = .next t ∧ AfterStackReset s.turn t)

/-- At an acceptance point with a free stack level, the CPU's turn ends at the vector of x without executing an
instruction exactly when INTE = 1, the request and the enable of x are 1, and no source of higher priority is
requested and enabled; INT comes before the timer and the timer before the serial interface. Where acceptance points
lie is the spec's decision (logs 17, 18), and so are the stack's conditions (log 24). Spec: 60_exceptions.md section
2. -/
def Obligations.AcceptanceFollowsEnablesAndPriority : Prop :=
  ∀ (s : State) (x : IntSource), s.acceptancePoint → s.canPush →
    ((∃ t, boundary s = .done t ∧ t.pc = entryAddress x) ↔ (s.inte = true ∧ s.firstWanted x = true))

/-- If an interrupt is entered from s and the handler reaches a state with the stack, SP and INTSK as entry left them,
RETI there gives back the pc, the five flags and SP of s, and leaves everything else to the handler, INTE included.
What is pushed, that entry clears INTE and what RETI restores are the spec's decisions (logs 20, 25), and so are the
acceptance points (logs 17, 18) and when a level is free (log 24). Spec: 60_exceptions.md section 2,
45_branch_subroutine.md section 2. -/
def Obligations.RetiUndoesTheEntry : Prop :=
  ∀ (s : State) (x : IntSource), s.acceptancePoint → s.inte = true → s.firstWanted x = true → s.canPush →
    ∃ t, step s = .next t ∧ ∀ u : State, u.sp = t.sp → u.asr = t.asr → u.intsk = t.intsk →
      exec .reti u = .next { u with pc := s.pc, sp := s.sp, psw := s.psw }

/-- If an interrupt is entered from s, and from a state u of its handler (stack and SP as entry left them) a second is
entered, then RETI from there returns to u's pc with u's flags, and a second RETI returns to the pc of s with the
flags of u, not of s. What is pushed, when a level is free, that entry clears INTE and what RETI restores are the
spec's decisions (logs 20, 24, 25), and so are the acceptance points (logs 17, 18). Spec: 60_exceptions.md section 2.
-/
def Obligations.NestedEntryLosesTheFirstFlags : Prop :=
  ∀ (s u : State) (x y : IntSource), s.acceptancePoint → s.inte = true → s.firstWanted x = true →
    2 ≤ s.sp.toNat → s.sp.toNat ≤ 5 → u.acceptancePoint → u.inte = true → u.firstWanted y = true →
    (∀ t, step s = .next t → u.sp = t.sp ∧ u.asr = t.asr) →
      ∃ v a b, step u = .next v ∧ exec .reti v = .next a ∧ a.pc = u.pc ∧ a.psw = u.psw ∧
        exec .reti a = .next b ∧ b.pc = s.pc ∧ b.psw = u.psw ∧ b.sp = s.sp

/-- On the CPU's turn in HALT mode the step goes to running exactly when b3 names an enabled request that is present
or b1 names a present IRQTM; in STOP mode exactly when b3 is 1 and INT or the serial interface is requested and
enabled; nothing else changes in either case. Held in reset or waiting for the oscillation, no instruction executes
(70_reset_and_hazards.md section 1), and that the turn changes nothing else is the model's choice (log 30). That a
release is a step of its own is log 17. Spec: 60_exceptions.md section 8, 70_reset_and_hazards.md section 1. -/
def Obligations.StandbyWaitsForItsReleaseCondition : Prop :=
  ∀ s : State, s.cpuMoves →
    (∀ h, s.standby = .halt h → step s = .next
        (if (h.getLsbD 3 && s.anyWants) || (h.getLsbD 1 && s.irqTm) then { s.turn with standby := .running }
        else s.turn)) ∧
      (∀ c, s.standby = .stop c → step s = .next
        (if c.getLsbD 3 && (s.wants .int || s.wants .serial) then { s.turn with standby := .running } else s.turn)) ∧
      (s.standby = .resetHeld ∨ s.standby = .oscWait → step s = .next s.turn)

/-- In HALT mode with b3 set, INTE = 1 and an enabled request present, two turns of the CPU release the mode and enter
the interrupt of highest priority, pushing the address after the HALT; with INTE = 0 the mode is released and no
interrupt is entered (the spec's decision, logs 17 and 25). That the entry clears INTE is the spec's decision (log
20), and so are when a level is free (log 24) and the hold after EI (log 18). Spec: 60_exceptions.md section 8. -/
def Obligations.ReleaseWithInteEntersTheInterrupt : Prop :=
  ∀ (s : State) (h : Nibble) (x : IntSource), s.schedule = [] → s.standby = .halt h → h.getLsbD 3 = true →
    s.eiHold = false → s.firstWanted x = true → s.canPush →
      ∃ t, step s = .next t ∧ t.standby = .running ∧ t.pc = s.pc ∧
        (s.inte = true → step t = .next (entered t.turn x)) ∧
        (s.inte = false → ∀ i, decode (romWord s.rom s.pc) = .ok i → step t = exec i t.turn)

/-! ## Timer, serial interface, ports and pins (60_exceptions.md) -/

/-- A count pulse with TMEN = 1 while running or in HALT mode returns the count to 0, sets IRQTM and inverts the
output flip-flop where the count equals the modulo, and else increments the count modulo 256; with TMEN = 0 or in STOP
mode nothing changes (the spec's decisions, log 27); nor does anything while the chip is held in reset or waits for
the oscillation (the model's choice, log 30). Spec: 60_exceptions.md section 4. -/
def Obligations.CountPulseCountsOrMatches : Prop :=
  ∀ (s : State) (rest : List Event), s.schedule = .countPulse :: rest →
    let counting := s.timer.tmen = true ∧ (s.standby = .running ∨ ∃ h, s.standby = .halt h)
    (counting → step s = .next
        (if s.timer.tmc = s.timer.tmm then
          { s.turn with timer := { s.timer with tmc := 0, out := !s.timer.out }, irqTm := true }
        else { s.turn with timer := { s.timer with tmc := s.timer.tmc + 1 } })) ∧
      (¬ counting → step s = .next s.turn)

/-- With TMEN = 1, running or in HALT mode, and the count at 0: after any number n of pulses up to TMM the count is n,
IRQTM and the flip-flop are unchanged; after TMM + 1 pulses the count is 0 again, IRQTM is 1 and the flip-flop
inverted; nothing else changes. The period is the spec's decision (log 27). Spec: 60_exceptions.md section 4. -/
def Obligations.TimerPeriodIsModuloPlusOne : Prop :=
  ∀ (s : State) (n : Nat) (rest : List Event), s.timer.tmen = true →
    (s.standby = .running ∨ ∃ h, s.standby = .halt h) → s.timer.tmc = 0 →
    s.schedule = List.replicate n .countPulse ++ rest →
    let t : State := { s with schedule := rest, drawClock := s.drawClock + n }
    (n ≤ s.timer.tmm.toNat → Sys2Proof.core.run n s = .next { t with timer := { s.timer with tmc := BitVec.ofNat 8 n } }) ∧
      (n = s.timer.tmm.toNat + 1 →
        Sys2Proof.core.run n s = .next { t with
          timer := { s.timer with tmc := 0, out := !s.timer.out }
          irqTm := true })

/-- With SIOEN = SIOTS = 1, the clock counter 0, and the clock reaching the interface (running or HALT), eight times a
level on SI, a falling and a rising edge leave SIOSFR holding the eight levels, the first in bit 7, SIOTS 0, IRQSIO 1
and the counter 0; the SO latch holds the old bit 0 in transmit/receive mode and is kept in receive mode; pc, RAM,
stack, flags and the serial mode are unchanged. That edges are events is log 16; the counter's start value is the
spec's decision (log 28). Spec: 60_exceptions.md section 6. -/
def Obligations.SerialTransferReceivesEightBits : Prop :=
  ∀ (s : State) (ps : List Pins) (rest : List Event), s.sio.sioen = true → s.sio.siots = true → s.sio.count = 0 →
    (s.standby = .running ∨ ∃ h, s.standby = .halt h) →
    ps.length = 8 → (∀ p ∈ ps, p.podDriven.getLsbD 2 = true) →
    s.schedule = ps.flatMap (fun p => [.pins p, .sckFall, .sckRise]) ++ rest →
      ∃ t, Sys2Proof.core.run 24 s = .next t ∧
        (∀ i, i < 8 → t.sio.sfr.getLsbD (7 - i) = ((ps[i]?).any fun p => p.pod.getLsbD 2)) ∧
        t.sio.siots = false ∧ t.sio.count = 0 ∧ t.irqSio = true ∧
        t.ports.latchD.getLsbD 1 = (if s.sio.siohiz then s.ports.latchD.getLsbD 1 else s.sio.sfr.getLsbD 0) ∧
        t.sio.sioen = true ∧ t.sio.siohiz = s.sio.siohiz ∧ t.sio.siock = s.sio.siock ∧
        t.pc = s.pc ∧ t.ram = s.ram ∧ t.rom = s.rom ∧ t.asr = s.asr ∧ t.sp = s.sp ∧ t.psw = s.psw ∧
        t.standby = s.standby ∧ t.schedule = rest

/-- With SIOEN = SIOTS = 1, in running, in HALT mode, and in STOP mode on the external clock: a falling edge starts
the transfer (log 28), loads the SO latch, bit 1 of the POD latch, with bit 7 of SIOSFR in transmit/receive mode and
keeps it in receive mode, pulls the SCK pin low on an internal clock, and changes no other latch and no other
register. A rising edge of a started transfer shifts SIOSFR left by one, takes into bit 0 the level of the SI line
(where the outside drives it, or a pull-up holds it; else open, log 7), counts, and releases the SCK pin; the eighth
clears SIOTS and the counter and sets IRQSIO; nothing else changes. A rising edge before the first falling one changes
nothing (log 28). With SIOTS = 0, and in STOP mode with an internal clock, neither edge changes anything. That edges
are events is log 16, the level of SCK is log 38. Spec: 60_exceptions.md section 5, 60_exceptions.md section 6,
60_exceptions.md section 8. -/
def Obligations.SerialEdgesShiftMsbFirst : Prop :=
  ∀ (s : State) (rest : List Event),
    (s.schedule = .sckFall :: rest → s.sio.sioen = true → s.shifts →
      ∃ t, step s = .next t ∧
        t = { s.turn with
          sio := { s.sio with started := true, sckLow := true }
          ports := { s.ports with latchD := t.ports.latchD } } ∧
        t.ports.latchD.getLsbD 1 = (if s.sio.siohiz then s.ports.latchD.getLsbD 1 else s.sio.sfr.getLsbD 7) ∧
        (∀ n, n < 4 → n ≠ 1 → t.ports.latchD.getLsbD n = s.ports.latchD.getLsbD n) ∧
        (s.sio.siock ≠ 0 → t.podPins.getLsbD 0 = false)) ∧
      (s.schedule = .sckRise :: rest → s.sio.sioen = true → s.shifts → s.sio.started = true →
        ∃ t si, step s = .next t ∧ (∀ v, s.podHeld 2 v → si = v) ∧
          (let shifted : Byte := s.sio.sfr.extractLsb' 0 7 ++ BitVec.ofBool si
          t = if s.sio.count = 7 then
              { s.turn with
                sio := { s.sio with sfr := shifted, count := 0, siots := false, started := false, sckLow := false }
                irqSio := true }
            else { s.turn with sio := { s.sio with sfr := shifted, count := s.sio.count + 1, sckLow := false } }) ∧
          (s.sio.siock ≠ 0 → s.sio.count ≠ 7 → ∀ v, s.podHeld 0 v → t.podPins.getLsbD 0 = v)) ∧
      (s.schedule = .sckRise :: rest → s.sio.sioen = true → s.shifts → s.sio.started = false →
        step s = .next s.turn) ∧
      (s.schedule = .sckFall :: rest ∨ s.schedule = .sckRise :: rest → ¬ s.shifts → step s = .next s.turn)

/-- When the outside levels change while running or in a standby mode, the pins take them and IRQ becomes 1 on a
rising, falling or either edge of INT as the code's parameter (log 19) says, and keeps its value otherwise; nothing
else changes. Spec: 60_exceptions.md section 2. -/
def Obligations.SelectedIntEdgeSetsIrq : Prop :=
  ∀ (s : State) (p : Pins) (rest : List Event), s.schedule = .pins p :: rest →
    s.standby ≠ .resetHeld → s.standby ≠ .oscWait →
    let rises := !s.pins.int && p.int
    let falls := s.pins.int && !p.int
    let e := Config.iegmdEdge s.iegmd
    step s = .next { s.turn with
      pins := p
      irq := s.irq || (rises && (e == .rising || e == .both)) || (falls && (e == .falling || e == .both)) }

/-- A read of 70H and 72H gives per bit the latch in output mode and the pin in input mode; of 71H the latch or the
pins by POBGIO. Of 73H, whatever the outside does: the latch for POD3 as TMOUT, for POD0 as SCK with an internal
clock, and for each bit in port function and output mode; and the level the outside holds (by driving the line, or by
leaving it to a pull-up) for POD2 as SI, for POD1 in receive mode, for POD0 with the external clock, and for each bit
in port function and input mode. Of 6FH bits 3 and 2 are zero; an output whose latch is 0 reads 0, every other bit the
level the outside holds. The TMOUT pin is low where the flip-flop is 0, the SO pin where the SO latch is 0, and else
each is at the level the outside holds. How a held or floating line reads is log 7, the pin model log 26. Spec:
60_exceptions.md section 5, 10_state.md section 12. -/
def Obligations.PortsReadPinsOrLatches : Prop :=
  ∀ (s : State) (k : Nat),
    let d (n : Nat) : Bool := (memRead s k 0x73).getLsbD n
    let latch (n : Nat) : Bool := s.ports.latchD.getLsbD n
    (∀ n, n < 4 →
      (memRead s k 0x70).getLsbD n =
          (if s.ports.poabio.getLsbD n then s.ports.latchA.getLsbD n else s.pins.poa.getLsbD n) ∧
        (memRead s k 0x71).getLsbD n = (if s.ports.pobgio then s.ports.latchB.getLsbD n else s.pins.pob.getLsbD n) ∧
        (memRead s k 0x72).getLsbD n =
          (if s.ports.pocbio.getLsbD n then s.ports.latchC.getLsbD n else s.pins.poc.getLsbD n)) ∧
    (s.timer.tmosel = true → d 3 = latch 3) ∧
    (s.timer.tmosel = false → (s.ports.podbio.getLsbD 3 = true → d 3 = latch 3) ∧
      (s.ports.podbio.getLsbD 3 = false → ∀ v, s.podHeld 3 v → d 3 = v)) ∧
    (s.sio.sioen = false → ∀ n, n < 3 → (s.ports.podbio.getLsbD n = true → d n = latch n) ∧
      (s.ports.podbio.getLsbD n = false → ∀ v, s.podHeld n v → d n = v)) ∧
    (s.sio.sioen = true →
      (∀ v, s.podHeld 2 v → d 2 = v) ∧
      (s.sio.siohiz = true → ∀ v, s.podHeld 1 v → d 1 = v) ∧
      (s.sio.siock ≠ 0 → d 0 = latch 0) ∧
      (s.sio.siock = 0 → ∀ v, s.podHeld 0 v → d 0 = v)) ∧
    (memRead s k 0x6F).getLsbD 3 = false ∧ (memRead s k 0x6F).getLsbD 2 = false ∧
    (∀ n, n < 2 →
      (s.ports.poebio.getLsbD n = true ∧ s.ports.latchE.getLsbD n = false → (memRead s k 0x6F).getLsbD n = false) ∧
        (s.ports.poebio.getLsbD n = false ∨ s.ports.latchE.getLsbD n = true → ∀ v, s.poeHeld n v →
          (memRead s k 0x6F).getLsbD n = v)) ∧
    (s.timer.tmosel = true → (s.timer.out = false → s.podPins.getLsbD 3 = false) ∧
      (s.timer.out = true → ∀ v, s.podHeld 3 v → s.podPins.getLsbD 3 = v)) ∧
    (s.sio.sioen = true → s.sio.siohiz = false → (latch 1 = false → s.podPins.getLsbD 1 = false) ∧
      (latch 1 = true → ∀ v, s.podHeld 1 v → s.podPins.getLsbD 1 = v))

/-- Where a running CPU with no interrupt to accept is at 0300H to 03FFH with IXE = 0, the step clears CMP and moves
the pc by 2 where the flags of 7FH were all 0 and by 1 else, modulo 1024, and changes nothing else. The skip, the wrap
and the order of test and clear are the spec's decisions (logs 25, 36). IXE = 1 is left out: the operand's address is
then the open parameter's (log 9). Spec: 30_encoding.md section 3, 42_judge_compare.md section 1,
70_reset_and_hazards.md section 3. -/
def Obligations.EndOfRomRunsSkf : Prop :=
  ∀ s : State, s.cpuMoves → s.standby = .running → (s.inte && !s.eiHold && s.anyWants) = false →
    0x300 ≤ s.pc.toNat → s.psw.ixe = false →
      step s = .next { s.turn with
        eiHold := false
        psw := { s.psw with cmp := false }
        pc := if s.psw.cmp || s.psw.cy || s.psw.z then s.pc + 1 else s.pc + 2 }

/-! ## Reset (70_reset_and_hazards.md) -/

/-- After reset the pc is 0000H, the CPU runs, every register the table gives a value has it, and PEEK of SP, of the
timer mode and of IRQTM reads 5, 1000B and 1. What the table leaves undefined is not said here (logs 1 and 2). Spec:
70_reset_and_hazards.md section 1, 10_state.md section 13. -/
def Obligations.ResetLeavesTheTableValues : Prop :=
  HasResetValues State.reset ∧ State.reset.pc = 0 ∧ State.reset.standby = .running ∧
    rfRead State.reset 0x01 = 5 ∧ rfRead State.reset 0x11 = 0b1000 ∧ rfRead State.reset 0x3E = 1 ∧
    rfRead State.reset 0x0F = nibbleOf false false false State.reset.pins.int ∧
    ∀ a ∈ ([0x74, 0x75, 0x76, 0x77, 0x79, 0x7A, 0x7B, 0x7C, 0x7D, 0x7E, 0x7F] : List Addr), memRead State.reset 0 a = 0

/-- A reset by the RESET input or power-on, or by power-down with PDRESEN = 1, gives every value of the table, pc
0000H, and holds the chip, program memory and pins unchanged; out of HALT or STOP mode it also keeps RAM except DBF,
WR and SIOSFR, whatever its cause. With PDRESEN = 0 a power-down reset does nothing. Spec: 70_reset_and_hazards.md
section 1, 10_state.md section 13. -/
def Obligations.ResetEventsOfKindsOneAndTwo : Prop :=
  ∀ (s : State) (c : ResetCause) (rest : List Event), s.schedule = .resetAssert c :: rest →
    (c = .powerDown → s.pdresen = false → step s = .next s.turn) ∧
      ((c = .powerDown → s.pdresen = true) →
        ∃ t, step s = .next t ∧ HasResetValues t ∧ t.pc = 0 ∧ t.standby = .resetHeld ∧ t.rom = s.rom ∧
          t.pins = s.pins ∧ t.schedule = rest ∧
          ((∃ h, s.standby = .halt h) ∨ (∃ h, s.standby = .stop h) →
            t.wr = s.wr ∧ t.sio.sfr = s.sio.sfr ∧
              ∀ a : Addr, a.toNat < 0x40 → a ∉ ([0x0C, 0x0D, 0x0E, 0x0F] : List Addr) → stored t a = stored s a))

/-- From every state, a reset by the RESET input, its release and the end of the oscillation wait, with a turn of the
CPU after each of the first two, leave the chip running at 0000H with every value of the reset table and program
memory unchanged (the schedule is the model's own, log 16; the kind of a reset asserted while one is held is log 30).
Spec: 70_reset_and_hazards.md section 1. -/
def Obligations.ResetRunsFromZeroAfterTheWait : Prop :=
  ∀ (s : State) (rest : List Event),
    s.schedule = [.resetAssert .resetPin, .cpu, .resetRelease, .cpu, .oscWaitOver] ++ rest →
      ∃ t, Sys2Proof.core.run 5 s = .next t ∧ t.standby = .running ∧ t.pc = 0 ∧ HasResetValues t ∧ t.rom = s.rom ∧
        t.schedule = rest
end

