-- ==== Sys2Proof/Laws/Bits.lean ====
section
/-! SUPPORT. Laws of the bit fields: a part of a joined value is the part it was joined from, and a value is joined
from its parts. -/

namespace Sys2Proof.Machine

@[simp] theorem nibbleOf_bit3 (b3 b2 b1 b0 : Bool) : (nibbleOf b3 b2 b1 b0).getLsbD 3 = b3 := by
  revert b3 b2 b1 b0; decide

@[simp] theorem nibbleOf_bit2 (b3 b2 b1 b0 : Bool) : (nibbleOf b3 b2 b1 b0).getLsbD 2 = b2 := by
  revert b3 b2 b1 b0; decide

@[simp] theorem nibbleOf_bit1 (b3 b2 b1 b0 : Bool) : (nibbleOf b3 b2 b1 b0).getLsbD 1 = b1 := by
  revert b3 b2 b1 b0; decide

@[simp] theorem nibbleOf_bit0 (b3 b2 b1 b0 : Bool) : (nibbleOf b3 b2 b1 b0).getLsbD 0 = b0 := by
  revert b3 b2 b1 b0; decide

@[simp] theorem nibbleOf_getElem3 (b3 b2 b1 b0 : Bool) : (nibbleOf b3 b2 b1 b0)[3] = b3 := by
  revert b3 b2 b1 b0; decide

@[simp] theorem nibbleOf_getElem2 (b3 b2 b1 b0 : Bool) : (nibbleOf b3 b2 b1 b0)[2] = b2 := by
  revert b3 b2 b1 b0; decide

@[simp] theorem nibbleOf_getElem1 (b3 b2 b1 b0 : Bool) : (nibbleOf b3 b2 b1 b0)[1] = b1 := by
  revert b3 b2 b1 b0; decide

@[simp] theorem nibbleOf_getElem0 (b3 b2 b1 b0 : Bool) : (nibbleOf b3 b2 b1 b0)[0] = b0 := by
  revert b3 b2 b1 b0; decide

@[simp] theorem nibbleOf_getElems (v : Nibble) : nibbleOf v[3] v[2] v[1] v[0] = v := by
  revert v; decide

@[simp] theorem nibbleOf_bits (v : Nibble) :
    nibbleOf (v.getLsbD 3) (v.getLsbD 2) (v.getLsbD 1) (v.getLsbD 0) = v := by
  revert v; decide

theorem nibbleOf_top (v : Nibble) : nibbleOf (v.getLsbD 3) false false false = v &&& 0b1000 := by
  revert v; decide

@[simp] theorem rowOf_rowCol (r : BitVec 3) (c : Nibble) : rowOf (rowCol r c) = r := by revert r c; decide

@[simp] theorem colOf_rowCol (r : BitVec 3) (c : Nibble) : colOf (rowCol r c) = c := by revert r c; decide

@[simp] theorem rowCol_rowOf_colOf (a : Addr) : rowCol (rowOf a) (colOf a) = a := by revert a; decide

theorem rowCol_toNat (r : BitVec 3) (c : Nibble) : (rowCol r c).toNat = r.toNat * 16 + c.toNat := by
  revert r c; decide

@[simp] theorem arHigh_arOf (h : BitVec 2) (m l : Nibble) : arHigh (arOf h m l) = h := by revert h m l; decide

@[simp] theorem arMiddle_arOf (h : BitVec 2) (m l : Nibble) : arMiddle (arOf h m l) = m := by
  revert h m l; decide

@[simp] theorem arLow_arOf (h : BitVec 2) (m l : Nibble) : arLow (arOf h m l) = l := by revert h m l; decide

@[simp] theorem arOf_parts (a : BitVec 10) : arOf (arHigh a) (arMiddle a) (arLow a) = a := by
  have h : (a.extractLsb' 8 2 ++ a.extractLsb' 4 4 : BitVec 6) = a.extractLsb' 4 6 :=
    BitVec.extractLsb'_append_extractLsb'_eq_extractLsb' rfl
  have h' : (a.extractLsb' 4 6 ++ a.extractLsb' 0 4 : BitVec 10) = a.extractLsb' 0 10 :=
    BitVec.extractLsb'_append_extractLsb'_eq_extractLsb' rfl
  rw [arOf, arHigh, arMiddle, arLow]
  erw [h, h']
  simp

@[simp] theorem rplRow_rplOf (r : BitVec 3) (b : Bool) : rplRow (rplOf r b) = r := by revert r b; decide

@[simp] theorem rplOf_bit0 (r : BitVec 3) (b : Bool) : (rplOf r b).getLsbD 0 = b := by revert r b; decide

@[simp] theorem rplOf_getElem0 (r : BitVec 3) (b : Bool) : (rplOf r b)[0] = b := by revert r b; decide

@[simp] theorem rplOf_rplRow_getElem (v : Nibble) : rplOf (rplRow v) v[0] = v := by revert v; decide

@[simp] theorem rplOf_parts (v : Nibble) : rplOf (rplRow v) (v.getLsbD 0) = v := by revert v; decide

theorem setWidth_2_4 (v : Nibble) : (v.setWidth 2).setWidth 4 = v &&& 0b0011 := by revert v; decide

theorem setWidth_3_4 (v : Nibble) : (v.setWidth 3).setWidth 4 = v &&& 0b0111 := by revert v; decide

theorem highNibble_lowNibble (b : Byte) : (highNibble b).toNat * 16 + (lowNibble b).toNat = b.toNat := by
  revert b; decide

theorem nibbleAt_zero_wordOf (a b c d : Nibble) : nibbleAt (wordOf a b c d) 0 = d :=
  BitVec.extractLsb'_append_eq_right

theorem nibbleAt_one_wordOf (a b c d : Nibble) : nibbleAt (wordOf a b c d) 1 = c := by
  have h : nibbleAt (wordOf a b c d) 1 = (a ++ b ++ c : BitVec 12).extractLsb' 0 4 :=
    BitVec.extractLsb'_append_eq_of_le (xhi := (a ++ b ++ c : BitVec 12)) (xlo := d) (by decide)
  exact h.trans BitVec.extractLsb'_append_eq_right

theorem nibbleAt_two_wordOf (a b c d : Nibble) : nibbleAt (wordOf a b c d) 2 = b := by
  have h : nibbleAt (wordOf a b c d) 2 = (a ++ b ++ c : BitVec 12).extractLsb' 4 4 :=
    BitVec.extractLsb'_append_eq_of_le (xhi := (a ++ b ++ c : BitVec 12)) (xlo := d) (by decide)
  have h' : (a ++ b ++ c : BitVec 12).extractLsb' 4 4 = (a ++ b : BitVec 8).extractLsb' 0 4 :=
    BitVec.extractLsb'_append_eq_of_le (xhi := (a ++ b : BitVec 8)) (xlo := c) (by decide)
  exact (h.trans h').trans BitVec.extractLsb'_append_eq_right

theorem nibbleAt_three_wordOf (a b c d : Nibble) : nibbleAt (wordOf a b c d) 3 = a := by
  have h : nibbleAt (wordOf a b c d) 3 = (a ++ b ++ c : BitVec 12).extractLsb' 8 4 :=
    BitVec.extractLsb'_append_eq_of_le (xhi := (a ++ b ++ c : BitVec 12)) (xlo := d) (by decide)
  have h' : (a ++ b ++ c : BitVec 12).extractLsb' 8 4 = (a ++ b : BitVec 8).extractLsb' 4 4 :=
    BitVec.extractLsb'_append_eq_of_le (xhi := (a ++ b : BitVec 8)) (xlo := c) (by decide)
  exact (h.trans h').trans BitVec.extractLsb'_append_eq_left

end Sys2Proof.Machine
end

