-- ==== Sys2Proof/Laws/Memory.lean ====
section
/-! SUPPORT. Laws of memory: read after write, and every operation keeps the canonical form. -/

namespace Sys2Proof.Machine

theorem cellRead_filter_ne (u : Byte) (m : Memory) {a b : Nat} (h : b ≠ a) :
    cellRead u (m.filter fun c => c.1 ≠ a) b = cellRead u m b := by
  induction m with
  | nil => rfl
  | cons c rest ih =>
    obtain ⟨d, v⟩ := c
    by_cases hd : d = a
    · subst hd; simpa [cellRead, h.symm] using ih
    · rw [List.filter_cons_of_pos (by simpa using hd)]
      simp only [cellRead, ih]

theorem cellRead_filter_self (u : Byte) (m : Memory) (a : Nat) :
    cellRead u (m.filter fun c => c.1 ≠ a) a = u := by
  induction m with
  | nil => rfl
  | cons c rest ih =>
    obtain ⟨d, v⟩ := c
    by_cases hd : d = a
    · subst hd; simpa [cellRead] using ih
    · rw [List.filter_cons_of_pos (by simpa using hd)]
      simp only [cellRead, hd, if_false, ih]

theorem cellRead_cellInsert_self (u : Byte) (m : Memory) (a : Nat) (v : Byte)
    (h : ∀ c ∈ m, c.1 ≠ a) : cellRead u (cellInsert (a, v) m) a = v := by
  induction m with
  | nil => simp [cellInsert, cellRead]
  | cons c rest ih =>
    obtain ⟨d, w⟩ := c
    have hd : d ≠ a := h (d, w) (by simp)
    have := ih fun c hc => h c (by simp [hc])
    unfold cellInsert
    split <;> simp_all [cellRead]

theorem cellRead_cellInsert_ne (u : Byte) (m : Memory) {a b : Nat} (v : Byte) (h : b ≠ a) :
    cellRead u (cellInsert (a, v) m) b = cellRead u m b := by
  induction m with
  | nil => simp [cellInsert, cellRead, h.symm]
  | cons c rest ih =>
    obtain ⟨d, w⟩ := c
    unfold cellInsert
    split
    · simp [cellRead, h.symm]
    · simp [cellRead, ih]

/-- Reading the address written gives the value written. -/
theorem cellRead_cellWrite_self (u : Byte) (m : Memory) (a : Nat) (v : Byte) :
    cellRead u (cellWrite u m a v) a = v := by
  unfold cellWrite
  split
  case isTrue hv => rw [hv]; exact cellRead_filter_self u m a
  · exact cellRead_cellInsert_self u _ a v (by simp)

/-- Reading another address gives what it gave before the write. -/
theorem cellRead_cellWrite_ne (u : Byte) (m : Memory) {a b : Nat} (v : Byte) (h : b ≠ a) :
    cellRead u (cellWrite u m a v) b = cellRead u m b := by
  unfold cellWrite
  split
  · exact cellRead_filter_ne u m h
  · simp only [cellRead_cellInsert_ne u _ v h, cellRead_filter_ne u m h]

theorem cellRead_eq_of_mem (u : Byte) {m : Memory} (h : (m.map Prod.fst).Nodup) {a : Nat} {v : Byte}
    (hm : (a, v) ∈ m) : cellRead u m a = v := by
  induction m with
  | nil => simp at hm
  | cons c rest ih =>
    obtain ⟨d, w⟩ := c
    simp only [List.map_cons, List.nodup_cons] at h
    rcases List.mem_cons.1 hm with hc | hr
    · cases hc; simp [cellRead]
    · have hd : d ≠ a := fun hda => h.1 (hda ▸ List.mem_map.2 ⟨_, hr, rfl⟩)
      simpa [cellRead, hd] using ih h.2 hr

theorem cellRead_eq_unlisted (u : Byte) {m : Memory} {a : Nat} (h : a ∉ m.map Prod.fst) :
    cellRead u m a = u := by
  induction m with
  | nil => rfl
  | cons c rest ih =>
    obtain ⟨d, w⟩ := c
    simp only [List.map_cons, List.mem_cons, not_or] at h
    simpa [cellRead, Ne.symm h.1] using ih h.2

/-- A filled memory reads as its contents. -/
theorem cellRead_cellFill (u : Byte) {size : Nat} (f : Nat → Byte) {a : Nat} (h : a < size) :
    cellRead u (cellFill u size f) a = f a := by
  have hnodup : ((cellFill u size f).map Prod.fst).Nodup := by
    refine List.Nodup.sublist (List.filter_sublist.map Prod.fst) ?_
    rw [List.map_map]
    simpa [Function.comp_def] using List.nodup_range
  by_cases hv : f a = u
  · rw [cellRead_eq_unlisted, hv]
    simp only [cellFill, List.mem_map, List.mem_filter, List.mem_range, not_exists, not_and]
    rintro ⟨b, v⟩ ⟨⟨c, -, hc⟩, hne⟩ rfl
    cases hc
    simp_all
  · exact cellRead_eq_of_mem u hnodup (by simp [cellFill, h, hv])

/-! ## The canonical form -/

theorem addressesRise_iff_pairwise (m : Memory) :
    addressesRise m = true ↔ m.Pairwise fun c d => c.1 < d.1 := by
  induction m with
  | nil => simp [addressesRise]
  | cons c rest ih =>
    cases rest with
    | nil => simp [addressesRise]
    | cons d rest =>
      rw [addressesRise, Bool.and_eq_true, ih, List.pairwise_cons (a := c)]
      constructor
      · rintro ⟨h, hp⟩
        refine ⟨fun e he => ?_, hp⟩
        have hcd : c.1 < d.1 := of_decide_eq_true h
        rcases List.mem_cons.1 he with rfl | he
        · exact hcd
        · exact lt_trans hcd ((List.pairwise_cons.1 hp).1 e he)
      · rintro ⟨h, hp⟩
        exact ⟨decide_eq_true (h d (by simp)), hp⟩

theorem mem_cellInsert {c e : Host.Cell} {m : Memory} : e ∈ cellInsert c m ↔ e = c ∨ e ∈ m := by
  induction m with
  | nil => simp [cellInsert]
  | cons d rest ih =>
    unfold cellInsert
    split
    · simp
    · simp only [List.mem_cons, ih]; tauto

theorem pairwise_cellInsert {c : Host.Cell} {m : Memory} (h : m.Pairwise fun c d => c.1 < d.1)
    (hne : ∀ d ∈ m, d.1 ≠ c.1) : (cellInsert c m).Pairwise fun c d => c.1 < d.1 := by
  induction m with
  | nil => simp [cellInsert]
  | cons d rest ih =>
    obtain ⟨hd, hr⟩ := List.pairwise_cons.1 h
    unfold cellInsert
    split
    case isTrue hcd =>
      refine List.pairwise_cons.2 ⟨fun e he => ?_, h⟩
      rcases List.mem_cons.1 he with rfl | he
      · exact hcd
      · exact lt_trans hcd (hd e he)
    case isFalse hcd =>
      refine List.pairwise_cons.2 ⟨fun e he => ?_, ih hr fun d hd => hne d (by simp [hd])⟩
      rcases mem_cellInsert.1 he with rfl | he
      · exact lt_of_le_of_ne (not_lt.1 hcd) (hne d (by simp))
      · exact hd e he

theorem Memory.wf_iff (u top : Byte) (size : Nat) (m : Memory) :
    Memory.wf u top size m = true ↔
      (m.Pairwise fun c d => c.1 < d.1) ∧ ∀ c ∈ m, c.1 < size ∧ c.2 ≠ u ∧ c.2 ≤ top := by
  simp [Memory.wf, addressesRise_iff_pairwise, and_assoc]

/-- A write inside the memory, of a value it may hold, keeps the canonical form. -/
theorem cellWrite_wf {u top : Byte} {size : Nat} {m : Memory} (h : Memory.wf u top size m = true)
    {a : Nat} {v : Byte} (ha : a < size) (hv : v ≤ top) :
    Memory.wf u top size (cellWrite u m a v) = true := by
  rw [Memory.wf_iff] at h ⊢
  have hsub : (m.filter fun c => c.1 ≠ a).Pairwise fun c d => c.1 < d.1 := h.1.sublist List.filter_sublist
  unfold cellWrite
  split
  · exact ⟨hsub, fun c hc => h.2 c (List.mem_filter.1 hc).1⟩
  case isFalse hvu =>
    refine ⟨pairwise_cellInsert hsub (by simp), fun c hc => ?_⟩
    rcases mem_cellInsert.1 hc with rfl | hc
    · exact ⟨ha, hvu, hv⟩
    · exact h.2 c (List.mem_filter.1 hc).1

/-- A filled memory is in canonical form. -/
theorem cellFill_wf (u top : Byte) (size : Nat) (f : Nat → Byte) (hf : ∀ a, f a ≤ top) :
    Memory.wf u top size (cellFill u size f) = true := by
  rw [Memory.wf_iff]
  constructor
  · refine List.Pairwise.sublist List.filter_sublist ?_
    rw [List.pairwise_map]
    exact List.pairwise_lt_range
  · intro c hc
    obtain ⟨hm, hne⟩ := List.mem_filter.1 hc
    obtain ⟨a, ha, rfl⟩ := List.mem_map.1 hm
    exact ⟨List.mem_range.1 ha, by simpa using hne, hf a⟩

/-! ## RAM and program memory -/

theorem ramRead_ramWrite_self (m : Memory) (a : Nat) (v : Nibble) : ramRead (ramWrite m a v) a = v := by
  simp [ramRead, ramWrite, cellRead_cellWrite_self]

theorem ramRead_ramWrite_ne (m : Memory) {a b : Nat} (v : Nibble) (h : b ≠ a) :
    ramRead (ramWrite m a v) b = ramRead m b := by
  simp [ramRead, ramWrite, cellRead_cellWrite_ne _ _ _ h]

theorem ramRead_ramFill (f : Nat → Nibble) {a : Nat} (h : a < 64) : ramRead (ramFill f) a = f a := by
  simp [ramRead, ramFill, cellRead_cellFill _ _ h]

theorem nibble_as_byte_le (v : Nibble) : v.setWidth 8 ≤ (0x0F : Byte) := by
  rw [BitVec.le_def, BitVec.toNat_setWidth]
  have := v.isLt
  rw [Nat.mod_eq_of_lt (by omega)]
  exact Nat.le_of_lt_succ this

/-- A RAM write keeps the canonical form of RAM. -/
theorem ramWrite_wf {m : Memory} (h : Memory.wf ramUnlisted 0x0F 0x40 m = true) {a : Nat} (ha : a < 64)
    (v : Nibble) : Memory.wf ramUnlisted 0x0F 0x40 (ramWrite m a v) = true :=
  cellWrite_wf h ha (nibble_as_byte_le v)

/-- RAM filled by a reset is in canonical form. -/
theorem ramFill_wf (f : Nat → Nibble) : Memory.wf ramUnlisted 0x0F 0x40 (ramFill f) = true :=
  cellFill_wf _ _ _ _ fun a => nibble_as_byte_le (f a)

/-- Putting a word into the ROM keeps the canonical form of program memory. -/
theorem romStore_wf {m : Memory} (h : Memory.wf romUnlisted 0xFF 0x600 m = true) {a : ProgAddr}
    (ha : a.toNat < 0x300) (w : Word) : Memory.wf romUnlisted 0xFF 0x600 (romStore m a w) = true := by
  have top (v : Byte) : v ≤ (0xFF : Byte) := by
    rw [BitVec.le_def]; exact Nat.le_of_lt_succ v.isLt
  exact cellWrite_wf (cellWrite_wf h (by omega) (top _)) (by omega) (top _)

/-- A word put into the ROM is the word read there. -/
theorem romWord_romStore (m : Memory) {a : ProgAddr} (ha : a.toNat < 0x300) (w : Word) :
    romWord (romStore m a w) a = w := by
  have hne : 2 * a.toNat ≠ 2 * a.toNat + 1 := by omega
  simp only [romWord, romStore, ha, if_true, cellRead_cellWrite_self, cellRead_cellWrite_ne _ _ _ hne]
  have h := BitVec.extractLsb'_append_extractLsb'_eq_extractLsb' (x := w) (start₁ := 0) (start₂ := 8) (len₁ := 8)
    (len₂ := 8) rfl
  simpa using h

end Sys2Proof.Machine
end

