-- ==== Sys2Proof/Laws/State.lean ====
section
/-! SUPPORT. One lemma per field per update of the state, true by rfl, so that no later proof unfolds an update. -/

namespace Sys2Proof.Machine

variable (s : State)

/-! ## advance -/

@[simp] theorem advance_pc : (s.advance).pc = s.pc + 1 := rfl
@[simp] theorem advance_rom : (s.advance).rom = s.rom := rfl
@[simp] theorem advance_ram : (s.advance).ram = s.ram := rfl
@[simp] theorem advance_ar : (s.advance).ar = s.ar := rfl
@[simp] theorem advance_wr : (s.advance).wr = s.wr := rfl
@[simp] theorem advance_ix : (s.advance).ix = s.ix := rfl
@[simp] theorem advance_mpe : (s.advance).mpe = s.mpe := rfl
@[simp] theorem advance_rp : (s.advance).rp = s.rp := rfl
@[simp] theorem advance_psw : (s.advance).psw = s.psw := rfl
@[simp] theorem advance_sp : (s.advance).sp = s.sp := rfl
@[simp] theorem advance_asr : (s.advance).asr = s.asr := rfl
@[simp] theorem advance_intsk : (s.advance).intsk = s.intsk := rfl
@[simp] theorem advance_inte : (s.advance).inte = s.inte := rfl
@[simp] theorem advance_eiHold : (s.advance).eiHold = s.eiHold := rfl
@[simp] theorem advance_irq : (s.advance).irq = s.irq := rfl
@[simp] theorem advance_irqTm : (s.advance).irqTm = s.irqTm := rfl
@[simp] theorem advance_irqSio : (s.advance).irqSio = s.irqSio := rfl
@[simp] theorem advance_ip : (s.advance).ip = s.ip := rfl
@[simp] theorem advance_ipTm : (s.advance).ipTm = s.ipTm := rfl
@[simp] theorem advance_ipSio : (s.advance).ipSio = s.ipSio := rfl
@[simp] theorem advance_iegmd : (s.advance).iegmd = s.iegmd := rfl
@[simp] theorem advance_pdresen : (s.advance).pdresen = s.pdresen := rfl
@[simp] theorem advance_timer : (s.advance).timer = s.timer := rfl
@[simp] theorem advance_sio : (s.advance).sio = s.sio := rfl
@[simp] theorem advance_ports : (s.advance).ports = s.ports := rfl
@[simp] theorem advance_pins : (s.advance).pins = s.pins := rfl
@[simp] theorem advance_standby : (s.advance).standby = s.standby := rfl
@[simp] theorem advance_schedule : (s.advance).schedule = s.schedule := rfl
@[simp] theorem advance_drawClock : (s.advance).drawClock = s.drawClock := rfl

/-! ## skipIf -/

@[simp] theorem skipIf_pc (c : Bool) : (s.skipIf c).pc = s.pc + if c then 2 else 1 := rfl
@[simp] theorem skipIf_rom (c : Bool) : (s.skipIf c).rom = s.rom := rfl
@[simp] theorem skipIf_ram (c : Bool) : (s.skipIf c).ram = s.ram := rfl
@[simp] theorem skipIf_ar (c : Bool) : (s.skipIf c).ar = s.ar := rfl
@[simp] theorem skipIf_wr (c : Bool) : (s.skipIf c).wr = s.wr := rfl
@[simp] theorem skipIf_ix (c : Bool) : (s.skipIf c).ix = s.ix := rfl
@[simp] theorem skipIf_mpe (c : Bool) : (s.skipIf c).mpe = s.mpe := rfl
@[simp] theorem skipIf_rp (c : Bool) : (s.skipIf c).rp = s.rp := rfl
@[simp] theorem skipIf_psw (c : Bool) : (s.skipIf c).psw = s.psw := rfl
@[simp] theorem skipIf_sp (c : Bool) : (s.skipIf c).sp = s.sp := rfl
@[simp] theorem skipIf_asr (c : Bool) : (s.skipIf c).asr = s.asr := rfl
@[simp] theorem skipIf_intsk (c : Bool) : (s.skipIf c).intsk = s.intsk := rfl
@[simp] theorem skipIf_inte (c : Bool) : (s.skipIf c).inte = s.inte := rfl
@[simp] theorem skipIf_eiHold (c : Bool) : (s.skipIf c).eiHold = s.eiHold := rfl
@[simp] theorem skipIf_irq (c : Bool) : (s.skipIf c).irq = s.irq := rfl
@[simp] theorem skipIf_irqTm (c : Bool) : (s.skipIf c).irqTm = s.irqTm := rfl
@[simp] theorem skipIf_irqSio (c : Bool) : (s.skipIf c).irqSio = s.irqSio := rfl
@[simp] theorem skipIf_ip (c : Bool) : (s.skipIf c).ip = s.ip := rfl
@[simp] theorem skipIf_ipTm (c : Bool) : (s.skipIf c).ipTm = s.ipTm := rfl
@[simp] theorem skipIf_ipSio (c : Bool) : (s.skipIf c).ipSio = s.ipSio := rfl
@[simp] theorem skipIf_iegmd (c : Bool) : (s.skipIf c).iegmd = s.iegmd := rfl
@[simp] theorem skipIf_pdresen (c : Bool) : (s.skipIf c).pdresen = s.pdresen := rfl
@[simp] theorem skipIf_timer (c : Bool) : (s.skipIf c).timer = s.timer := rfl
@[simp] theorem skipIf_sio (c : Bool) : (s.skipIf c).sio = s.sio := rfl
@[simp] theorem skipIf_ports (c : Bool) : (s.skipIf c).ports = s.ports := rfl
@[simp] theorem skipIf_pins (c : Bool) : (s.skipIf c).pins = s.pins := rfl
@[simp] theorem skipIf_standby (c : Bool) : (s.skipIf c).standby = s.standby := rfl
@[simp] theorem skipIf_schedule (c : Bool) : (s.skipIf c).schedule = s.schedule := rfl
@[simp] theorem skipIf_drawClock (c : Bool) : (s.skipIf c).drawClock = s.drawClock := rfl

/-! ## begin -/

@[simp] theorem begin_pc (l : List Event) : (s.begin l).pc = s.pc := rfl
@[simp] theorem begin_rom (l : List Event) : (s.begin l).rom = s.rom := rfl
@[simp] theorem begin_ram (l : List Event) : (s.begin l).ram = s.ram := rfl
@[simp] theorem begin_ar (l : List Event) : (s.begin l).ar = s.ar := rfl
@[simp] theorem begin_wr (l : List Event) : (s.begin l).wr = s.wr := rfl
@[simp] theorem begin_ix (l : List Event) : (s.begin l).ix = s.ix := rfl
@[simp] theorem begin_mpe (l : List Event) : (s.begin l).mpe = s.mpe := rfl
@[simp] theorem begin_rp (l : List Event) : (s.begin l).rp = s.rp := rfl
@[simp] theorem begin_psw (l : List Event) : (s.begin l).psw = s.psw := rfl
@[simp] theorem begin_sp (l : List Event) : (s.begin l).sp = s.sp := rfl
@[simp] theorem begin_asr (l : List Event) : (s.begin l).asr = s.asr := rfl
@[simp] theorem begin_intsk (l : List Event) : (s.begin l).intsk = s.intsk := rfl
@[simp] theorem begin_inte (l : List Event) : (s.begin l).inte = s.inte := rfl
@[simp] theorem begin_eiHold (l : List Event) : (s.begin l).eiHold = s.eiHold := rfl
@[simp] theorem begin_irq (l : List Event) : (s.begin l).irq = s.irq := rfl
@[simp] theorem begin_irqTm (l : List Event) : (s.begin l).irqTm = s.irqTm := rfl
@[simp] theorem begin_irqSio (l : List Event) : (s.begin l).irqSio = s.irqSio := rfl
@[simp] theorem begin_ip (l : List Event) : (s.begin l).ip = s.ip := rfl
@[simp] theorem begin_ipTm (l : List Event) : (s.begin l).ipTm = s.ipTm := rfl
@[simp] theorem begin_ipSio (l : List Event) : (s.begin l).ipSio = s.ipSio := rfl
@[simp] theorem begin_iegmd (l : List Event) : (s.begin l).iegmd = s.iegmd := rfl
@[simp] theorem begin_pdresen (l : List Event) : (s.begin l).pdresen = s.pdresen := rfl
@[simp] theorem begin_timer (l : List Event) : (s.begin l).timer = s.timer := rfl
@[simp] theorem begin_sio (l : List Event) : (s.begin l).sio = s.sio := rfl
@[simp] theorem begin_ports (l : List Event) : (s.begin l).ports = s.ports := rfl
@[simp] theorem begin_pins (l : List Event) : (s.begin l).pins = s.pins := rfl
@[simp] theorem begin_standby (l : List Event) : (s.begin l).standby = s.standby := rfl
@[simp] theorem begin_schedule (l : List Event) : (s.begin l).schedule = l := rfl
@[simp] theorem begin_drawClock (l : List Event) : (s.begin l).drawClock = s.drawClock + 1 := rfl

/-! ## withDbf -/

@[simp] theorem withDbf_pc (v : Word) : (s.withDbf v).pc = s.pc := rfl
@[simp] theorem withDbf_rom (v : Word) : (s.withDbf v).rom = s.rom := rfl
@[simp] theorem withDbf_ar (v : Word) : (s.withDbf v).ar = s.ar := rfl
@[simp] theorem withDbf_wr (v : Word) : (s.withDbf v).wr = s.wr := rfl
@[simp] theorem withDbf_ix (v : Word) : (s.withDbf v).ix = s.ix := rfl
@[simp] theorem withDbf_mpe (v : Word) : (s.withDbf v).mpe = s.mpe := rfl
@[simp] theorem withDbf_rp (v : Word) : (s.withDbf v).rp = s.rp := rfl
@[simp] theorem withDbf_psw (v : Word) : (s.withDbf v).psw = s.psw := rfl
@[simp] theorem withDbf_sp (v : Word) : (s.withDbf v).sp = s.sp := rfl
@[simp] theorem withDbf_asr (v : Word) : (s.withDbf v).asr = s.asr := rfl
@[simp] theorem withDbf_intsk (v : Word) : (s.withDbf v).intsk = s.intsk := rfl
@[simp] theorem withDbf_inte (v : Word) : (s.withDbf v).inte = s.inte := rfl
@[simp] theorem withDbf_eiHold (v : Word) : (s.withDbf v).eiHold = s.eiHold := rfl
@[simp] theorem withDbf_irq (v : Word) : (s.withDbf v).irq = s.irq := rfl
@[simp] theorem withDbf_irqTm (v : Word) : (s.withDbf v).irqTm = s.irqTm := rfl
@[simp] theorem withDbf_irqSio (v : Word) : (s.withDbf v).irqSio = s.irqSio := rfl
@[simp] theorem withDbf_ip (v : Word) : (s.withDbf v).ip = s.ip := rfl
@[simp] theorem withDbf_ipTm (v : Word) : (s.withDbf v).ipTm = s.ipTm := rfl
@[simp] theorem withDbf_ipSio (v : Word) : (s.withDbf v).ipSio = s.ipSio := rfl
@[simp] theorem withDbf_iegmd (v : Word) : (s.withDbf v).iegmd = s.iegmd := rfl
@[simp] theorem withDbf_pdresen (v : Word) : (s.withDbf v).pdresen = s.pdresen := rfl
@[simp] theorem withDbf_timer (v : Word) : (s.withDbf v).timer = s.timer := rfl
@[simp] theorem withDbf_sio (v : Word) : (s.withDbf v).sio = s.sio := rfl
@[simp] theorem withDbf_ports (v : Word) : (s.withDbf v).ports = s.ports := rfl
@[simp] theorem withDbf_pins (v : Word) : (s.withDbf v).pins = s.pins := rfl
@[simp] theorem withDbf_standby (v : Word) : (s.withDbf v).standby = s.standby := rfl
@[simp] theorem withDbf_schedule (v : Word) : (s.withDbf v).schedule = s.schedule := rfl
@[simp] theorem withDbf_drawClock (v : Word) : (s.withDbf v).drawClock = s.drawClock := rfl

/-! ## withDbfLow -/

@[simp] theorem withDbfLow_pc (v : Byte) : (s.withDbfLow v).pc = s.pc := rfl
@[simp] theorem withDbfLow_rom (v : Byte) : (s.withDbfLow v).rom = s.rom := rfl
@[simp] theorem withDbfLow_ar (v : Byte) : (s.withDbfLow v).ar = s.ar := rfl
@[simp] theorem withDbfLow_wr (v : Byte) : (s.withDbfLow v).wr = s.wr := rfl
@[simp] theorem withDbfLow_ix (v : Byte) : (s.withDbfLow v).ix = s.ix := rfl
@[simp] theorem withDbfLow_mpe (v : Byte) : (s.withDbfLow v).mpe = s.mpe := rfl
@[simp] theorem withDbfLow_rp (v : Byte) : (s.withDbfLow v).rp = s.rp := rfl
@[simp] theorem withDbfLow_psw (v : Byte) : (s.withDbfLow v).psw = s.psw := rfl
@[simp] theorem withDbfLow_sp (v : Byte) : (s.withDbfLow v).sp = s.sp := rfl
@[simp] theorem withDbfLow_asr (v : Byte) : (s.withDbfLow v).asr = s.asr := rfl
@[simp] theorem withDbfLow_intsk (v : Byte) : (s.withDbfLow v).intsk = s.intsk := rfl
@[simp] theorem withDbfLow_inte (v : Byte) : (s.withDbfLow v).inte = s.inte := rfl
@[simp] theorem withDbfLow_eiHold (v : Byte) : (s.withDbfLow v).eiHold = s.eiHold := rfl
@[simp] theorem withDbfLow_irq (v : Byte) : (s.withDbfLow v).irq = s.irq := rfl
@[simp] theorem withDbfLow_irqTm (v : Byte) : (s.withDbfLow v).irqTm = s.irqTm := rfl
@[simp] theorem withDbfLow_irqSio (v : Byte) : (s.withDbfLow v).irqSio = s.irqSio := rfl
@[simp] theorem withDbfLow_ip (v : Byte) : (s.withDbfLow v).ip = s.ip := rfl
@[simp] theorem withDbfLow_ipTm (v : Byte) : (s.withDbfLow v).ipTm = s.ipTm := rfl
@[simp] theorem withDbfLow_ipSio (v : Byte) : (s.withDbfLow v).ipSio = s.ipSio := rfl
@[simp] theorem withDbfLow_iegmd (v : Byte) : (s.withDbfLow v).iegmd = s.iegmd := rfl
@[simp] theorem withDbfLow_pdresen (v : Byte) : (s.withDbfLow v).pdresen = s.pdresen := rfl
@[simp] theorem withDbfLow_timer (v : Byte) : (s.withDbfLow v).timer = s.timer := rfl
@[simp] theorem withDbfLow_sio (v : Byte) : (s.withDbfLow v).sio = s.sio := rfl
@[simp] theorem withDbfLow_ports (v : Byte) : (s.withDbfLow v).ports = s.ports := rfl
@[simp] theorem withDbfLow_pins (v : Byte) : (s.withDbfLow v).pins = s.pins := rfl
@[simp] theorem withDbfLow_standby (v : Byte) : (s.withDbfLow v).standby = s.standby := rfl
@[simp] theorem withDbfLow_schedule (v : Byte) : (s.withDbfLow v).schedule = s.schedule := rfl
@[simp] theorem withDbfLow_drawClock (v : Byte) : (s.withDbfLow v).drawClock = s.drawClock := rfl

/-! ## serialOpen -/

@[simp] theorem serialOpen_pc : (serialOpen s).pc = s.pc := rfl
@[simp] theorem serialOpen_rom : (serialOpen s).rom = s.rom := rfl
@[simp] theorem serialOpen_ram : (serialOpen s).ram = s.ram := rfl
@[simp] theorem serialOpen_ar : (serialOpen s).ar = s.ar := rfl
@[simp] theorem serialOpen_wr : (serialOpen s).wr = s.wr := rfl
@[simp] theorem serialOpen_ix : (serialOpen s).ix = s.ix := rfl
@[simp] theorem serialOpen_mpe : (serialOpen s).mpe = s.mpe := rfl
@[simp] theorem serialOpen_rp : (serialOpen s).rp = s.rp := rfl
@[simp] theorem serialOpen_psw : (serialOpen s).psw = s.psw := rfl
@[simp] theorem serialOpen_sp : (serialOpen s).sp = s.sp := rfl
@[simp] theorem serialOpen_asr : (serialOpen s).asr = s.asr := rfl
@[simp] theorem serialOpen_intsk : (serialOpen s).intsk = s.intsk := rfl
@[simp] theorem serialOpen_inte : (serialOpen s).inte = s.inte := rfl
@[simp] theorem serialOpen_eiHold : (serialOpen s).eiHold = s.eiHold := rfl
@[simp] theorem serialOpen_irq : (serialOpen s).irq = s.irq := rfl
@[simp] theorem serialOpen_irqTm : (serialOpen s).irqTm = s.irqTm := rfl
@[simp] theorem serialOpen_irqSio : (serialOpen s).irqSio = s.freeBit .irqSio := rfl
@[simp] theorem serialOpen_ip : (serialOpen s).ip = s.ip := rfl
@[simp] theorem serialOpen_ipTm : (serialOpen s).ipTm = s.ipTm := rfl
@[simp] theorem serialOpen_ipSio : (serialOpen s).ipSio = s.ipSio := rfl
@[simp] theorem serialOpen_iegmd : (serialOpen s).iegmd = s.iegmd := rfl
@[simp] theorem serialOpen_pdresen : (serialOpen s).pdresen = s.pdresen := rfl
@[simp] theorem serialOpen_timer : (serialOpen s).timer = s.timer := rfl
@[simp] theorem serialOpen_ports : (serialOpen s).ports = s.ports.withSoLatch (s.freeBit .soLatch) := rfl
@[simp] theorem serialOpen_pins : (serialOpen s).pins = s.pins := rfl
@[simp] theorem serialOpen_standby : (serialOpen s).standby = s.standby := rfl
@[simp] theorem serialOpen_schedule : (serialOpen s).schedule = s.schedule := rfl
@[simp] theorem serialOpen_drawClock : (serialOpen s).drawClock = s.drawClock := rfl

/-! ## resetDefined -/

@[simp] theorem resetDefined_pc : (resetDefined s).pc = s.pc := rfl
@[simp] theorem resetDefined_rom : (resetDefined s).rom = s.rom := rfl
@[simp] theorem resetDefined_ram : (resetDefined s).ram = s.ram := rfl
@[simp] theorem resetDefined_ar : (resetDefined s).ar = 0 := rfl
@[simp] theorem resetDefined_wr : (resetDefined s).wr = s.wr := rfl
@[simp] theorem resetDefined_ix : (resetDefined s).ix = 0 := rfl
@[simp] theorem resetDefined_mpe : (resetDefined s).mpe = false := rfl
@[simp] theorem resetDefined_rp : (resetDefined s).rp = 0 := rfl
@[simp] theorem resetDefined_psw : (resetDefined s).psw = Psw.clear := rfl
@[simp] theorem resetDefined_sp : (resetDefined s).sp = 5 := rfl
@[simp] theorem resetDefined_asr : (resetDefined s).asr = s.asr := rfl
@[simp] theorem resetDefined_intsk : (resetDefined s).intsk = s.intsk := rfl
@[simp] theorem resetDefined_inte : (resetDefined s).inte = false := rfl
@[simp] theorem resetDefined_eiHold : (resetDefined s).eiHold = false := rfl
@[simp] theorem resetDefined_irq : (resetDefined s).irq = false := rfl
@[simp] theorem resetDefined_irqTm : (resetDefined s).irqTm = true := rfl
@[simp] theorem resetDefined_irqSio : (resetDefined s).irqSio = false := rfl
@[simp] theorem resetDefined_ip : (resetDefined s).ip = false := rfl
@[simp] theorem resetDefined_ipTm : (resetDefined s).ipTm = false := rfl
@[simp] theorem resetDefined_ipSio : (resetDefined s).ipSio = false := rfl
@[simp] theorem resetDefined_iegmd : (resetDefined s).iegmd = 0 := rfl
@[simp] theorem resetDefined_pdresen : (resetDefined s).pdresen = false := rfl
@[simp] theorem resetDefined_ports : (resetDefined s).ports = Ports.reset := rfl
@[simp] theorem resetDefined_pins : (resetDefined s).pins = s.pins := rfl
@[simp] theorem resetDefined_standby : (resetDefined s).standby = s.standby := rfl
@[simp] theorem resetDefined_schedule : (resetDefined s).schedule = s.schedule := rfl
@[simp] theorem resetDefined_drawClock : (resetDefined s).drawClock = s.drawClock := rfl

/-! ## stackReset -/

@[simp] theorem stackReset_pc (e : StackEvent) : (stackReset s e).pc = 0 := rfl
@[simp] theorem stackReset_rom (e : StackEvent) : (stackReset s e).rom = s.rom := rfl
@[simp] theorem stackReset_ram (e : StackEvent) :
    (stackReset s e).ram = ramFill fun a => s.freeNibble (.ram a) := rfl
@[simp] theorem stackReset_ar (e : StackEvent) : (stackReset s e).ar = 0 := rfl
@[simp] theorem stackReset_wr (e : StackEvent) : (stackReset s e).wr = s.freeNibble .wr := rfl
@[simp] theorem stackReset_ix (e : StackEvent) : (stackReset s e).ix = 0 := rfl
@[simp] theorem stackReset_mpe (e : StackEvent) : (stackReset s e).mpe = false := rfl
@[simp] theorem stackReset_rp (e : StackEvent) : (stackReset s e).rp = 0 := rfl
@[simp] theorem stackReset_psw (e : StackEvent) : (stackReset s e).psw = Psw.clear := rfl
@[simp] theorem stackReset_sp (e : StackEvent) : (stackReset s e).sp = 5 := rfl
@[simp] theorem stackReset_intsk (e : StackEvent) : (stackReset s e).intsk = s.freePsw .intsk := rfl
@[simp] theorem stackReset_inte (e : StackEvent) : (stackReset s e).inte = false := rfl
@[simp] theorem stackReset_eiHold (e : StackEvent) : (stackReset s e).eiHold = false := rfl
@[simp] theorem stackReset_irq (e : StackEvent) : (stackReset s e).irq = s.irq := rfl
@[simp] theorem stackReset_irqTm (e : StackEvent) : (stackReset s e).irqTm = s.irqTm := rfl
@[simp] theorem stackReset_irqSio (e : StackEvent) : (stackReset s e).irqSio = s.irqSio := rfl
@[simp] theorem stackReset_ip (e : StackEvent) : (stackReset s e).ip = s.ip := rfl
@[simp] theorem stackReset_ipTm (e : StackEvent) : (stackReset s e).ipTm = s.ipTm := rfl
@[simp] theorem stackReset_ipSio (e : StackEvent) : (stackReset s e).ipSio = s.ipSio := rfl
@[simp] theorem stackReset_iegmd (e : StackEvent) : (stackReset s e).iegmd = s.iegmd := rfl
@[simp] theorem stackReset_pdresen (e : StackEvent) : (stackReset s e).pdresen = s.pdresen := rfl
@[simp] theorem stackReset_pins (e : StackEvent) : (stackReset s e).pins = s.pins := rfl
@[simp] theorem stackReset_standby (e : StackEvent) : (stackReset s e).standby = s.standby := rfl
@[simp] theorem stackReset_schedule (e : StackEvent) : (stackReset s e).schedule = s.schedule := rfl
@[simp] theorem stackReset_drawClock (e : StackEvent) : (stackReset s e).drawClock = s.drawClock := rfl

end Sys2Proof.Machine
end

