-- ==== Sys2Proof/Laws/Ops.lean ====
section
/-! SUPPORT. What each shared operation does, said once. -/

namespace Sys2Proof.Machine

/-! ## Data memory -/

/-- Two addresses that share a place are one address, but for the empty area. -/
theorem dmPlace_injective : ∀ a b : Addr, dmPlace a ≠ .empty → dmPlace b = dmPlace a → b = a := by
  decide

theorem dmPlace_ram {a : Addr} (h : a.toNat < 0x40) : dmPlace a = .ram a.toNat := by
  simp [dmPlace, h]

/-- The bits of a place that hold what is written to it. -/
theorem writableBits_eq (a : Addr) : writableBits a =
    match dmPlace a with
    | .empty => 0
    | .portE => 0b0011
    | .ar3 => 0
    | .ar2 => 0b0011
    | .bank => 0
    | .ixh => 0b1000
    | .ixm => 0b0111
    | .rph => 0
    | _ => 0b1111 := by
  revert a; decide

theorem nibble_and_all (v : Nibble) : v &&& 0b1111 = v := by revert v; decide

theorem nibble_and_none (v : Nibble) : v &&& 0 = 0 := by revert v; decide

/-- A write is stored in the writable bits of its address. -/
theorem stored_memWrite_self (s : State) (a : Addr) (v : Nibble) :
    stored (memWrite s a v) a = v &&& writableBits a := by
  rw [writableBits_eq]
  unfold stored memWrite
  generalize dmPlace a = p
  cases p <;>
    simp only [ramRead_ramWrite_self, nibble_and_all, setWidth_2_4, setWidth_3_4, nibbleOf_top, nibbleOf_bits,
      rplOf_parts, arHigh_arOf, arMiddle_arOf, arLow_arOf, rowOf_rowCol, colOf_rowCol, Psw.withNibble,
      nibble_and_none]

/-- A write leaves what is stored at every other address. -/
theorem stored_memWrite_ne (s : State) {a b : Addr} (v : Nibble) (h : b ≠ a) :
    stored (memWrite s a v) b = stored s b := by
  by_cases he : dmPlace a = .empty
  · simp [memWrite, he]
  have hp : dmPlace b ≠ dmPlace a := fun hab => h (dmPlace_injective a b he hab)
  unfold stored memWrite
  revert hp
  generalize dmPlace a = p
  generalize dmPlace b = q
  intro hp
  cases p <;> cases q <;>
    first
    | rfl
    | exact absurd rfl hp
    | exact ramRead_ramWrite_ne _ _ fun hn => hp (hn ▸ rfl)
    | simp

/-- What an operand read gives is decided by what is stored there and by what lies outside data memory. -/
theorem memRead_eq_of_stored {s t : State} (hout : KeepsOutside s t) {a : Addr} (h : stored t a = stored s a) (k : Nat) :
    memRead t k a = memRead s k a := by
  unfold KeepsOutside State.outsideData at hout
  simp only [State.mk.injEq, Ports.mk.injEq] at hout
  obtain ⟨-, -, -, -, -, -, -, -, -, -, -, -, -, -, -, -, -, -, -, -, -, -, htimer, hsio, ⟨-, -, -, -, -, ha, hb, hc, hd, he⟩,
    hpins, -, -, hclock⟩ := hout
  have latchE {x y : BitVec 2} : x.setWidth 4 = y.setWidth 4 → x = y := by revert x y; decide
  unfold stored at h
  unfold memRead
  revert h
  cases dmPlace a
  case portE =>
    intro h
    simp [State.readPortE, State.poePins, State.poeOutside, State.poeLine, State.freeWord, hpins, hclock, he, latchE h]
  all_goals
    simp_all [State.readPortA, State.readPortB, State.readPortC, State.readPortD, State.readPod0,
      State.readPod1, State.readPod2, State.readPod3, State.podPortBit, State.podLine,
      State.freeNibble, State.freeBit, State.freeWord]

/-- A data-memory write leaves everything outside data memory alone. -/
theorem keepsOutside_memWrite (s : State) (a : Addr) (v : Nibble) : KeepsOutside s (memWrite s a v) := by
  unfold KeepsOutside memWrite
  cases dmPlace a <;> rfl

/-- What a data-memory write does: the address takes the writable bits, and nothing else changes. -/
theorem keepsData_memWrite (s : State) (a : Addr) (v : Nibble) : KeepsData s (memWrite s a v) [a] := by
  intro b hb
  have hne : b ≠ a := by simpa using hb
  have h := stored_memWrite_ne s v hne
  exact ⟨h, memRead_eq_of_stored (keepsOutside_memWrite s a v) h⟩

/-- A state whose data memory is kept but at `l`, and whose rest is kept, reads as before but at `l`. -/
theorem keepsData_of_stored {s t : State} (hout : KeepsOutside s t) {l : List Addr}
    (h : ∀ a, a ∉ l → stored t a = stored s a) : KeepsData s t l :=
  fun a ha => ⟨h a ha, memRead_eq_of_stored hout (h a ha)⟩

theorem KeepsData.trans {s t u : State} {l m : List Addr} (h : KeepsData s t l) (h' : KeepsData t u m) :
    KeepsData s u (l ++ m) := by
  intro a ha
  simp only [List.mem_append, not_or] at ha
  exact ⟨((h' a ha.2).1).trans (h a ha.1).1, fun k => ((h' a ha.2).2 k).trans ((h a ha.1).2 k)⟩

theorem KeepsData.mono {s t : State} {l m : List Addr} (h : KeepsData s t l) (hm : ∀ a ∈ l, a ∈ m) :
    KeepsData s t m :=
  fun a ha => h a fun hl => ha (hm a hl)

/-- A write, and the pc at the next address. -/
theorem writesOnly_memWrite (s : State) (a : Addr) (v : Nibble) : WritesOnly s (memWrite s a v).advance a v := by
  refine ⟨stored_memWrite_self s a v, keepsData_memWrite s a v, keepsOutside_memWrite s a v, ?_⟩
  simp only [advance_pc, memWrite]
  cases dmPlace a <;> rfl

/-! ## The flags nibble -/

theorem dmPlace_psw : dmPlace 0x7F = .psw := by decide

theorem dmPlace_rpl : dmPlace 0x7E = .rpl := by decide

theorem stored_psw (s : State) : stored s 0x7F = nibbleOf s.psw.cmp s.psw.cy s.psw.z s.psw.ixe := by
  unfold stored
  rw [dmPlace_psw]

/-- Changing the four flags of 7FH changes what is stored at 7FH alone. -/
theorem keepsData_flags (s : State) (p : Psw) (hb : p.bcd = s.psw.bcd) : KeepsData s { s with psw := p } [0x7F] := by
  refine keepsData_of_stored (show KeepsOutside s { s with psw := p } from rfl) fun a ha => ?_
  have hp : dmPlace a ≠ .psw := fun h => by
    have := dmPlace_injective 0x7F a (by decide) (by rw [h, dmPlace_psw])
    simp [this] at ha
  unfold stored
  revert hp
  cases dmPlace a <;> intro hp <;> first | rfl | exact absurd rfl hp | simp [hb]

/-! ## Arithmetic and rotation -/

/-- What storing an arithmetic result does, once for every instruction that does it. -/
theorem arithStore_ends (s : State) {dst : Addr} (hd : dst ≠ 0x7F) (out : Nibble × Bool) :
    ArithmeticEnds s (arithStore s dst out).advance dst out.1 out.2 := by
  unfold ArithmeticEnds arithStore
  by_cases hc : s.psw.cmp = true
  · simp only [hc, if_true, Bool.true_eq_false, false_implies, true_and, forall_true_left]
    refine ⟨rfl, rfl, ?_, keepsData_flags s _ rfl⟩
    simp only [stored_psw, Psw.afterArith, hc, if_true, advance_psw]
  · have hc' : s.psw.cmp = false := by simpa using hc
    simp only [hc', Bool.false_eq_true, if_false, false_implies, and_true, forall_true_left]
    have hw := writesOnly_memWrite { s with psw := s.psw.afterArith out.1 out.2 } dst out.1
    refine ⟨hw.2.2.2, hw.2.2.1, hw.1, ?_, ?_⟩
    · have h := (hw.2.1 0x7F (by simpa using fun h => hd h.symm)).1
      rw [h, stored_psw]
      simp [Psw.afterArith, hc']
    · exact ((keepsData_flags s (s.psw.afterArith out.1 out.2) rfl).trans hw.2.1).mono (by simp)

/-- What storing a rotated nibble does. -/
theorem rotateStore_ends (s : State) {dst : Addr} (hd : dst ≠ 0x7F) (out : Nibble × Bool) :
    let t := (rotateStore s dst out).advance
    t.pc = s.pc + 1 ∧ KeepsOutside s t ∧ stored t dst = out.1 &&& writableBits dst ∧
      stored t 0x7F = nibbleOf s.psw.cmp out.2 s.psw.z s.psw.ixe ∧ KeepsData s t [dst, 0x7F] := by
  have hw := writesOnly_memWrite { s with psw := { s.psw with cy := out.2 } } dst out.1
  refine ⟨hw.2.2.2, hw.2.2.1, hw.1, ?_, ?_⟩
  · have h := (hw.2.1 0x7F (by simpa using fun h => hd h.symm)).1
    rw [rotateStore, h, stored_psw]
  · exact ((keepsData_flags s { s.psw with cy := out.2 } rfl).trans hw.2.1).mono (by simp)

/-- The end of an instruction that writes flags: refused for the flags' own nibble, else the next address. -/
theorem endUnlessFlags_spec (dst : Addr) (t : State) :
    (dst = 0x7F → endUnlessFlags dst t = .refused .flagDestination) ∧
      (dst ≠ 0x7F → endUnlessFlags dst t = .next t.advance) := by
  unfold endUnlessFlags
  exact ⟨fun h => if_pos h, fun h => if_neg h⟩

theorem notDecimal_iff (bcd : Bool) (a b : Nibble) :
    notDecimal bcd a b = true ↔ bcd = true ∧ (9 < a.toNat ∨ 9 < b.toNat) := by
  simp [notDecimal]

/-- The end of an arithmetic instruction: refused for the flags' own nibble and for operands that are no decimal digits
with BCD = 1, else as `arithStore_ends` says. -/
theorem endArith_spec (s : State) (dst : Addr) (a b : Nibble) (out : Nibble × Bool) :
    (dst = 0x7F → endArith s dst a b out = .refused .flagDestination) ∧
      (dst ≠ 0x7F → s.psw.bcd = true ∧ (9 < a.toNat ∨ 9 < b.toNat) →
        endArith s dst a b out = .refused .decimalOperand) ∧
      (dst ≠ 0x7F → ¬ (s.psw.bcd = true ∧ (9 < a.toNat ∨ 9 < b.toNat)) →
        endArith s dst a b out = .next (arithStore s dst out).advance) := by
  simp only [← notDecimal_iff]
  unfold endArith
  exact ⟨fun h => (if_neg fun hc => hc.1 h).trans ((endUnlessFlags_spec _ _).1 h), fun h hd => if_pos ⟨h, hd⟩,
    fun h hd => (if_neg fun hc => hd hc.2).trans ((endUnlessFlags_spec _ _).2 h)⟩

/-- Binary addition is exact: result and 16 times the carry are the sum. -/
theorem binaryAdd_exact (a b : Nibble) (c : Bool) :
    (binaryAdd a b c).1.toNat + 16 * (binaryAdd a b c).2.toNat = a.toNat + b.toNat + c.toNat := by
  revert a b c; decide

/-- Binary subtraction is exact: result less 16 times the borrow is the difference. -/
theorem binarySub_exact (a b : Nibble) (c : Bool) :
    ((binarySub a b c).1.toNat : Int) - 16 * (binarySub a b c).2.toNat = a.toNat - b.toNat - c.toNat := by
  revert a b c; decide

theorem rotateRight_eq (v : Nibble) (cy : Bool) :
    rotateRight v cy = (nibbleOf cy (v.getLsbD 3) (v.getLsbD 2) (v.getLsbD 1), v.getLsbD 0) := by
  revert v cy; decide

/-! ## The data buffer -/

theorem stored_ram (s : State) {a : Addr} (h : a.toNat < 0x40) : stored s a = ramRead s.ram a.toNat := by
  simp [stored, dmPlace_ram h]

/-- Changing RAM at `l` changes what is stored at `l` alone. -/
theorem keepsData_ram (s : State) (m : Memory) (l : List Addr)
    (h : ∀ a : Addr, a ∉ l → a.toNat < 0x40 → ramRead m a.toNat = ramRead s.ram a.toNat) :
    KeepsData s { s with ram := m } l := by
  refine keepsData_of_stored (show KeepsOutside s { s with ram := m } from rfl) fun a ha => ?_
  by_cases hlt : a.toNat < 0x40
  · rw [stored_ram _ hlt, stored_ram _ hlt]; exact h a ha hlt
  · have hp : ∀ n, dmPlace a ≠ .ram n := by
      intro n hn
      unfold dmPlace at hn
      simp only [hlt, if_false] at hn
      split at hn <;> (try split at hn) <;> cases hn
    unfold stored
    revert hp
    cases dmPlace a <;> intro hp <;> first | rfl | exact absurd rfl (hp _)

/-- A word loaded into DBF: its four nibbles, most significant at 0CH, and nothing else. -/
theorem withDbf_spec (s : State) (v : Word) :
    (stored (s.withDbf v) 0x0C = nibbleAt v 3 ∧ stored (s.withDbf v) 0x0D = nibbleAt v 2 ∧
      stored (s.withDbf v) 0x0E = nibbleAt v 1 ∧ stored (s.withDbf v) 0x0F = nibbleAt v 0) ∧
      KeepsData s (s.withDbf v) [0x0C, 0x0D, 0x0E, 0x0F] ∧ KeepsOutside s (s.withDbf v) := by
  refine ⟨⟨?_, ?_, ?_, ?_⟩, keepsData_ram s _ _ fun a ha _ => ?_, rfl⟩
  · simp [stored_ram, State.withDbf, ramRead_ramWrite_self, ramRead_ramWrite_ne]
  · simp [stored_ram, State.withDbf, ramRead_ramWrite_self, ramRead_ramWrite_ne]
  · simp [stored_ram, State.withDbf, ramRead_ramWrite_self, ramRead_ramWrite_ne]
  · simp [stored_ram, State.withDbf, ramRead_ramWrite_self]
  · have hn (n : Nat) (h : a ≠ BitVec.ofNat 7 n) : a.toNat ≠ n := fun h' => h (by rw [← h', BitVec.ofNat_toNat, BitVec.setWidth_eq])
    simp only [List.mem_cons, List.not_mem_nil, or_false, not_or] at ha
    rw [ramRead_ramWrite_ne _ _ (hn 0x0F ha.2.2.2), ramRead_ramWrite_ne _ _ (hn 0x0E ha.2.2.1),
      ramRead_ramWrite_ne _ _ (hn 0x0D ha.2.1), ramRead_ramWrite_ne _ _ (hn 0x0C ha.1)]

/-- A byte loaded into DBF1:DBF0, and nothing else. -/
theorem withDbfLow_spec (s : State) (v : Byte) :
    (stored (s.withDbfLow v) 0x0E = highNibble v ∧ stored (s.withDbfLow v) 0x0F = lowNibble v) ∧
      KeepsData s (s.withDbfLow v) [0x0E, 0x0F] ∧ KeepsOutside s (s.withDbfLow v) := by
  refine ⟨⟨?_, ?_⟩, keepsData_ram s _ _ fun a ha _ => ?_, rfl⟩
  · simp [stored_ram, State.withDbfLow, ramRead_ramWrite_self, ramRead_ramWrite_ne]
  · simp [stored_ram, State.withDbfLow, ramRead_ramWrite_self]
  · have hn (n : Nat) (h : a ≠ BitVec.ofNat 7 n) : a.toNat ≠ n := fun h' => h (by rw [← h', BitVec.ofNat_toNat, BitVec.setWidth_eq])
    simp only [List.mem_cons, List.not_mem_nil, or_false, not_or] at ha
    rw [ramRead_ramWrite_ne _ _ (hn 0x0F ha.2), ramRead_ramWrite_ne _ _ (hn 0x0E ha.1)]

/-! ## Stack -/

/-- A push with a free level, or the stack reset. -/
theorem withPush_spec (s : State) (v : ProgAddr) (go : State → State) :
    (s.canPush → withPush s v go =
        go { s with sp := s.sp - 1, asr := s.asr.setIfInBounds (s.sp.toNat - 1) v }) ∧
      (¬ s.canPush → ∃ why, withPush s v go = stackReset s why) := by
  unfold withPush push State.canPush
  constructor
  · intro ⟨h1, h5⟩
    have h0 : s.sp ≠ 0 := fun h => by rw [h] at h1; simp at h1
    have h6 : ¬ 6 ≤ s.sp.toNat := by omega
    rw [if_neg h0, if_neg h6]
  · intro h
    by_cases h0 : s.sp = 0
    · exact ⟨.overflow, by simp [h0]⟩
    · have : s.sp.toNat ≠ 0 := fun h' => h0 (BitVec.eq_of_toNat_eq h')
      have h6 : 6 ≤ s.sp.toNat := by omega
      exact ⟨.underflow, by rw [if_neg h0, if_pos h6]⟩

/-- A pop with a pushed level, or the stack reset. -/
theorem withPop_spec (s : State) (go : ProgAddr → State → State) :
    (∀ h : s.sp.toNat < 5, withPop s go = go s.asr[s.sp.toNat] { s with sp := s.sp + 1 }) ∧
      (5 ≤ s.sp.toNat → withPop s go = stackReset s .underflow) := by
  unfold withPop pop State.asrAt
  constructor
  · intro h
    have h5 : ¬ 5 ≤ s.sp.toNat := by omega
    simp [h5, h]
  · intro h
    simp [h]

/-- What a stack reset leaves (60_exceptions.md R270). -/
theorem afterStackReset (s : State) (why : StackEvent) : AfterStackReset s (stackReset s why) := by
  constructor <;> first | rfl | exact ⟨rfl, rfl, rfl⟩ | exact ⟨rfl, rfl, rfl, rfl⟩ | exact ⟨rfl, rfl, rfl, rfl, rfl⟩

/-! ## Interrupts and turns -/

/-- Entry with a free level, or the stack reset. -/
theorem takeInterrupt_spec (s : State) (x : IntSource) :
    (s.canPush → takeInterrupt s x = entered s x) ∧ (¬ s.canPush → ∃ why, takeInterrupt s x = stackReset s why) := by
  unfold takeInterrupt
  refine ⟨fun h => ?_, (withPush_spec s _ _).2⟩
  rw [(withPush_spec s _ _).1 h]
  cases x <;> simp [clearRequest, entered, entryAddress, vectorOf]

/-- The source accepted, in the terms claims use. -/
theorem acceptedSource_eq_some (s : State) (x : IntSource) :
    acceptedSource s = some x ↔ s.inte = true ∧ s.eiHold = false ∧ s.firstWanted x = true := by
  unfold acceptedSource requestedSource State.firstWanted State.wants
  cases s.inte <;> cases s.eiHold <;> cases s.irq <;> cases s.ip <;> cases s.irqTm <;> cases s.ipTm <;>
    cases s.irqSio <;> cases s.ipSio <;> cases x <;> simp

theorem acceptedSource_eq_none (s : State) :
    acceptedSource s = none ↔ (s.inte && !s.eiHold && s.anyWants) = false := by
  unfold acceptedSource requestedSource State.anyWants State.wants
  cases s.inte <;> cases s.eiHold <;> cases s.irq <;> cases s.ip <;> cases s.irqTm <;> cases s.ipTm <;>
    cases s.irqSio <;> cases s.ipSio <;> simp

/-- The CPU's turn, or another agent's move. -/
theorem boundary_spec (s : State) :
    (s.cpuMoves → boundary s = cpuTurn s.turn) ∧
      (∀ e rest, s.schedule = e :: rest → e ≠ .cpu → boundary s = .done (applyEvent e s.turn)) := by
  constructor
  · intro h
    rcases h with h | h
    · simp [boundary, State.begin, State.turn, h]
    · cases hs : s.schedule with
      | nil => simp [hs] at h
      | cons e rest =>
        simp only [hs, List.head?_cons, Option.some.injEq] at h
        subst h
        simp [boundary, hs, State.begin, State.turn]
  · intro e rest hs he
    unfold boundary
    rw [hs]
    cases e <;> simp_all [State.begin, State.turn]

/-- The turn of a running CPU that has an interrupt to accept. -/
theorem boundary_accepts {s : State} (hm : s.cpuMoves) (hr : s.standby = .running) {x : IntSource}
    (hx : acceptedSource s.turn = some x) : boundary s = .done (takeInterrupt s.turn x) := by
  have hr' : s.turn.standby = .running := hr
  rw [(boundary_spec s).1 hm]
  simp only [cpuTurn, hr', hx]

/-- The turn of a running CPU that has none. -/
theorem boundary_executes {s : State} (hm : s.cpuMoves) (hr : s.standby = .running)
    (hx : acceptedSource s.turn = none) : boundary s = .execute { s.turn with eiHold := false } := by
  have hr' : s.turn.standby = .running := hr
  rw [(boundary_spec s).1 hm]
  simp only [cpuTurn, hr', hx]

/-- Everything a step that answers a next state can have been. -/
theorem step_cases {s t : State} (h : step s = .next t) :
    (∃ e rest, s.schedule = e :: rest ∧ e ≠ .cpu ∧ t = applyEvent e s.turn) ∨
      (s.cpuMoves ∧ cpuTurn s.turn = .done t) ∨
      (s.cpuMoves ∧ s.standby = .running ∧ acceptedSource s.turn = none ∧
        ∃ i, decode (romWord s.rom s.pc) = .ok i ∧ exec i { s.turn with eiHold := false } = .next t) := by
  by_cases hm : s.cpuMoves
  · unfold step at h
    rw [(boundary_spec s).1 hm] at h
    cases hc : cpuTurn s.turn with
    | done u =>
      rw [hc] at h
      simp only [Host.Outcome.next.injEq] at h
      exact .inr (.inl ⟨hm, by rw [h]⟩)
    | execute u =>
      rw [hc] at h
      have hrun : s.standby = .running ∧ acceptedSource s.turn = none ∧ u = { s.turn with eiHold := false } := by
        unfold cpuTurn at hc
        split at hc
        · rename_i hr
          split at hc
          · cases hc
          · rename_i hn
            simp only [Turn.execute.injEq] at hc
            exact ⟨hr, hn, hc.symm⟩
        all_goals cases hc
      obtain ⟨hr, hn, rfl⟩ := hrun
      refine .inr (.inr ⟨hm, hr, hn, ?_⟩)
      simp only [fetchWord] at h
      split at h
      · rename_i i hi; exact ⟨i, hi, h⟩
      · cases h
  · cases hs : s.schedule with
    | nil => exact absurd (.inl hs) hm
    | cons e rest =>
      have he : e ≠ .cpu := fun he => hm (.inr (by simp [hs, he]))
      unfold step at h
      rw [(boundary_spec s).2 e rest hs he] at h
      simp only [Host.Outcome.next.injEq] at h
      exact .inl ⟨e, rest, rfl, he, h.symm⟩

/-! ## Pins and the serial clock -/

/-- A POD line the outside holds is at that level at every operand read. -/
theorem podLine_of_held {s : State} {n : Nat} {v : Bool} (h : s.podHeld n v) (k : Nat) : s.podLine k n = v := by
  rcases h with ⟨hd, rfl⟩ | ⟨hd, hp, rfl⟩ <;> simp [State.podLine, lineBit, *]

/-- A POE line the outside holds is at that level at every operand read. -/
theorem poeLine_of_held {s : State} {n : Nat} {v : Bool} (h : s.poeHeld n v) (k : Nat) : s.poeLine k n = v := by
  rcases h with ⟨hd, rfl⟩ | ⟨hd, hp, rfl⟩ <;> simp [State.poeLine, lineBit, *]

/-- The bits of a nibble put together from four. -/
theorem getLsbD_nibbleOf (a b c d : Bool) (n : Nat) : (nibbleOf a b c d).getLsbD n =
    if n = 0 then d else if n = 1 then c else if n = 2 then b else if n = 3 then a else false := by
  rcases n with _ | _ | _ | _ | n
  all_goals first | (revert a b c d; decide) | simp

/-- Loading the SO latch changes bit 1 of the POD latch and nothing else. -/
theorem withSoLatch_spec (p : Ports) (b : Bool) :
    p.withSoLatch b = { p with latchD := (p.withSoLatch b).latchD } ∧
      ∀ n, n < 4 → (p.withSoLatch b).latchD.getLsbD n = if n = 1 then b else p.latchD.getLsbD n := by
  refine ⟨rfl, fun n hn => ?_⟩
  simp only [Ports.withSoLatch, getLsbD_nibbleOf]
  rcases n with _ | _ | _ | _ | n <;> first | rfl | omega

/-- A POD pin is low where the chip pulls it low, else at the level of the line outside. -/
theorem podPins_getLsbD (s : State) {n : Nat} (hn : n < 4) :
    s.podPins.getLsbD n = (!s.podPulledLow.getLsbD n && s.podLine 0 n) := by
  have : (s.podOutside 0).getLsbD n = s.podLine 0 n := by
    simp only [State.podOutside, getLsbD_nibbleOf]
    rcases n with _ | _ | _ | _ | n <;> first | rfl | omega
  rw [← this]
  simp [State.podPins, openDrain, hn]

/-- A read of 73H, bit by bit. -/
theorem readPortD_getLsbD (s : State) (k n : Nat) : (memRead s k 0x73).getLsbD n =
    if n = 0 then s.readPod0 k else if n = 1 then s.readPod1 k else if n = 2 then s.readPod2 k
    else if n = 3 then s.readPod3 k else false :=
  getLsbD_nibbleOf _ _ _ _ n

/-- When clock edges reach the shift register, in the terms claims use. -/
theorem serialClocked_iff (s : State) : serialClocked s = true ↔ s.shifts := by
  unfold serialClocked State.shifts
  cases s.standby <;> simp

theorem serialClocked_eq_false {s : State} (h : ¬ s.shifts) : serialClocked s = false :=
  Bool.eq_false_iff.2 (mt (serialClocked_iff s).1 h)

/-- What a falling edge of the serial clock does. -/
theorem sckFall_spec (s : State) :
    (¬ s.shifts → sckFall s = s) ∧
      (s.shifts → s.sio.sioen = true → sckFall s = { s with
        sio := { s.sio with started := true, sckLow := true }
        ports := if s.sio.siohiz then s.ports else s.ports.withSoLatch (s.sio.sfr.getLsbD 7) }) :=
  ⟨fun h => by simp [sckFall, serialClocked_eq_false h],
    fun h he => by simp [sckFall, (serialClocked_iff s).2 h, he]⟩

/-- What a rising edge of the serial clock does. -/
theorem sckRise_spec (s : State) :
    (¬ s.shifts → sckRise s = s) ∧
      (s.shifts → s.sio.sioen = true → s.sio.started = false → sckRise s = s) ∧
      (s.shifts → s.sio.sioen = true → s.sio.started = true → sckRise s =
        if s.sio.count = 7 then
          { s with
            sio := { s.sio with
              sfr := shiftIn s.sio.sfr (siLevel s), count := 0, siots := false, started := false, sckLow := false }
            irqSio := true }
        else
          { s with sio := { s.sio with
              sfr := shiftIn s.sio.sfr (siLevel s), count := s.sio.count + 1, sckLow := false } }) :=
  ⟨fun h => by simp [sckRise, serialClocked_eq_false h],
    fun h he hs => by simp [sckRise, (serialClocked_iff s).2 h, he, hs],
    fun h he hs => by simp [sckRise, (serialClocked_iff s).2 h, he, hs]⟩

/-- The writes of the register file the spec refuses, in the terms claims use. -/
theorem rfWriteDisturbs_iff (s : State) (rf : Addr) (v : Nibble) : rfWriteDisturbs s rf v = true ↔
    (rf = 0x0A ∧ s.sio.siots = true ∧ v.getLsbD 0 ≠ s.sio.sioen) ∨
      (rf = 0x1A ∧ ((s.sio.siots = true ∧ (v.getLsbD 2 ≠ s.sio.siohiz ∨ v.setWidth 2 ≠ s.sio.siock)) ∨
        (v.getLsbD 3 = true ∧ s.sio.sioen = false))) := by
  have hen : ∀ a : Addr, a = 0x0A ↔ rfPlace a = .sioen := by decide
  have hmode : ∀ a : Addr, a = 0x1A ↔ rfPlace a = .sioMode := by decide
  rw [hen, hmode, rfWriteDisturbs]
  cases rfPlace rf <;> simp

/-! ## Resets -/

/-- An asserted reset: kind 2 out of a standby mode, else kind 1, whatever its cause; nothing where a power-down
reset is not enabled. -/
theorem resetAssert_spec (s : State) (c : ResetCause) :
    (c = .powerDown → s.pdresen = false → resetAssert s c = s) ∧
      ((c = .powerDown → s.pdresen = true) →
        (((∃ h, s.standby = .halt h) ∨ ∃ h, s.standby = .stop h) →
          resetAssert s c = { resetKind2 s with standby := .resetHeld }) ∧
        (¬ ((∃ h, s.standby = .halt h) ∨ ∃ h, s.standby = .stop h) →
          resetAssert s c = { resetKind1 s with standby := .resetHeld })) := by
  unfold resetAssert
  cases c <;> cases hb : s.standby <;> cases s.pdresen <;> simp

theorem resetDefined_values (s : State) : HasResetValues (resetDefined s) := by
  constructor <;> first | rfl | exact ⟨rfl, rfl⟩ | exact ⟨rfl, rfl, rfl⟩ | exact ⟨rfl, rfl, rfl, rfl⟩ |
    exact ⟨rfl, rfl, rfl, rfl, rfl⟩

theorem resetKind1_values (s : State) : HasResetValues (resetKind1 s) := by
  constructor <;> first | rfl | exact ⟨rfl, rfl⟩ | exact ⟨rfl, rfl, rfl⟩ | exact ⟨rfl, rfl, rfl, rfl⟩ |
    exact ⟨rfl, rfl, rfl, rfl, rfl⟩

theorem resetKind2_values (s : State) : HasResetValues (resetKind2 s) := by
  constructor <;> first | rfl | exact ⟨rfl, rfl⟩ | exact ⟨rfl, rfl, rfl⟩ | exact ⟨rfl, rfl, rfl, rfl⟩ |
    exact ⟨rfl, rfl, rfl, rfl, rfl⟩

/-! ## The canonical form of RAM -/

/-- A data-memory write keeps the canonical form of RAM. -/
theorem memWrite_wf {s : State} (h : Memory.wf ramUnlisted 0x0F 0x40 s.ram = true) (a : Addr) (v : Nibble) :
    Memory.wf ramUnlisted 0x0F 0x40 (memWrite s a v).ram = true := by
  unfold memWrite
  cases hp : dmPlace a with
  | ram n =>
    have hn : n < 64 := by
      revert hp
      unfold dmPlace
      simp only
      split
      · intro hp; cases hp; assumption
      · split
        · intro hp; cases hp
        · split <;> intro hp <;> cases hp
    exact ramWrite_wf h hn v
  | _ => exact h

theorem withDbf_wf {s : State} (h : Memory.wf ramUnlisted 0x0F 0x40 s.ram = true) (v : Word) :
    Memory.wf ramUnlisted 0x0F 0x40 (s.withDbf v).ram = true :=
  ramWrite_wf (ramWrite_wf (ramWrite_wf (ramWrite_wf h (by decide) _) (by decide) _) (by decide) _) (by decide) _

theorem withDbfLow_wf {s : State} (h : Memory.wf ramUnlisted 0x0F 0x40 s.ram = true) (v : Byte) :
    Memory.wf ramUnlisted 0x0F 0x40 (s.withDbfLow v).ram = true :=
  ramWrite_wf (ramWrite_wf h (by decide) _) (by decide) _

theorem stackReset_wf (s : State) (why : StackEvent) :
    Memory.wf ramUnlisted 0x0F 0x40 (stackReset s why).ram = true :=
  ramFill_wf fun a => s.freeNibble (.ram a)

theorem resetKind1_wf (s : State) : Memory.wf ramUnlisted 0x0F 0x40 (resetKind1 s).ram = true :=
  ramFill_wf fun a => s.freeNibble (.ram a)

theorem resetKind2_wf {s : State} (h : Memory.wf ramUnlisted 0x0F 0x40 s.ram = true) :
    Memory.wf ramUnlisted 0x0F 0x40 (resetKind2 s).ram = true :=
  withDbf_wf (s := resetDefined s) h _

/-- The memories after reset are in their canonical form. -/
theorem reset_memory_wf :
    Memory.wf romUnlisted 0xFF 0x600 State.reset.rom = true ∧
      Memory.wf ramUnlisted 0x0F 0x40 State.reset.ram = true := by decide

end Sys2Proof.Machine
end

