-- ==== Sys2Proof/Laws/Frames.lean ====
section
/-! SUPPORT. What no operation on registers and memory touches: program memory, the standby state, INTE and the EI
hold, pins, schedule and step number; and that each keeps the canonical form of RAM. -/

namespace Sys2Proof.Machine

/-- `t` differs from `s` at most in registers and memory an instruction's operands can reach. -/
structure KeepsCore (s t : State) : Prop where
  rom : t.rom = s.rom
  ram : Memory.wf ramUnlisted 0x0F 0x40 s.ram = true → Memory.wf ramUnlisted 0x0F 0x40 t.ram = true
  standby : t.standby = s.standby
  inte : t.inte = s.inte
  eiHold : t.eiHold = s.eiHold
  pins : t.pins = s.pins
  schedule : t.schedule = s.schedule
  drawClock : t.drawClock = s.drawClock

theorem KeepsCore.refl (s : State) : KeepsCore s s := ⟨rfl, id, rfl, rfl, rfl, rfl, rfl, rfl⟩

theorem KeepsCore.trans {s t u : State} (h : KeepsCore s t) (h' : KeepsCore t u) : KeepsCore s u :=
  ⟨h'.rom.trans h.rom, fun x => h'.ram (h.ram x), h'.standby.trans h.standby, h'.inte.trans h.inte,
    h'.eiHold.trans h.eiHold, h'.pins.trans h.pins, h'.schedule.trans h.schedule, h'.drawClock.trans h.drawClock⟩

theorem KeepsCore.advance {s t : State} (h : KeepsCore s t) : KeepsCore s t.advance :=
  ⟨h.rom, h.ram, h.standby, h.inte, h.eiHold, h.pins, h.schedule, h.drawClock⟩

theorem keepsCore_psw (s : State) (p : Psw) : KeepsCore s { s with psw := p } :=
  ⟨rfl, id, rfl, rfl, rfl, rfl, rfl, rfl⟩

theorem keepsCore_memWrite (s : State) (a : Addr) (v : Nibble) : KeepsCore s (memWrite s a v) := by
  constructor
  case ram => exact fun h => memWrite_wf h a v
  all_goals (unfold memWrite; cases dmPlace a <;> rfl)

theorem keepsCore_arithStore (s : State) (dst : Addr) (out : Nibble × Bool) : KeepsCore s (arithStore s dst out) := by
  unfold arithStore
  simp only
  split
  · exact keepsCore_psw s _
  · exact (keepsCore_psw s _).trans (keepsCore_memWrite { s with psw := s.psw.afterArith out.1 out.2 } dst out.1)

theorem keepsCore_rotateStore (s : State) (dst : Addr) (out : Nibble × Bool) :
    KeepsCore s (rotateStore s dst out) :=
  (keepsCore_psw s _).trans (keepsCore_memWrite { s with psw := { s.psw with cy := out.2 } } dst out.1)

theorem keepsCore_serialOpen (s : State) : KeepsCore s (serialOpen s) := ⟨rfl, id, rfl, rfl, rfl, rfl, rfl, rfl⟩

theorem keepsCore_rfWrite (s : State) (rf : Addr) (v : Nibble) : KeepsCore s (rfWrite s rf v) := by
  unfold rfWrite
  cases rfPlace rf
  case dataMemory a => exact keepsCore_memWrite s a v
  all_goals exact ⟨rfl, id, rfl, rfl, rfl, rfl, rfl, rfl⟩

theorem keepsCore_periRead (s : State) (p : Addr) : KeepsCore s (periRead s p) := by
  unfold periRead
  cases periPlace p
  case ar => exact ⟨rfl, fun h => withDbf_wf h _, rfl, rfl, rfl, rfl, rfl, rfl⟩
  case unassigned => exact ⟨rfl, fun h => withDbf_wf h _, rfl, rfl, rfl, rfl, rfl, rfl⟩
  all_goals exact ⟨rfl, fun h => withDbfLow_wf h _, rfl, rfl, rfl, rfl, rfl, rfl⟩

theorem keepsCore_periWrite (s : State) (p : Addr) : KeepsCore s (periWrite s p) := by
  unfold periWrite
  cases periPlace p <;> exact ⟨rfl, id, rfl, rfl, rfl, rfl, rfl, rfl⟩

/-- Count pulses and serial edges reach the devices only: no CPU register, no RAM, no program memory. -/
structure DeviceOnly (s t : State) : Prop where
  core : KeepsCore s t
  pc : t.pc = s.pc
  ram : t.ram = s.ram
  registers : t.ar = s.ar ∧ t.wr = s.wr ∧ t.ix = s.ix ∧ t.mpe = s.mpe ∧ t.rp = s.rp ∧ t.psw = s.psw
  stack : t.sp = s.sp ∧ t.asr = s.asr ∧ t.intsk = s.intsk

theorem deviceOnly_countPulse (s : State) : DeviceOnly s (countPulse s) := by
  have same : ∀ counts : Bool, DeviceOnly s (if !counts then s
      else if s.timer.tmc = s.timer.tmm then
        { s with timer := { s.timer with tmc := 0, out := !s.timer.out }, irqTm := true }
      else { s with timer := { s.timer with tmc := s.timer.tmc + 1 } }) := by
    intro counts
    cases counts
    · exact ⟨KeepsCore.refl s, rfl, rfl, ⟨rfl, rfl, rfl, rfl, rfl, rfl⟩, rfl, rfl, rfl⟩
    · simp only [Bool.not_true, Bool.false_eq_true, if_false]
      split <;>
        exact ⟨⟨rfl, id, rfl, rfl, rfl, rfl, rfl, rfl⟩, rfl, rfl, ⟨rfl, rfl, rfl, rfl, rfl, rfl⟩, rfl, rfl, rfl⟩
  exact same _

theorem deviceOnly_serialOpen (s : State) : DeviceOnly s (serialOpen s) :=
  ⟨keepsCore_serialOpen s, rfl, rfl, ⟨rfl, rfl, rfl, rfl, rfl, rfl⟩, rfl, rfl, rfl⟩

theorem deviceOnly_sckFall (s : State) : DeviceOnly s (sckFall s) := by
  unfold sckFall
  split
  · exact ⟨KeepsCore.refl s, rfl, rfl, ⟨rfl, rfl, rfl, rfl, rfl, rfl⟩, rfl, rfl, rfl⟩
  · split
    · exact deviceOnly_serialOpen s
    · exact ⟨⟨rfl, id, rfl, rfl, rfl, rfl, rfl, rfl⟩, rfl, rfl, ⟨rfl, rfl, rfl, rfl, rfl, rfl⟩, rfl, rfl, rfl⟩

theorem deviceOnly_sckRise (s : State) : DeviceOnly s (sckRise s) := by
  unfold sckRise
  split
  · exact ⟨KeepsCore.refl s, rfl, rfl, ⟨rfl, rfl, rfl, rfl, rfl, rfl⟩, rfl, rfl, rfl⟩
  · split
    · exact deviceOnly_serialOpen s
    · split
      · exact ⟨KeepsCore.refl s, rfl, rfl, ⟨rfl, rfl, rfl, rfl, rfl, rfl⟩, rfl, rfl, rfl⟩
      · simp only
        split <;>
          exact ⟨⟨rfl, id, rfl, rfl, rfl, rfl, rfl, rfl⟩, rfl, rfl, ⟨rfl, rfl, rfl, rfl, rfl, rfl⟩, rfl, rfl, rfl⟩

end Sys2Proof.Machine
end

