-- ==== Sys2Proof/Tests/Slice0.lean ====
section
/-! SUPPORT. The model's own tests. Words and expected results are those of spec/95_test_vectors.md and of the
examples in the instructions' rules, or are written out from the encodings of 30_encoding.md R121 to R129. -/

namespace Sys2Proof.Tests

open Sys2Proof Sys2Proof.Machine

/-- A field of the next state, where there is one. -/
def after {α : Type} (o : Result) (f : State → α) : Option α :=
  match o with
  | .next t => some (f t)
  | .fault _ => none
  | .refused _ => none

/-- A state after reset with some data-memory nibbles written. -/
def given (cells : List (Addr × Nibble)) : State :=
  cells.foldl (fun s c => memWrite s c.1 c.2) State.reset

/-- The state with the pc at `a` and the words `ws` in program memory from `a` on. -/
def program (s : State) (a : ProgAddr) (ws : List Word) : State :=
  let rom := (ws.zipIdx).foldl (fun m w => romStore m (a + BitVec.ofNat 10 w.2) w.1) s.rom
  { s with pc := a, rom := rom }

/-- What a data-memory read gives. -/
def dm (a : Addr) (s : State) : Nibble := memRead s 0 a

/-! ## WellFormed: each check refuses an ill-formed term -/

theorem test_wellFormed_stop_refused : (Instr.stop 0b0100).wellFormed = false := by decide
theorem test_wellFormed_stop_bit0_refused : (Instr.stop 0b1001).wellFormed = false := by decide
theorem test_wellFormed_halt_refused : (Instr.halt 0b0100).wellFormed = false := by decide
theorem test_wellFormed_halt_bit0_refused : (Instr.halt 0b0001).wellFormed = false := by decide
theorem test_wellFormed_accepted : (Instr.halt 0b1010).wellFormed && (Instr.stop 0b1000).wellFormed := by decide

/-! ## Decode: one word a constructor, its bits written out -/

theorem test_decode_addReg : decode 0b00000_001_0001_0001 = .ok (.addReg 1 0x11) := by rfl
theorem test_decode_addImm : decode 0b10000_010_0000_0001 = .ok (.addImm 0x20 1) := by rfl
theorem test_decode_addcReg : decode 0b00010_001_0000_0000 = .ok (.addcReg 0 0x10) := by rfl
theorem test_decode_addcImm : decode 0b10010_010_0001_0000 = .ok (.addcImm 0x21 0) := by rfl
theorem test_decode_incAr : decode 0b00111_000_1001_0000 = .ok (.incAr) := by rfl
theorem test_decode_incIx : decode 0b00111_000_1000_0000 = .ok (.incIx) := by rfl
theorem test_decode_subReg : decode 0b00001_001_0010_0010 = .ok (.subReg 2 0x12) := by rfl
theorem test_decode_subImm : decode 0b10001_010_0001_0001 = .ok (.subImm 0x21 1) := by rfl
theorem test_decode_subcReg : decode 0b00011_001_0000_0000 = .ok (.subcReg 0 0x10) := by rfl
theorem test_decode_subcImm : decode 0b10011_010_0010_0000 = .ok (.subcImm 0x22 0) := by rfl
theorem test_decode_orReg : decode 0b00110_001_0011_0011 = .ok (.orReg 3 0x13) := by rfl
theorem test_decode_orImm : decode 0b10110_111_1111_0100 = .ok (.orImm 0x7F 4) := by rfl
theorem test_decode_andReg : decode 0b00100_001_0011_0011 = .ok (.andReg 3 0x13) := by rfl
theorem test_decode_andImm : decode 0b10100_110_1111_1101 = .ok (.andImm 0x6F 0xD) := by rfl
theorem test_decode_xorReg : decode 0b00101_001_0011_0011 = .ok (.xorReg 3 0x13) := by rfl
theorem test_decode_xorImm : decode 0b10101_011_0000_1111 = .ok (.xorImm 0x30 0xF) := by rfl
theorem test_decode_skt : decode 0b11110_111_1111_0010 = .ok (.skt 0x7F 2) := by rfl
theorem test_decode_skf : decode 0b11111_111_0011_0100 = .ok (.skf 0x73 4) := by rfl
theorem test_decode_ske : decode 0b01001_010_0001_0000 = .ok (.ske 0x21 0) := by rfl
theorem test_decode_skne : decode 0b01011_010_0001_0011 = .ok (.skne 0x21 3) := by rfl
theorem test_decode_skge : decode 0b11001_001_0000_1010 = .ok (.skge 0x10 0xA) := by rfl
theorem test_decode_sklt : decode 0b11011_001_0000_1010 = .ok (.sklt 0x10 0xA) := by rfl
theorem test_decode_rorc : decode 0b00111_000_0111_0010 = .ok (.rorc 2) := by rfl
theorem test_decode_ld : decode 0b01000_111_1000_0000 = .ok (.ld 0 0x78) := by rfl
theorem test_decode_st : decode 0b11000_011_0000_1111 = .ok (.st 0x30 0xF) := by rfl
theorem test_decode_movToInd : decode 0b01010_011_0000_0001 = .ok (.movToInd 1 0x30) := by rfl
theorem test_decode_movFromInd : decode 0b11010_011_0000_0001 = .ok (.movFromInd 0x30 1) := by rfl
theorem test_decode_movImm : decode 0b11101_110_1111_1101 = .ok (.movImm 0x6F 0xD) := by rfl
theorem test_decode_movt : decode 0b00111_000_0001_0000 = .ok (.movt) := by rfl
theorem test_decode_push : decode 0b00111_000_1101_0000 = .ok (.push) := by rfl
theorem test_decode_pop : decode 0b00111_000_1100_0000 = .ok (.pop) := by rfl
theorem test_decode_peek : decode 0b00111_001_0011_0001 = .ok (.peek 0x11) := by rfl
theorem test_decode_poke : decode 0b00111_011_0010_1110 = .ok (.poke 0x3E) := by rfl
theorem test_decode_get : decode 0b00111_100_1011_0000 = .ok (.get 0x40) := by rfl
theorem test_decode_put : decode 0b00111_000_1010_0011 = .ok (.put 0x03) := by rfl
theorem test_decode_br : decode 0b01100_010_1111_1111 = .ok (.br 0x2FF) := by rfl
theorem test_decode_brAr : decode 0b00111_000_0100_0000 = .ok (.brAr) := by rfl
theorem test_decode_call : decode 0b11100_000_0000_1000 = .ok (.call 0x008) := by rfl
theorem test_decode_callAr : decode 0b00111_000_0101_0000 = .ok (.callAr) := by rfl
theorem test_decode_ret : decode 0b00111_000_1110_0000 = .ok (.ret) := by rfl
theorem test_decode_retsk : decode 0b00111_001_1110_0000 = .ok (.retsk) := by rfl
theorem test_decode_reti : decode 0b00111_100_1110_0000 = .ok (.reti) := by rfl
theorem test_decode_ei : decode 0b00111_000_1111_0000 = .ok (.ei) := by rfl
theorem test_decode_di : decode 0b00111_001_1111_0000 = .ok (.di) := by rfl
theorem test_decode_stop : decode 0b00111_010_1111_1000 = .ok (.stop 8) := by rfl
theorem test_decode_halt : decode 0b00111_011_1111_1010 = .ok (.halt 0xA) := by rfl
theorem test_decode_nop : decode 0b00111_100_1111_0000 = .ok (.nop) := by rfl

/-- Words that are no instruction (30_encoding.md R132). -/
theorem test_decode_refused :
    decode 0b01101_000_0000_0000 = .error .unassignedOpcode ∧ decode 0b10111_000_0000_0000 = .error .unassignedOpcode ∧
    decode 0b01100_100_0000_0000 = .error .addressBitTen ∧ decode 0b11100_111_0000_0000 = .error .addressBitTen ∧
    decode 0b00111_000_0110_0000 = .error .unassignedGroupX ∧ decode 0b00111_001_1001_0000 = .error .groupXConstant ∧
    decode 0b00111_010_1110_0000 = .error .groupXConstant ∧ decode 0b00111_000_1110_0001 = .error .groupXConstant := by
  refine ⟨rfl, rfl, rfl, rfl, rfl, rfl, rfl, rfl⟩

theorem test_decodeTableWord : decodeTableWord 16 0x3B2E = some (.poke 0x3E) := by rfl
theorem test_withFetchWord_runs :
    (after (step (State.reset.withFetchWord 16 0x8201)) (dm 0x20)) = some 1 := by decide
theorem test_withFetchWord_stop_runs :
    (after (step (State.reset.withFetchWord 16 0x3AF0)) (fun t => (t.standby, t.pc))) = some (.stop 0, 2) := by decide

/-! ## Meanings: the vectors of 95_test_vectors.md, section 2 -/

theorem test_addReg_carry :
    after (exec (.addReg 1 0x11) (given [(0x01, 0x7), (0x11, 0xC)])) (fun t => (dm 0x01 t, dm 0x7F t)) = some (3, 0b0100) := by decide
theorem test_addReg_row3 :
    after (exec (.addReg 5 0x11) (given [(0x35, 0x2), (0x11, 0x3), (0x05, 0x9), (0x7E, 0x6)])) (fun t => (dm 0x35 t, dm 0x05 t)) = some (5, 9) := by decide
theorem test_addImm_zero :
    after (exec (.addImm 0x20 1) (given [(0x20, 0xF)])) (fun t => (dm 0x20 t, dm 0x7F t)) = some (0, 0b0110) := by decide
theorem test_addImm_cmp :
    after (exec (.addImm 0x20 1) (given [(0x20, 0xF), (0x7F, 0xA)])) (fun t => (dm 0x20 t, dm 0x7F t)) = some (0xF, 0b1110) := by decide
theorem test_addcReg_sum31 :
    after (exec (.addcReg 0 0x10) (given [(0x00, 0xF), (0x10, 0xF), (0x7F, 0x4)])) (fun t => (dm 0x00 t, dm 0x7F t)) = some (0xF, 0b0100) := by decide
theorem test_addcImm_propagates :
    after (exec (.addcImm 0x21 0) (given [(0x21, 0xF), (0x7F, 0x4)])) (fun t => (dm 0x21 t, dm 0x7F t)) = some (0, 0b0110) := by decide
theorem test_incAr_wraps :
    after (exec (.incAr) (given [(0x75, 0x3), (0x76, 0xF), (0x77, 0xF), (0x7F, 0x6)])) (fun t => (t.ar, dm 0x7F t)) = some (0, 0b0110) := by decide
theorem test_incIx_wraps :
    after (exec (.incIx) (given [(0x7A, 0x8), (0x7B, 0x7), (0x7C, 0xF)])) (fun t => (dm 0x7A t, dm 0x7B t, dm 0x7C t)) = some (0b1000, 0, 0) := by decide
theorem test_subReg_borrow :
    after (exec (.subReg 2 0x12) (given [(0x02, 0x3), (0x12, 0x5)])) (fun t => (dm 0x02 t, dm 0x7F t)) = some (0xE, 0b0100) := by decide
theorem test_subReg_cmp_sticky :
    after (exec (.subReg 2 0x12) (given [(0x02, 0x5), (0x12, 0x5), (0x7F, 0x8)])) (fun t => (dm 0x02 t, dm 0x7F t)) = some (5, 0b1000) := by decide
theorem test_subImm_zero :
    after (exec (.subImm 0x21 1) (given [(0x21, 0x1)])) (fun t => (dm 0x21 t, dm 0x7F t)) = some (0, 0b0010) := by decide
theorem test_subcReg_minus16 :
    after (exec (.subcReg 0 0x10) (given [(0x00, 0x0), (0x10, 0xF), (0x7F, 0x4)])) (fun t => (dm 0x00 t, dm 0x7F t)) = some (0, 0b0110) := by decide
theorem test_subcImm_borrow :
    after (exec (.subcImm 0x22 0) (given [(0x22, 0x0), (0x7F, 0x4)])) (fun t => (dm 0x22 t, dm 0x7F t)) = some (0xF, 0b0100) := by decide
theorem test_orReg :
    after (exec (.orReg 3 0x13) (given [(0x03, 0x5), (0x13, 0x3), (0x7F, 0x6)])) (fun t => (dm 0x03 t, dm 0x7F t)) = some (7, 0b0110) := by decide
theorem test_orImm_psw :
    after (exec (.orImm 0x7F 4) (given [(0x7F, 0x2)])) (fun t => (dm 0x7F t)) = some (0b0110) := by decide
theorem test_andReg :
    after (exec (.andReg 3 0x13) (given [(0x03, 0x6), (0x13, 0x3)])) (fun t => (dm 0x03 t)) = some (2) := by decide
theorem test_andImm_cmp :
    after (exec (.andImm 0x30 0) (given [(0x30, 0xA), (0x7F, 0x8)])) (fun t => (dm 0x30 t, dm 0x7F t)) = some (0, 0b1000) := by decide
theorem test_xorReg_self :
    after (exec (.xorReg 3 0x03) (given [(0x03, 0x6)])) (fun t => (dm 0x03 t, dm 0x7F t)) = some (0, 0) := by decide
theorem test_xorImm :
    after (exec (.xorImm 0x30 0xF) (given [(0x30, 0xA)])) (fun t => (dm 0x30 t)) = some (5) := by decide
theorem test_skt_skips :
    after (exec (.skt 0x7F 2) (given [(0x7F, 0x2)])) (fun t => (t.pc, dm 0x7F t)) = some (2, 0b0010) := by decide
theorem test_skt_all_bits :
    after (exec (.skt 0x10 6) (given [(0x10, 0x4), (0x7F, 0x8)])) (fun t => (t.pc, dm 0x7F t)) = some (1, 0) := by decide
theorem test_skf_cmp_read_first :
    after (exec (.skf 0x7F 0xF) (given [(0x7F, 0x8)])) (fun t => (t.pc, dm 0x7F t)) = some (1, 0) := by decide
theorem test_skf_skips :
    after (exec (.skf 0x10 6) (given [(0x10, 0x9), (0x7F, 0x8)])) (fun t => (t.pc, dm 0x7F t)) = some (2, 0) := by decide
theorem test_ske :
    after (exec (.ske 0x10 0xA) (given [(0x10, 0xA), (0x7F, 0x6)])) (fun t => (t.pc, dm 0x7F t)) = some (2, 6) := by decide
theorem test_skne :
    after (exec (.skne 0x10 0xA) (given [(0x10, 0x9)])) (fun t => (t.pc)) = some (2) := by decide
theorem test_skge :
    after (exec (.skge 0x10 0xA) (given [(0x10, 0x9)])) (fun t => (t.pc)) = some (1) := by decide
theorem test_skge_equal :
    after (exec (.skge 0x10 0xA) (given [(0x10, 0xA)])) (fun t => (t.pc)) = some (2) := by decide
theorem test_sklt :
    after (exec (.sklt 0x10 0xA) (given [(0x10, 0x9)])) (fun t => (t.pc)) = some (2) := by decide
theorem test_rorc :
    after (exec (.rorc 2) (given [(0x02, 0x5), (0x7F, 0x4)])) (fun t => (dm 0x02 t, dm 0x7F t)) = some (0b1010, 4) := by decide
theorem test_rorc_z_kept :
    after (exec (.rorc 2) (given [(0x02, 0x1), (0x7F, 0x2)])) (fun t => (dm 0x02 t, dm 0x7F t)) = some (0, 0b0110) := by decide
theorem test_ld_wr :
    after (exec (.ld 0 0x78) (given [(0x78, 0x5)])) (fun t => (dm 0x00 t)) = some (5) := by decide
theorem test_st_psw :
    after (exec (.st 0x7F 2) (given [(0x02, 0x5), (0x7F, 0xA)])) (fun t => (dm 0x7F t)) = some (5) := by decide
theorem test_st_rp_after_read :
    after (exec (.st 0x7E 0) (given [(0x00, 0x6), (0x30, 0x1)])) (fun t => (t.rp)) = some (3) := by decide
theorem test_movToInd :
    after (exec (.movToInd 0 0x30) (given [(0x00, 0x5), (0x30, 0x4)])) (fun t => (dm 0x35 t)) = some (4) := by decide
theorem test_movToInd_mpe :
    after (exec (.movToInd 0 0x30) (given [(0x00, 0x5), (0x30, 0x4), (0x7A, 0x8), (0x7B, 0x2)])) (fun t => (dm 0x25 t, dm 0x35 t)) = some (4, 0) := by decide
theorem test_movFromInd :
    after (exec (.movFromInd 0x30 0) (given [(0x00, 0x5), (0x35, 0x4)])) (fun t => (dm 0x30 t)) = some (4) := by decide
theorem test_movFromInd_mpe :
    after (exec (.movFromInd 0x30 0) (given [(0x00, 0x5), (0x15, 0x7), (0x35, 0x4), (0x7A, 0x8), (0x7B, 0x1)])) (fun t => (dm 0x30 t)) = some (7) := by decide
theorem test_movImm_ar2 :
    after (exec (.movImm 0x75 0xF) (given [])) (fun t => (dm 0x75 t)) = some (3) := by decide
theorem test_movImm_fixed :
    after (exec (.movImm 0x7B 0xF) (given [])) (fun t => (dm 0x7B t)) = some (7) := by decide
theorem test_movt :
    after (exec (.movt) ({ program State.reset 0x2FF [0xBEEF] with pc := 0x20, ar := 0x2FF })) (fun t => (t.dbf, t.sp, t.asrAt 4, t.pc)) = some (0xBEEF, 5, 0x21, 0x21) := by decide
theorem test_movt_past_rom :
    after (exec (.movt) ({ State.reset with pc := 0x20, ar := 0x300, sp := 1 })) (fun t => (t.dbf, t.asrAt 0)) = some (0xFFFF, 0x21) := by decide
theorem test_push :
    after (exec (.push) ({ State.reset with ar := 0x123 })) (fun t => (t.sp, t.asrAt 4)) = some (4, 0x123) := by decide
theorem test_push_overflow :
    after (exec (.push) ({ State.reset with sp := 0, pc := 7 })) (fun t => (t.sp, t.pc, t.irqTm)) = some (5, 0, true) := by decide
theorem test_pop :
    after (exec (.pop) ({ State.reset with sp := 4, asr := State.reset.asr.setIfInBounds 4 0x123 })) (fun t => (t.sp, t.ar)) = some (5, 0x123) := by decide
theorem test_pop_underflow :
    after (exec (.pop) ({ State.reset with pc := 7 })) (fun t => (t.pc, t.timer.tmm)) = some (0, 0xFF) := by decide
theorem test_peek_sp :
    after (exec (.peek 0x01) ({ State.reset with sp := 3 })) (fun t => (t.wr)) = some (3) := by decide
theorem test_peek_reset :
    after (exec (.peek 0x11) (given [])) (fun t => (t.wr)) = some (0b1000) := by decide
theorem test_poke_sp :
    after (exec (.poke 0x01) (given [(0x78, 0xA)])) (fun t => (t.sp)) = some (2) := by decide
theorem test_poke_tmres :
    after (exec (.poke 0x11) ({ given [(0x78, 0xC)] with timer := { Timer.reset with tmc := 0x37, out := false } })) (fun t => (t.timer.tmc, rfRead t 0x11, t.timer.out)) = some (0, 0b1000, true) := by decide
theorem test_get_tmc :
    after (exec (.get 0x02) ({ (given [(0x0C, 9), (0x0D, 0xA), (0x0E, 0xB), (0x0F, 0xC)]) with timer := { Timer.reset with tmc := 0x3C } })) (fun t => (t.dbf)) = some (0x9A3C) := by decide
theorem test_get_ar :
    after (exec (.get 0x40) ({ given [(0x0C, 9)] with ar := 0x123 })) (fun t => (t.dbf)) = some (0x0123) := by decide
theorem test_put_ar :
    after (exec (.put 0x40) (given [(0x0C, 0xF), (0x0D, 0xF), (0x0E, 0xE), (0x0F, 0xD)])) (fun t => (t.ar)) = some (0x3ED) := by decide
theorem test_put_tmm :
    after (exec (.put 0x03) (given [(0x0E, 0x6), (0x0F, 0x3)])) (fun t => (t.timer.tmm)) = some (0x63) := by decide
theorem test_br :
    after (exec (.br 0x006) (given [])) (fun t => (t.pc)) = some (6) := by decide
theorem test_brAr :
    after (exec (.brAr) ({ State.reset with ar := 0x120 })) (fun t => (t.pc)) = some (0x120) := by decide
theorem test_call :
    after (exec (.call 0x008) ({ State.reset with pc := 2 })) (fun t => (t.sp, t.asrAt 4, t.pc)) = some (4, 3, 8) := by decide
theorem test_callAr :
    after (exec (.callAr) ({ State.reset with pc := 0x10, sp := 4, ar := 0x200 })) (fun t => (t.sp, t.asrAt 3, t.pc)) = some (3, 0x11, 0x200) := by decide
theorem test_ret :
    after (exec (.ret) ({ State.reset with sp := 0, asr := State.reset.asr.setIfInBounds 0 0x111 })) (fun t => (t.sp, t.pc)) = some (1, 0x111) := by decide
theorem test_retsk_wraps :
    after (exec (.retsk) ({ State.reset with sp := 4, asr := State.reset.asr.setIfInBounds 4 0x3FF })) (fun t => (t.sp, t.pc)) = some (5, 0) := by decide
theorem test_reti :
    after (exec (.reti) ({ given [(0x7F, 2)] with sp := 4, asr := State.reset.asr.setIfInBounds 4 0x00B, intsk := { Psw.clear with cy := true } })) (fun t => (t.pc, t.sp, dm 0x7F t, t.inte)) = some (0xB, 5, 0b0100, false) := by decide
theorem test_ei :
    after (exec (.ei) (given [])) (fun t => (t.inte)) = some (true) := by decide
theorem test_di :
    after (exec (.di) ({ State.reset with inte := true })) (fun t => (t.inte)) = some (false) := by decide
theorem test_nop :
    after (exec (.nop) (given [(0x7F, 0x6)])) (fun t => (t.pc, dm 0x7F t)) = some (1, 6) := by decide
theorem test_halt_irqTm_is_nop :
    after (exec (.halt 2) ({ program State.reset 0xA [0x3CF0, 0x3BF2] with pc := 0xB })) (fun t => (t.standby, t.pc)) = some (.running, 0xC) := by decide
theorem test_halt :
    after (exec (.halt 8) ({ program State.reset 0xA [0x3CF0, 0x3BF8] with pc := 0xB })) (fun t => (t.standby, t.pc)) = some (.halt 8, 0xC) := by decide
theorem test_stop_irqTm :
    after (exec (.stop 8) ({ program State.reset 0xA [0x3CF0, 0x3AF8] with pc := 0xB, ipTm := true, timer := { Timer.reset with tmc := 9 } })) (fun t => (t.standby, t.timer.tmc)) = some (.stop 8, 0) := by decide
theorem test_stop_zero :
    after (exec (.stop 0) ({ program (given [(0x78, 7)]) 0xA [0x3CF0, 0x3AF0] with pc := 0xB, ports := { Ports.reset with poabio := 0xF } })) (fun t => (t.standby, t.ports.poabio, t.wr)) = some (.stop 0, 0, 7) := by decide
theorem test_halt_operand_refused :
    exec (.halt 4) (program State.reset 0xB [0x3CF0]).advance = .refused (.standbyOperand 4) := by rfl
theorem test_addImm_psw_refused : exec (.addImm 0x7F 1) State.reset = .refused .flagDestination := by rfl
theorem test_addImm_decimal_refused :
    exec (.addImm 0x20 1) (given [(0x7E, 1), (0x20, 0xA)]) = .refused .decimalOperand := by rfl
theorem test_rorc_psw_refused : exec (.rorc 0xF) (given [(0x7E, 0xE)]) = .refused .flagDestination := by rfl
theorem test_put_sfr_in_transfer_refused :
    exec (.put 0x01) { State.reset with sio := { Sio.reset with sioen := true, siots := true } } =
      .refused .serialDisturbed := by rfl
theorem test_poke_siots_without_sioen_refused :
    exec (.poke 0x1A) (given [(0x78, 8)]) = .refused .serialDisturbed := by rfl
theorem test_stop_without_nop_refused : exec (.stop 8) State.reset = .refused .noNopBefore := by rfl

/-! ## Interrupts, devices, ports -/

/-- The entry of 95_test_vectors.md 2.7. -/
theorem test_interrupt_entry :
    after (step { (given [(0x7E, 5), (0x7F, 6)]) with pc := 0x123, inte := true, ipTm := true })
      (fun t => ((t.pc, t.sp, t.asrAt 4, t.intsk), (dm 0x7E t, dm 0x7F t, t.irqTm, t.inte))) =
    some ((2, 4, 0x123, { bcd := true, cmp := false, cy := true, z := true, ixe := false }), (4, 0, false, false)) := by
  decide

/-- The timer of 95_test_vectors.md 2.8: the fourth pulse with TMM = 3 matches. -/
theorem test_timer_match :
    let s := { State.reset with irqTm := false, timer := { Timer.reset with tmm := 3 } }
    let t := countPulse (countPulse (countPulse s))
    (t.timer.tmc, t.irqTm) = (3, false) ∧
      ((countPulse t).timer.tmc, (countPulse t).irqTm, (countPulse t).timer.out) = (0, true, false) := by
  decide

/-- The transfer of 95_test_vectors.md 2.9 with SI = 1 throughout. -/
theorem test_serial_transfer :
    let s := { State.reset with
      sio := { Sio.reset with sioen := true, siots := true, siock := 1, sfr := 0xA5 }
      pins := { Pins.initial with pod := 0xF } }
    let edges (k : Nat) := (fun u => sckRise (sckFall u))^[k] s
    (edges 1).sio.sfr = 0x4B ∧ (edges 7).sio.siots = true ∧
      ((edges 8).sio.sfr, (edges 8).sio.siots, (edges 8).irqSio) = (0xFF, false, true) := by
  decide

/-- An internal clock is put out on SCK (60_exceptions.md R321): low after a falling edge, released after a rising one. -/
theorem test_sck_output :
    let s := { State.reset with
      sio := { Sio.reset with sioen := true, siots := true, siock := 1 }
      pins := { Pins.initial with pod := 0xF } }
    (sckFall s).podPins.getLsbD 0 = false ∧ (sckRise (sckFall s)).podPins.getLsbD 0 = true := by
  decide

/-- A power-on reset out of STOP mode is of kind 2 (70_reset_and_hazards.md R360, R363): WR and SIOSFR stay. -/
theorem test_powerOn_in_stop :
    let s := { given [(0x78, 7)] with standby := .stop 8, sio := { Sio.reset with sfr := 0xA5 } }
    let t := resetAssert s .powerOn
    (t.wr, t.sio.sfr, t.standby) = (7, 0xA5, .resetHeld) := by
  decide

/-- Figure 13-1 (95_test_vectors.md W3): POE1 and POE0 output high, POE0 forced low, `CLR1 POE1`. -/
theorem test_port_e_hazard :
    let s := { State.reset with
      ports := { Ports.reset with poebio := 3, latchE := 3 }
      pins := { Pins.initial with poe := 2 } }
    after (exec (.andImm 0x6F 0xD) s) (fun t => t.ports.latchE) = some 0 ∧
      after (exec (.movImm 0x6F 0xD) s) (fun t => t.ports.latchE) = some 1 := by
  decide

/-- 95_test_vectors.md 2.10: an input-mode write loads the latch, a read still gives the pins. -/
theorem test_port_a_input_write :
    after (exec (.movImm 0x70 0xA) { State.reset with pins := { Pins.initial with poa := 5 } })
      (fun t => (t.ports.latchA, dm 0x70 t)) = some (0xA, 5) := by
  decide

/-! ## Witnesses: states and operands that meet the hypotheses of the statements, clause by clause -/

/-- A running state one instruction before an interrupt entry: all three sources requested and enabled. -/
def interruptible : State :=
  { program State.reset 0x123 [0x3CF0] with
    inte := true, irq := true, irqSio := true, ip := true, ipTm := true, ipSio := true }

/-- A step of `s` answers a next state of which `p` holds. -/
def stepsTo (s : State) (p : State → Bool) : Bool := (after (step s) p).getD false

theorem witness_EncodeOfDecode : decode 0x3CF0 = .ok .nop := by rfl

theorem witness_StepRunsDecodedInstruction :
    let s := program State.reset 0x2FF [0x3CF0]
    let u := program State.reset 0x000 [0x6800]
    (s.cpuMoves ∧ s.standby = .running ∧ (s.inte && !s.eiHold && s.anyWants) = false ∧
      decode (romWord s.rom s.pc) = .ok .nop) ∧
    u.cpuMoves ∧ u.standby = .running ∧ (u.inte && !u.eiHold && u.anyWants) = false ∧
      decode (romWord u.rom u.pc) = .error .unassignedOpcode := by
  refine ⟨⟨.inl rfl, rfl, rfl, by decide⟩, .inl rfl, rfl, rfl, by decide⟩

theorem witness_StepTakesScheduledEvents :
    { State.reset with schedule := [.countPulse] }.schedule = .countPulse :: [] ∧ Event.countPulse ≠ .cpu := by
  decide

theorem witness_EveryStepKeepsTheInvariant : ∃ t, State.reset.inv = true ∧ step State.reset = .next t :=
  ⟨_, by decide, rfl⟩

theorem witness_ProgramMemoryIsNeverWritten : ∃ t, step State.reset = .next t := ⟨_, rfl⟩

theorem witness_StepStopsOnlyForNamedReasons :
    (∃ s, step s = .refused (.undefinedWord 0x6800)) ∧ (∃ s, step s = .refused (.standbyOperand 0b0111)) ∧
      (∃ s, step s = .refused (.standbyOperand 0b0101)) ∧ (∃ s, step s = .refused .noNopBefore) ∧
      (∃ s, step s = .refused .flagDestination) ∧ (∃ s, step s = .refused .decimalOperand) ∧
      ∃ s, step s = .refused .serialDisturbed := by
  refine ⟨⟨program State.reset 0 [0x6800], by rfl⟩, ⟨program State.reset 1 [0x3AF7], by rfl⟩,
    ⟨program State.reset 1 [0x3BF5], by rfl⟩, ⟨program State.reset 0 [0x3AF8], by rfl⟩,
    ⟨program State.reset 0 [0x87F1], by rfl⟩, ⟨program (given [(0x7E, 1)]) 0 [0x820A], by rfl⟩,
    ⟨{ program State.reset 0 [0x38A1] with sio := { Sio.reset with sioen := true, siots := true } }, by rfl⟩⟩

theorem witness_InteIsRaisedOnlyByEi :
    let s := program State.reset 0 [0x38F0]
    s.inte = false ∧ stepsTo s (fun t => t.inte) = true := by decide

theorem witness_StandbyIsLeftOnlyByReleaseOrReset :
    let h := { State.reset with standby := .halt 0b0010 }
    let c := { State.reset with standby := .stop 0b1000 }
    stepsTo h (fun t => t.standby = .running) = true ∧ stepsTo c (fun t => t.standby = .stop 0b1000) = true ∧
      stepsTo { h with schedule := [.resetAssert .resetPin] } (fun t => t.standby = .resetHeld) = true := by decide

theorem witness_ReadsGiveWhatIsStored :
    (0x3F : Addr).toNat < 0x40 ∧ 0x74 ≤ (0x74 : Addr).toNat ∧ 0x6F ≤ (0x6F : Addr).toNat ∧ 0x74 ≤ (0x7F : Addr).toNat := by
  decide

/-- The cases of an addition or subtraction into a register or into memory, by CMP, BCD, destination and, with BCD = 1,
the operands 9 and 10. -/
theorem witness_arithmetic_cases :
    let s := given [(0x7E, 0xE)]
    let d := given [(0x7E, 1), (0x10, 9), (0x11, 0xA)]
    (s.psw.cmp = false ∧ s.psw.bcd = false ∧ rowCol s.rp 0xE ≠ 0x7F ∧ rowCol s.rp 0xF = 0x7F) ∧
      (ea s 0x7E ≠ 0x7F ∧ ea s 0x7F = 0x7F) ∧ (given [(0x7F, 8)]).psw.cmp = true ∧
      d.psw.bcd = true ∧ (memRead d 0 (rowCol d.rp 0)).toNat = 0 ∧
      (memRead d 1 (ea d 0x10)).toNat = 9 ∧ 9 < (memRead d 1 (ea d 0x11)).toNat ∧ 9 < (memRead d 0 (ea d 0x11)).toNat ∧
      9 < (0xA : Nibble).toNat := by decide

theorem witness_FiveRotationsRestore : (rowCol (given [(0x7E, 0x6)]).rp 0xF).toNat = 0x3F := by decide

/-- The stack pointers at which pushes and pops do and do not have a level. -/
theorem witness_stack_cases :
    { State.reset with sp := 1 }.canPush ∧ { State.reset with sp := 5 }.canPush ∧
      { State.reset with sp := 0 }.sp = 0 ∧ 6 ≤ { State.reset with sp := 6 }.sp.toNat ∧
      6 ≤ { State.reset with sp := 7 }.sp.toNat ∧ { State.reset with sp := 0 }.sp.toNat < 5 ∧
      { State.reset with sp := 4 }.sp.toNat < 5 ∧ 5 ≤ State.reset.sp.toNat ∧ State.reset.sp = 5 := by
  refine ⟨⟨by decide, by decide⟩, ⟨by decide, by decide⟩, ?_⟩
  decide

theorem witness_MovtReadsTheTableThroughTheStack :
    { State.reset with sp := 1, ar := 0x300 }.canPush ∧ 0x300 ≤ { State.reset with sp := 1, ar := 0x300 }.ar.toNat :=
  ⟨⟨by decide, by decide⟩, by decide⟩

theorem witness_Poke_addresses :
    0x40 ≤ (0x40 : Addr).toNat ∧ (0x00 : Addr).toNat < 0x40 ∧ (0x0F : Addr).toNat < 0x40 ∧
      ∀ rf ∈ ([0x00, 0x0F, 0x3C] : List Addr), rf ∉
        ([0x01, 0x0A, 0x10, 0x11, 0x12, 0x1A, 0x1F, 0x24, 0x2F, 0x32, 0x33, 0x34, 0x35, 0x3D, 0x3E, 0x3F] : List Addr) := by
  decide

/-- The four cases of a write to the serial control registers. -/
theorem witness_PokeSerialControl :
    let idle := { given [(0x78, 0x8)] with sio := { Sio.reset with sioen := true } }
    let busy := { given [(0x78, 0x4)] with sio := { Sio.reset with sioen := true, siots := true } }
    let disturbed (s : State) := s.sio.siots && (s.wr.getLsbD 0 != s.sio.sioen)
    let disturbedMode (s : State) :=
      (s.sio.siots && (s.wr.getLsbD 2 != s.sio.siohiz || s.wr.extractLsb' 0 2 != s.sio.siock)) ||
        (s.wr.getLsbD 3 && !s.sio.sioen)
    disturbed idle = false ∧ disturbedMode idle = false ∧ idle.wr.getLsbD 3 = true ∧
      disturbed busy = true ∧ disturbedMode busy = true ∧ disturbedMode (given [(0x78, 0x8)]) = true := by decide

theorem witness_PutStoresTheDataBuffer :
    State.reset.sio.siots = false ∧ { State.reset with sio := { Sio.reset with siots := true } }.sio.siots = true ∧
      ∀ p ∈ ([0x00, 0x02, 0x04, 0x3F, 0x41, 0x7F] : List Addr), p ∉ ([0x01, 0x03, 0x40] : List Addr) := by decide

theorem witness_EiAndDiTakeEffect :
    let s := { interruptible with inte := false }
    (s.schedule = [] ∧ s.standby = .running ∧ s.canPush ∧ s.firstWanted .int = true) ∧
      (∃ t, exec .ei s = .next t) ∧ (∃ t, exec .di s = .next t) ∧
      ∃ i, decode (romWord s.rom (s.pc + 1)) = .ok i :=
  ⟨⟨rfl, rfl, ⟨by decide, by decide⟩, by decide⟩, ⟨_, rfl⟩, ⟨_, rfl⟩, _, rfl⟩

/-- STOP and HALT: the operands' fixed-0 bits, and the NOP before. -/
theorem witness_standby_cases :
    legalHalt 0b1010 = true ∧ legalHalt 0b0001 = false ∧ legalStop 0b1000 = true ∧ legalStop 0b0001 = false ∧
      (let s := { program State.reset 0x0A [0x3CF0] with pc := 0x0B }
       romWord s.rom (s.pc - 1) = 0x3CF0 ∧ s.wants .int = false ∧ s.wants .serial = false) ∧
      romWord State.reset.rom (State.reset.pc - 1) ≠ 0x3CF0 := by decide

/-- Each source at an acceptance point, with and without a free level. -/
theorem witness_interrupt_cases :
    interruptible.acceptancePoint ∧ interruptible.inte = true ∧ interruptible.canPush ∧
      interruptible.firstWanted .int = true ∧ { interruptible with irq := false }.firstWanted .timer = true ∧
      { interruptible with irq := false, ipTm := false }.firstWanted .serial = true ∧
      (¬ { interruptible with sp := 0 }.canPush) ∧ ¬ { interruptible with sp := 6 }.canPush :=
  ⟨⟨.inl rfl, rfl, rfl⟩, rfl, ⟨by decide, by decide⟩, by decide, by decide, by decide,
    fun h => absurd h.1 (by decide), fun h => absurd h.2 (by decide)⟩

/-- The handler's state after its EI, from which a second interrupt is entered. -/
theorem witness_NestedEntryLosesTheFirstFlags :
    let s := interruptible
    let u := { interruptible with pc := 0x003, sp := 4, asr := s.asr.setIfInBounds 4 s.pc, irq := false }
    (s.acceptancePoint ∧ s.inte = true ∧ s.firstWanted .int = true ∧ 2 ≤ s.sp.toNat ∧ s.sp.toNat ≤ 5) ∧
      (u.acceptancePoint ∧ u.inte = true ∧ u.firstWanted .timer = true) ∧
      ∀ t, step s = .next t → u.sp = t.sp ∧ u.asr = t.asr := by
  refine ⟨⟨⟨.inl rfl, rfl, rfl⟩, rfl, by decide, by decide, by decide⟩, ⟨⟨.inl rfl, rfl, rfl⟩, rfl, by decide⟩, ?_⟩
  intro t ht
  have h : step interruptible = .next (entered interruptible.turn .int) := by rfl
  rw [h] at ht
  cases ht
  exact ⟨rfl, rfl⟩

theorem witness_RetiUndoesTheEntry :
    ∃ t, step interruptible = .next t ∧ t.sp = t.sp ∧ t.asr = t.asr ∧ t.intsk = t.intsk := ⟨_, rfl, rfl, rfl, rfl⟩

theorem witness_StandbyWaitsForItsReleaseCondition :
    { State.reset with standby := .halt 0b1000 }.cpuMoves ∧ { State.reset with schedule := [.cpu] }.cpuMoves ∧
      { State.reset with standby := .stop 0 }.standby = .stop 0 ∧
      { State.reset with standby := .resetHeld }.standby = .resetHeld ∧
      { State.reset with standby := .oscWait }.standby = .oscWait :=
  ⟨.inl rfl, .inr rfl, rfl, rfl, rfl⟩

theorem witness_ReleaseWithInteEntersTheInterrupt :
    let s := { interruptible with standby := .halt 0b1000 }
    (s.schedule = [] ∧ s.standby = .halt 0b1000 ∧ (0b1000 : Nibble).getLsbD 3 = true ∧ s.eiHold = false ∧
      s.firstWanted .int = true ∧ s.canPush) ∧ { s with inte := false }.firstWanted .int = true :=
  ⟨⟨rfl, rfl, rfl, rfl, by decide, ⟨by decide, by decide⟩⟩, by decide⟩

/-- The timer's statements: counting and not counting, and the pulses 0, TMM and TMM + 1 of a period. -/
theorem witness_timer_cases :
    let s (n : Nat) := { State.reset with
      schedule := List.replicate n .countPulse, timer := { Timer.reset with tmm := 2 } }
    (∀ n ∈ [0, 1, 2, 3], (s n).timer.tmen = true ∧ (s n).standby = .running ∧ (s n).timer.tmc = 0 ∧
      (s n).schedule = List.replicate n .countPulse ++ []) ∧
      0 ≤ (s 0).timer.tmm.toNat ∧ 2 ≤ (s 2).timer.tmm.toNat ∧ 3 = (s 3).timer.tmm.toNat + 1 ∧
      (s 1).schedule = .countPulse :: [] ∧ { (s 1) with standby := .stop 8 }.standby ≠ .running := by decide

/-- Eight bits on SI, the transfer ready to begin. -/
theorem witness_SerialTransferReceivesEightBits :
    let ps := [0, 0, 4, 4, 4, 4, 0, 0].map fun v : Nibble => { Pins.initial with pod := v }
    let s := { State.reset with
      sio := { Sio.reset with sioen := true, siots := true, sfr := 0xA5 }
      schedule := ps.flatMap fun p => [.pins p, .sckFall, .sckRise] }
    s.sio.sioen = true ∧ s.sio.siots = true ∧ s.sio.count = 0 ∧ s.standby = .running ∧ ps.length = 8 ∧
      (∀ p ∈ ps, p.podDriven.getLsbD 2 = true) ∧
      s.schedule = (ps.flatMap fun p => [Event.pins p, .sckFall, .sckRise]) ++ [] := by decide

/-- The serial clock's cases: running, HALT, STOP on the external clock; a rising edge in mid-transfer, the eighth, and
one before the first falling edge; SIOTS = 0, and STOP on an internal clock. -/
theorem witness_SerialEdgesShiftMsbFirst :
    let on : Sio := { Sio.reset with sioen := true, siots := true }
    let s (m : Standby) (u : Sio) (e : Event) := { State.reset with schedule := [e], standby := m, sio := u }
    (∀ m ∈ [Standby.running, .halt 8, .stop 8], (s m on .sckFall).schedule = .sckFall :: [] ∧ on.sioen = true ∧
      (s m on .sckFall).shifts ∧ (s m { on with started := true } .sckRise).shifts) ∧
      (s (.halt 8) { on with siock := 3, siohiz := true } .sckFall).shifts ∧
      { on with started := true, count := 7 }.count = 7 ∧ on.started = false ∧
      (s .running on .sckRise).podHeld 2 false ∧ (s .running on .sckRise).podHeld 0 false ∧
      (¬ (s .running { on with siots := false } .sckRise).shifts) ∧
      ¬ (s (.stop 8) { on with siock := 1 } .sckFall).shifts := by
  simp [State.shifts, State.podHeld, State.reset, Sio.reset, Pins.initial]

theorem witness_SelectedIntEdgeSetsIrq :
    let s := { State.reset with schedule := [.pins { Pins.initial with int := true }] }
    s.schedule = .pins { Pins.initial with int := true } :: [] ∧ s.standby ≠ .resetHeld ∧ s.standby ≠ .oscWait := by
  decide

/-- Lines the outside drives, at both ends of each port, and the pin functions. -/
theorem witness_PortsReadPinsOrLatches :
    (∀ n ∈ [0, 1, 2, 3], State.reset.podHeld n false) ∧ (∀ n ∈ [0, 1], State.reset.poeHeld n false) ∧
      { Ports.reset with podbio := 0xF, poebio := 3, latchE := 1 }.latchE.getLsbD 1 = false ∧
      State.reset.sio.sioen = false ∧ { Sio.reset with sioen := true, siohiz := true, siock := 1 }.siohiz = true ∧
      { Timer.reset with tmosel := true, out := false }.tmosel = true ∧ Timer.reset.out = true ∧
      { Sio.reset with sioen := true }.siohiz = false := by
  simp [State.podHeld, State.poeHeld, State.reset, Sio.reset, Timer.reset, Pins.initial]

theorem witness_EndOfRomRunsSkf :
    ∀ a ∈ ([0x300, 0x3FF] : List ProgAddr), let s := { State.reset with pc := a }
      s.schedule = [] ∧ s.standby = .running ∧ (s.inte && !s.eiHold && s.anyWants) = false ∧
        0x300 ≤ s.pc.toNat ∧ s.psw.ixe = false := by decide

theorem witness_ResetEventsOfKindsOneAndTwo :
    let s (c : ResetCause) (m : Standby) := { State.reset with standby := m, schedule := [.resetAssert c] }
    (∀ c ∈ [ResetCause.resetPin, .powerOn, .powerDown], (s c .running).schedule = .resetAssert c :: []) ∧
      (s .powerDown .running).pdresen = false ∧ { s .powerDown (.halt 8) with pdresen := true }.pdresen = true ∧
      (s .resetPin (.stop 0)).standby = .stop 0 ∧ (s .powerOn (.halt 8)).standby = .halt 8 := by decide

theorem witness_ResetRunsFromZeroAfterTheWait :
    let l : List Event := [.resetAssert .resetPin, .cpu, .resetRelease, .cpu, .oscWaitOver]
    { State.reset with schedule := l }.schedule = l ++ [] := rfl

end Sys2Proof.Tests
end

section
/-! PROOFS. Encoding (30_encoding.md): the decoder is the opcode table of R129. The five masks of the table are its
formats: a word accepted by a row of a format decodes to that row, and a word that decodes belongs to one format, whose
patterns are listed by the fields that select them. -/

namespace Sys2Proof.Machine

/-! ## A word and its four fields (R121) -/

/-- The word of an operation code and three operand fields. -/
def wordOfFields (op : BitVec 5) (f1 : BitVec 3) (f2 f3 : BitVec 4) : Word := op ++ f1 ++ f2 ++ f3

theorem wordOfFields_of_word (w : Word) : wordOfFields (opField w) (f1Field w) (f2Field w) (f3Field w) = w := by
  have join1 : (opField w ++ f1Field w : BitVec 8) = w.extractLsb' 8 8 :=
    BitVec.extractLsb'_append_extractLsb'_eq_extractLsb' rfl
  have join2 : (w.extractLsb' 8 8 ++ f2Field w : BitVec 12) = w.extractLsb' 4 12 :=
    BitVec.extractLsb'_append_extractLsb'_eq_extractLsb' rfl
  have join3 : (w.extractLsb' 4 12 ++ f3Field w : BitVec 16) = w.extractLsb' 0 16 :=
    BitVec.extractLsb'_append_extractLsb'_eq_extractLsb' rfl
  rw [wordOfFields, join1, join2, join3, BitVec.extractLsb'_eq_self]

/-- A mask acts on each field by itself. -/
theorem and_wordOfFields (w : Word) (op : BitVec 5) (f1 : BitVec 3) (f2 f3 : BitVec 4) :
    w &&& wordOfFields op f1 f2 f3 =
      wordOfFields (opField w &&& op) (f1Field w &&& f1) (f2Field w &&& f2) (f3Field w &&& f3) := by
  conv_lhs => rw [← wordOfFields_of_word w]
  have and2 : (opField w ++ f1Field w : BitVec 8) &&& (op ++ f1) = (opField w &&& op) ++ (f1Field w &&& f1) :=
    BitVec.and_append
  have and3 : (opField w ++ f1Field w ++ f2Field w : BitVec 12) &&& (op ++ f1 ++ f2) =
      (opField w &&& op) ++ (f1Field w &&& f1) ++ (f2Field w &&& f2) :=
    BitVec.and_append.trans (congrArg (· ++ (f2Field w &&& f2)) and2)
  exact BitVec.and_append.trans (congrArg (· ++ (f3Field w &&& f3)) and3)

theorem addressOf_eq_mField (w : Word) : addressOf w = mField w := by
  have join : (w.extractLsb' 8 3 ++ w.extractLsb' 4 4 : BitVec 7) = w.extractLsb' 4 7 :=
    BitVec.extractLsb'_append_extractLsb'_eq_extractLsb' rfl
  exact join.symm

section
variable {w mask p : Word}

theorem opField_of_masked (hmask : opField mask = BitVec.allOnes 5) (h : w &&& mask = p) :
    opField w = opField p := by
  have hand : opField (w &&& mask) = opField w &&& opField mask := BitVec.extractLsb'_and
  rw [← h, hand, hmask, BitVec.and_allOnes]

theorem f1Field_of_masked (hmask : f1Field mask = BitVec.allOnes 3) (h : w &&& mask = p) :
    f1Field w = f1Field p := by
  have hand : f1Field (w &&& mask) = f1Field w &&& f1Field mask := BitVec.extractLsb'_and
  rw [← h, hand, hmask, BitVec.and_allOnes]

theorem f2Field_of_masked (hmask : f2Field mask = BitVec.allOnes 4) (h : w &&& mask = p) :
    f2Field w = f2Field p := by
  have hand : f2Field (w &&& mask) = f2Field w &&& f2Field mask := BitVec.extractLsb'_and
  rw [← h, hand, hmask, BitVec.and_allOnes]

end

/-! ## When the parts of the decoder accept -/

theorem withF1_eq_ok_iff (w : Word) (c : BitVec 3) (i j : Instr) :
    withF1 w c i = .ok j ↔ f1Field w = c ∧ i = j := by
  unfold withF1
  split <;> simp [*]

theorem withF1F3_eq_ok_iff (w : Word) (c : BitVec 3) (i j : Instr) :
    withF1F3 w c i = .ok j ↔ f3Field w = 0 ∧ f1Field w = c ∧ i = j := by
  unfold withF1F3
  split <;> simp_all [withF1_eq_ok_iff]

theorem decodeAddress_eq_ok_iff (w : Word) (c : ProgAddr → Instr) (j : Instr) :
    decodeAddress w c = .ok j ↔ w.getLsbD 10 = false ∧ c (w.extractLsb' 0 10) = j := by
  unfold decodeAddress
  split <;> simp_all

theorem decode_groupX {w : Word} (hop : opField w = 0b00111) : decode w = decodeGroupX w := by
  rw [decode, hop]
  rfl

theorem decode_br {w : Word} (hop : opField w = 0b01100) : decode w = decodeAddress w .br := by
  rw [decode, hop]
  rfl

theorem decode_call {w : Word} (hop : opField w = 0b11100) : decode w = decodeAddress w .call := by
  rw [decode, hop]
  rfl

/-! ## A word that a row accepts decodes to that row, format by format -/

/-- The rows of the table with the mask `mask`. -/
def rowsMasked (mask : Word) : List OpcodeRow := opcodeRows.filter fun row => row.mask = mask

theorem mem_rowsMasked {mask : Word} {row : OpcodeRow} :
    row ∈ rowsMasked mask ↔ row ∈ opcodeRows ∧ row.mask = mask := by
  simp [rowsMasked]

section
variable {w : Word} {row : OpcodeRow}

/-- Formats RM and MI: the operation code selects the row (R127). -/
theorem decode_of_operationRow (hrow : row ∈ rowsMasked 0xF800) (h : w &&& 0xF800 = row.pattern) :
    decode w = .ok (row.instr w) := by
  fin_cases hrow
  all_goals
    rw [decode, opField_of_masked rfl h, ← addressOf_eq_mField]
    rfl

/-- Format A: the operation code selects the row and bit 10 is 0 (R126). -/
theorem decode_of_addressRow (hrow : row ∈ rowsMasked 0xFC00) (h : w &&& 0xFC00 = row.pattern) :
    decode w = .ok (row.instr w) := by
  fin_cases hrow
  all_goals have hbit : w.getLsbD 10 = false := by simpa using congrArg (BitVec.getLsbD · 10) h
  · rw [decode_br (opField_of_masked rfl h)]
    exact (decodeAddress_eq_ok_iff w _ _).2 ⟨hbit, rfl⟩
  · rw [decode_call (opField_of_masked rfl h)]
    exact (decodeAddress_eq_ok_iff w _ _).2 ⟨hbit, rfl⟩

/-- Group X with a 7-bit address in `f1` and `f3`: `f2` selects the row (R124, R128). -/
theorem decode_of_splitAddressRow (hrow : row ∈ rowsMasked 0xF8F0) (h : w &&& 0xF8F0 = row.pattern) :
    decode w = .ok (row.instr w) := by
  fin_cases hrow
  all_goals
    rw [decode_groupX (opField_of_masked rfl h), decodeGroupX, f2Field_of_masked rfl h]
    rfl

/-- Group X with an operand in `f3`: `f1` and `f2` select the row (R128). -/
theorem decode_of_lowOperandRow (hrow : row ∈ rowsMasked 0xFFF0) (h : w &&& 0xFFF0 = row.pattern) :
    decode w = .ok (row.instr w) := by
  fin_cases hrow
  all_goals
    rw [decode_groupX (opField_of_masked rfl h), decodeGroupX, withF1, f2Field_of_masked rfl h,
      f1Field_of_masked rfl h]
    rfl

/-- Group X without operands: the whole word is the row's pattern (R128). -/
theorem decode_of_constantRow (hrow : row ∈ rowsMasked 0xFFFF) (h : w &&& 0xFFFF = row.pattern) :
    decode w = .ok (row.instr w) := by
  have hw : w = row.pattern := BitVec.and_allOnes.symm.trans h
  rw [hw]
  fin_cases hrow
  all_goals rfl

theorem mask_of_mem_opcodeRows :
    ∀ row ∈ opcodeRows, row.mask ∈ [0xF800, 0xFC00, 0xF8F0, 0xFFF0, 0xFFFF] := by decide

theorem decode_of_accepting_row (hrow : row ∈ opcodeRows) (h : w &&& row.mask = row.pattern) :
    decode w = .ok (row.instr w) := by
  have hmem : row ∈ rowsMasked row.mask := mem_rowsMasked.2 ⟨hrow, rfl⟩
  have hmask := mask_of_mem_opcodeRows row hrow
  generalize row.mask = mask at h hmem hmask
  fin_cases hmask
  · exact decode_of_operationRow hmem h
  · exact decode_of_addressRow hmem h
  · exact decode_of_splitAddressRow hmem h
  · exact decode_of_lowOperandRow hmem h
  · exact decode_of_constantRow hmem h

end

/-! ## The fields that select a row, in the order of the table -/

/-- The operation codes of formats RM and MI (R127). -/
def operationCodes : List (BitVec 5) :=
  [0b00000, 0b10000, 0b00010, 0b10010, 0b00001, 0b10001, 0b00011, 0b10011, 0b00110, 0b10110, 0b00100, 0b10100,
    0b00101, 0b10101, 0b11110, 0b11111, 0b01001, 0b01011, 0b11001, 0b11011, 0b01000, 0b11000, 0b01010, 0b11010,
    0b11101]

/-- The operation codes of BR and CALL (R126). -/
def addressCodes : List (BitVec 5) := [0b01100, 0b11100]

/-- The `f2` of PEEK, POKE, GET and PUT (R128). -/
def splitAddressCodes : List (BitVec 4) := [0b0011, 0b0010, 0b1011, 0b1010]

/-- The `f1` and `f2` of RORC, STOP and HALT (R128). -/
def lowOperandCodes : List (BitVec 3 × BitVec 4) := [(0b000, 0b0111), (0b010, 0b1111), (0b011, 0b1111)]

/-- The `f1` and `f2` of the instructions without operands (R128). -/
def constantCodes : List (BitVec 3 × BitVec 4) :=
  [(0b000, 0b1001), (0b000, 0b1000), (0b000, 0b0001), (0b000, 0b1101), (0b000, 0b1100), (0b000, 0b0100),
    (0b000, 0b0101), (0b000, 0b1110), (0b001, 0b1110), (0b100, 0b1110), (0b000, 0b1111), (0b001, 0b1111),
    (0b100, 0b1111)]

theorem operationRows_patterns :
    (rowsMasked 0xF800).map (·.pattern) = operationCodes.map fun op => wordOfFields op 0 0 0 := rfl

theorem addressRows_patterns :
    (rowsMasked 0xFC00).map (·.pattern) = addressCodes.map fun op => wordOfFields op 0 0 0 := rfl

theorem splitAddressRows_patterns :
    (rowsMasked 0xF8F0).map (·.pattern) = splitAddressCodes.map fun f2 => wordOfFields 0b00111 0 f2 0 := rfl

theorem lowOperandRows_patterns :
    (rowsMasked 0xFFF0).map (·.pattern) = lowOperandCodes.map fun f => wordOfFields 0b00111 f.1 f.2 0 := rfl

theorem constantRows_patterns :
    (rowsMasked 0xFFFF).map (·.pattern) = constantCodes.map fun f => wordOfFields 0b00111 f.1 f.2 0 := rfl

/-! ## A word that decodes is accepted by a row -/

section
variable {w : Word} {i : Instr}

/-- The four unassigned operation codes are those of R132. -/
theorem opField_cases : ∀ op : BitVec 5,
    op ∈ operationCodes ∨ op ∈ addressCodes ∨ op = 0b00111 ∨ op ∈ [0b01101, 0b01110, 0b01111, 0b10111] := by
  decide

theorem format_of_decode_ok (h : decode w = .ok i) :
    opField w ∈ operationCodes ∨ opField w ∈ addressCodes ∧ w.getLsbD 10 = false ∨
      opField w = 0b00111 ∧ decodeGroupX w = .ok i := by
  rcases opField_cases (opField w) with hop | hop | hop | hop
  · exact .inl hop
  · have hbit : w.getLsbD 10 = false := by
      rcases List.mem_pair.1 hop with hbr | hcall
      · exact ((decodeAddress_eq_ok_iff w _ _).1 (decode_br hbr ▸ h)).1
      · exact ((decodeAddress_eq_ok_iff w _ _).1 (decode_call hcall ▸ h)).1
    exact .inr (.inl ⟨hop, hbit⟩)
  · exact .inr (.inr ⟨hop, decode_groupX hop ▸ h⟩)
  · generalize hcode : opField w = op at hop
    rw [decode, hcode] at h
    fin_cases hop <;> cases h

/-- The cases are the branches of `decodeGroupX`, by `f2`; those of 1110 and 1111 branch again on `f1`. -/
theorem format_of_decodeGroupX_ok (h : decodeGroupX w = .ok i) :
    f2Field w ∈ splitAddressCodes ∨ (f1Field w, f2Field w) ∈ lowOperandCodes ∨
      (f1Field w, f2Field w) ∈ constantCodes ∧ f3Field w = 0 := by
  unfold decodeGroupX at h
  split at h
  -- POKE, PEEK, PUT, GET
  case h_2 | h_3 | h_9 | h_10 => simp [BitVec.toNat_eq, splitAddressCodes, *]
  -- RORC
  case h_6 =>
    obtain ⟨h1, -⟩ := (withF1_eq_ok_iff ..).1 h
    simp [BitVec.toNat_eq, lowOperandCodes, *]
  -- RET, RETSK, RETI
  case h_13 =>
    split at h
    case h_4 => cases h
    all_goals
      obtain ⟨h3, -⟩ := (withF1F3_eq_ok_iff ..).1 h
      simp [BitVec.toNat_eq, constantCodes, *]
  -- STOP and HALT, then EI, DI, NOP
  case h_14 =>
    split at h
    case h_3 | h_4 => simp [BitVec.toNat_eq, lowOperandCodes, *]
    case h_6 => cases h
    all_goals
      obtain ⟨h3, -⟩ := (withF1F3_eq_ok_iff ..).1 h
      simp [BitVec.toNat_eq, constantCodes, *]
  -- an unassigned sub-opcode, then the seven rows with `f1` and `f3` constant
  case h_15 => cases h
  all_goals
    obtain ⟨h3, h1, -⟩ := (withF1F3_eq_ok_iff ..).1 h
    simp [BitVec.toNat_eq, constantCodes, *]

theorem accepting_row_of_pattern {mask p : Word} (hp : p ∈ (rowsMasked mask).map (·.pattern)) (hw : w &&& mask = p) :
    ∃ row ∈ opcodeRows, w &&& row.mask = row.pattern := by
  obtain ⟨row, hrow, rfl⟩ := List.mem_map.1 hp
  obtain ⟨hmem, rfl⟩ := mem_rowsMasked.1 hrow
  exact ⟨row, hmem, hw⟩

theorem accepting_row_of_decode_ok (h : decode w = .ok i) : ∃ row ∈ opcodeRows, w &&& row.mask = row.pattern := by
  rcases format_of_decode_ok h with hop | ⟨hop, hbit⟩ | ⟨hop, hX⟩
  · refine accepting_row_of_pattern (operationRows_patterns ▸ List.mem_map_of_mem hop) ?_
    exact (and_wordOfFields w (BitVec.allOnes 5) 0 0 0).trans (by simp [-BitVec.reduceAllOnes])
  · have hf1 : f1Field w &&& 0b100#3 = 0 := by
      have hclear : ∀ f1 : BitVec 3, f1.getLsbD 2 = false → f1 &&& 0b100 = 0 := by decide
      exact hclear _ (by simpa [f1Field] using hbit)
    refine accepting_row_of_pattern (addressRows_patterns ▸ List.mem_map_of_mem hop) ?_
    exact (and_wordOfFields w (BitVec.allOnes 5) 0b100 0 0).trans (by simp [-BitVec.reduceAllOnes, hf1])
  · rcases format_of_decodeGroupX_ok hX with h2 | h12 | ⟨h12, h3⟩
    · refine accepting_row_of_pattern (splitAddressRows_patterns ▸ List.mem_map_of_mem h2) ?_
      exact (and_wordOfFields w (BitVec.allOnes 5) 0 (BitVec.allOnes 4) 0).trans (by simp [-BitVec.reduceAllOnes, hop])
    · refine accepting_row_of_pattern (lowOperandRows_patterns ▸ List.mem_map_of_mem h12) ?_
      exact (and_wordOfFields w (BitVec.allOnes 5) (BitVec.allOnes 3) (BitVec.allOnes 4) 0).trans
        (by simp [-BitVec.reduceAllOnes, hop])
    · refine accepting_row_of_pattern (constantRows_patterns ▸ List.mem_map_of_mem h12) ?_
      exact (and_wordOfFields w (BitVec.allOnes 5) (BitVec.allOnes 3) (BitVec.allOnes 4) (BitVec.allOnes 4)).trans
        (by simp [-BitVec.reduceAllOnes, hop, h3])

end

/-- Settles O1: a row that accepts a word is what the word decodes to, and every word that decodes has such a row. -/
theorem decodeIsTheOpcodeTable : Obligations.DecodeIsTheOpcodeTable := by
  refine ⟨rfl, fun w i => ⟨fun h => ?_, ?_⟩⟩
  · obtain ⟨row, hrow, hacc⟩ := accepting_row_of_decode_ok h
    have hrow_ok : decode w = .ok (row.instr w) := decode_of_accepting_row hrow hacc
    exact ⟨row, hrow, hacc, Except.ok.inj (hrow_ok.symm.trans h)⟩
  · rintro ⟨row, hrow, hacc, rfl⟩
    exact decode_of_accepting_row hrow hacc

end Sys2Proof.Machine
end

section
/-! PROOFS. Branches (45_branch_subroutine.md), and for every instruction the rule that its row of the opcode table is
the only one that encodes it. -/

namespace Sys2Proof.Machine

/-! ## A row of the table encodes its instruction (30_encoding.md R129) -/

/-- The rows stand in the order of the constructors of `Instr`: no two rows share a constructor, whatever the word. -/
theorem opcodeRows_ctorIdx (w : Word) :
    opcodeRows.map (fun row => (row.instr w).ctorIdx) = List.range 47 := rfl

theorem row_eq_of_instr_eq {w : Word} {row row' : OpcodeRow} (hrow : row ∈ opcodeRows) (hrow' : row' ∈ opcodeRows)
    (h : row.instr w = row'.instr w) : row = row' := by
  have hnodup : (opcodeRows.map fun row => (row.instr w).ctorIdx).Nodup :=
    opcodeRows_ctorIdx w ▸ List.nodup_range
  exact List.inj_on_of_nodup_map hnodup hrow hrow' (congrArg Instr.ctorIdx h)

theorem encodes_of_mem_opcodeRows {mask pattern : Word} {i : Word → Instr}
    (hrow : ⟨mask, pattern, i⟩ ∈ opcodeRows) : Encodes mask pattern i := by
  refine fun w => ⟨fun hacc => decode_of_accepting_row hrow hacc, fun hdec => ?_⟩
  obtain ⟨row, hmem, hacc, hinstr⟩ := (decodeIsTheOpcodeTable.2 w (i w)).1 hdec
  obtain rfl : row = ⟨mask, pattern, i⟩ := row_eq_of_instr_eq hmem hrow hinstr
  exact hacc

/-! ## BR addr and BR @AR (R230, R231) -/

theorem exec_br (a : ProgAddr) (s : State) : exec (.br a) s = .next { s with pc := a } := rfl

theorem exec_brAr (s : State) : exec .brAr s = .next { s with pc := s.ar } := rfl

/-- Settles O35: the words are those of the two rows of the table, and `exec` only loads the pc. -/
theorem branchesLoadThePc : Obligations.BranchesLoadThePc := by
  refine ⟨⟨?_, ?_⟩, fun a s => ⟨exec_br a s, exec_brAr s⟩⟩
  · exact encodes_of_mem_opcodeRows (by simp [opcodeRows, controlRows])
  · exact encodes_of_mem_opcodeRows (by simp [opcodeRows, controlRows])

end Sys2Proof.Machine
end

section
/-! PROOFS. NOP (46_interrupt_other.md R249). -/

namespace Sys2Proof.Machine

theorem exec_nop (s : State) : exec .nop s = .next { s with pc := s.pc + 1 } := rfl

/-- The word of zeros has the operation code of ADD r, m, not that of group X, where NOP stands. -/
theorem decode_allZeros : decode 0x0000 = .ok (.addReg 0 0x00) :=
  decode_of_accepting_row (w := 0x0000)
    (row := ⟨0xF800, 0x0000, fun w => .addReg (lowNibbleOf w) (addressOf w)⟩)
    (by simp [opcodeRows, arithmeticRows]) rfl

/-- The word of ones has the operation code of SKF, and its address field is that of PSW, 7FH. -/
theorem decode_allOnes : decode 0xFFFF = .ok (.skf 0x7F 0xF) :=
  decode_of_accepting_row (w := 0xFFFF)
    (row := ⟨0xF800, 0xF800, fun w => .skf (addressOf w) (lowNibbleOf w)⟩)
    (by simp [opcodeRows, judgeRows]) rfl

/-- Settles O41: the word is that of the table's last row, and `exec` only moves the pc. -/
theorem nopOnlyMovesThePc : Obligations.NopOnlyMovesThePc := by
  refine ⟨?_, decode_allZeros, decode_allOnes, exec_nop⟩
  exact encodes_of_mem_opcodeRows (by simp [opcodeRows, controlRows])

end Sys2Proof.Machine
end

section
/-! PROOFS. Encoding (30_encoding.md): decode after encode, encode after decode, and the words of R132 that are none.
The encoder and the decoder meet in the four fields of R121: every format's word is a word of fields. -/

namespace Sys2Proof.Machine

/-! ## The fields of a word put together from them (R121) -/

section
variable (op : BitVec 5) (f1 : BitVec 3) (f2 f3 : BitVec 4)

@[simp] theorem f3Field_wordOfFields : f3Field (wordOfFields op f1 f2 f3) = f3 :=
  BitVec.extractLsb'_append_eq_right

@[simp] theorem f2Field_wordOfFields : f2Field (wordOfFields op f1 f2 f3) = f2 :=
  have hdrop : f2Field (wordOfFields op f1 f2 f3) = (op ++ f1 ++ f2 : BitVec 12).extractLsb' 0 4 :=
    BitVec.extractLsb'_append_eq_of_le (by decide)
  hdrop.trans BitVec.extractLsb'_append_eq_right

@[simp] theorem f1Field_wordOfFields : f1Field (wordOfFields op f1 f2 f3) = f1 :=
  have hdrop3 : f1Field (wordOfFields op f1 f2 f3) = (op ++ f1 ++ f2 : BitVec 12).extractLsb' 4 3 :=
    BitVec.extractLsb'_append_eq_of_le (by decide)
  have hdrop2 : (op ++ f1 ++ f2 : BitVec 12).extractLsb' 4 3 = (op ++ f1 : BitVec 8).extractLsb' 0 3 :=
    BitVec.extractLsb'_append_eq_of_le (by decide)
  (hdrop3.trans hdrop2).trans BitVec.extractLsb'_append_eq_right

@[simp] theorem opField_wordOfFields : opField (wordOfFields op f1 f2 f3) = op :=
  have hdrop3 : opField (wordOfFields op f1 f2 f3) = (op ++ f1 ++ f2 : BitVec 12).extractLsb' 7 5 :=
    BitVec.extractLsb'_append_eq_of_le (by decide)
  have hdrop2 : (op ++ f1 ++ f2 : BitVec 12).extractLsb' 7 5 = (op ++ f1 : BitVec 8).extractLsb' 3 5 :=
    BitVec.extractLsb'_append_eq_of_le (by decide)
  (hdrop3.trans hdrop2).trans BitVec.extractLsb'_append_eq_left

end

theorem row_append_col (a : Addr) : (a.extractLsb' 4 3 ++ a.extractLsb' 0 4 : Addr) = a :=
  rowCol_rowOf_colOf a

/-! ## The formats as words of fields (R122 to R128) -/

theorem wordRM_eq (op : BitVec 5) (m : Addr) (f3 : Nibble) :
    wordRM op m f3 = wordOfFields op (m.extractLsb' 4 3) (m.extractLsb' 0 4) f3 := by
  rw [wordRM, wordOfFields]
  conv_lhs => rw [← row_append_col m]
  exact congrArg (· ++ f3) (BitVec.append_assoc'.trans (BitVec.cast_eq rfl _))

theorem wordX1_eq (a : Addr) (f2 : Nibble) :
    wordX1 a f2 = wordOfFields 0b00111 (a.extractLsb' 4 3) f2 (a.extractLsb' 0 4) := rfl

theorem opField_wordA (op : BitVec 5) (a : ProgAddr) : opField (wordA op a) = op :=
  have hdrop : opField (wordA op a) = (op ++ 0#1 : BitVec 6).extractLsb' 1 5 :=
    BitVec.extractLsb'_append_eq_of_le (by decide)
  hdrop.trans BitVec.extractLsb'_append_eq_left

theorem bitTen_wordA (op : BitVec 5) (a : ProgAddr) : (wordA op a).getLsbD 10 = false :=
  have hfixed : ∀ op : BitVec 5, (op ++ 0#1 : BitVec 6).getLsbD 0 = false := by decide
  BitVec.getLsbD_append.trans (hfixed op)

theorem address_wordA (op : BitVec 5) (a : ProgAddr) : (wordA op a).extractLsb' 0 10 = a :=
  BitVec.extractLsb'_append_eq_right

@[simp] theorem opField_wordRM (op : BitVec 5) (m : Addr) (f3 : Nibble) : opField (wordRM op m f3) = op := by
  rw [wordRM_eq, opField_wordOfFields]

@[simp] theorem mField_wordRM (op : BitVec 5) (m : Addr) (f3 : Nibble) : mField (wordRM op m f3) = m := by
  rw [wordRM_eq, mField, f1Field_wordOfFields, f2Field_wordOfFields, row_append_col]

@[simp] theorem f3Field_wordRM (op : BitVec 5) (m : Addr) (f3 : Nibble) : f3Field (wordRM op m f3) = f3 :=
  BitVec.extractLsb'_append_eq_right

@[simp] theorem xField_wordX1 (a : Addr) (f2 : Nibble) : xField (wordX1 a f2) = a := by
  rw [wordX1_eq, xField, f1Field_wordOfFields, f3Field_wordOfFields, row_append_col]

/-! ## Decode after encode (O2) -/

/-- BR and CALL: the address field stands below a bit 10 that is 0 (R126). -/
theorem decodeAddress_wordA (op : BitVec 5) (a : ProgAddr) (c : ProgAddr → Instr) :
    decodeAddress (wordA op a) c = .ok (c a) :=
  (decodeAddress_eq_ok_iff _ _ _).2 ⟨bitTen_wordA op a, by rw [address_wordA]⟩

theorem decode_wordX (f1 : BitVec 3) (f2 f3 : Nibble) : decode (wordX f1 f2 f3) = decodeGroupX (wordX f1 f2 f3) :=
  decode_groupX (opField_wordOfFields _ f1 f2 f3)

@[simp] theorem f1Field_wordX (f1 : BitVec 3) (f2 f3 : Nibble) : f1Field (wordX f1 f2 f3) = f1 :=
  f1Field_wordOfFields _ _ _ _

@[simp] theorem f2Field_wordX (f1 : BitVec 3) (f2 f3 : Nibble) : f2Field (wordX f1 f2 f3) = f2 :=
  f2Field_wordOfFields _ _ _ _

@[simp] theorem f3Field_wordX (f1 : BitVec 3) (f2 f3 : Nibble) : f3Field (wordX f1 f2 f3) = f3 :=
  f3Field_wordOfFields _ _ _ _

@[simp] theorem f2Field_wordX1 (a : Addr) (f2 : Nibble) : f2Field (wordX1 a f2) = f2 := f2Field_wordX _ _ _

theorem decode_wordX1 (a : Addr) (f2 : Nibble) : decode (wordX1 a f2) = decodeGroupX (wordX1 a f2) :=
  decode_wordX _ _ _

theorem decode_encode (i : Instr) : decode (encode i) = .ok i := by
  cases i
  -- format A
  case br a => exact (decode_br (opField_wordA _ a)).trans (decodeAddress_wordA _ a _)
  case call a => exact (decode_call (opField_wordA _ a)).trans (decodeAddress_wordA _ a _)
  -- group X with a 7-bit address
  case peek | poke | get | put => simp [encode, decode_wordX1, decodeGroupX]
  -- group X with an operand in `f3`
  case rorc | stop | halt => simp [encode, decode_wordX, decodeGroupX, withF1]
  -- group X without operands: the words are constants
  case incAr | incIx | movt | push | pop | brAr | callAr | ret | retsk | reti | ei | di | nop => rfl
  -- formats RM and MI
  all_goals simp [encode, decode]

/-- The two bytes of a word, the low one first, join to the word (log 3). -/
theorem wordOfBytes_bytes (w : Word) : wordOfBytes (w.extractLsb' 0 8) (w.extractLsb' 8 8) = w := by
  have join : (w.extractLsb' 8 8 ++ w.extractLsb' 0 8 : BitVec 16) = w.extractLsb' 0 16 :=
    BitVec.extractLsb'_append_extractLsb'_eq_extractLsb' rfl
  exact join.trans BitVec.extractLsb'_eq_self

theorem decodeBytes_bytesOfWord {w : Word} {i : Instr} (h : decode w = .ok i) (rest : List Byte) :
    decodeBytes (bytesOfWord w ++ rest) = .ok (i, rest) := by
  simp [decodeBytes, bytesOfWord, wordOfBytes_bytes, h]

/-- Settles O2: the fields the decoder reads are those the encoder wrote, format by format. -/
theorem decodeOfEncode : Obligations.DecodeOfEncode :=
  fun i rest => ⟨decode_encode i, decodeBytes_bytesOfWord (decode_encode i) rest⟩

/-! ## Encode after decode (O3) -/

section
variable {w : Word} {row : OpcodeRow}

/-- Formats RM and MI: the operands and the operation code are all of the word. -/
theorem wordRM_of_word (w : Word) : wordRM (opField w) (addressOf w) (lowNibbleOf w) = w := by
  have hrow : (addressOf w).extractLsb' 4 3 = f1Field w := by
    rw [addressOf_eq_mField]; exact BitVec.extractLsb'_append_eq_left
  have hcol : (addressOf w).extractLsb' 0 4 = f2Field w := by
    rw [addressOf_eq_mField]; exact BitVec.extractLsb'_append_eq_right
  rw [wordRM_eq, hrow, hcol]
  exact wordOfFields_of_word w

theorem encode_of_operationRow (hrow : row ∈ rowsMasked 0xF800) (h : w &&& 0xF800 = row.pattern) :
    encode (row.instr w) = w := by
  conv_rhs => rw [← wordRM_of_word w, opField_of_masked rfl h]
  fin_cases hrow
  all_goals rfl

/-- Format A: bit 10 is 0 and the rest of the word is operation code and address. -/
theorem wordA_of_word (hbit : w.getLsbD 10 = false) : wordA (opField w) (w.extractLsb' 0 10) = w := by
  have join1 : (opField w ++ w.extractLsb' 10 1 : BitVec 6) = w.extractLsb' 10 6 :=
    BitVec.extractLsb'_append_extractLsb'_eq_extractLsb' rfl
  have join2 : (w.extractLsb' 10 6 ++ w.extractLsb' 0 10 : BitVec 16) = w.extractLsb' 0 16 :=
    BitVec.extractLsb'_append_extractLsb'_eq_extractLsb' rfl
  have hzero : w.extractLsb' 10 1 = 0#1 := by
    apply BitVec.eq_of_getLsbD_eq
    intro k hk
    obtain rfl : k = 0 := by omega
    simpa using hbit
  rw [wordA, ← hzero, join1, join2, BitVec.extractLsb'_eq_self]

theorem encode_of_addressRow (hrow : row ∈ rowsMasked 0xFC00) (h : w &&& 0xFC00 = row.pattern) :
    encode (row.instr w) = w := by
  have hbit : w.getLsbD 10 = false := by
    fin_cases hrow
    all_goals simpa using congrArg (BitVec.getLsbD · 10) h
  conv_rhs => rw [← wordA_of_word hbit, opField_of_masked rfl h]
  fin_cases hrow
  all_goals rfl

/-- Group X with a 7-bit address in `f1` and `f3`. -/
theorem encode_of_splitAddressRow (hrow : row ∈ rowsMasked 0xF8F0) (h : w &&& 0xF8F0 = row.pattern) :
    encode (row.instr w) = w := by
  have hr : (splitAddressOf w).extractLsb' 4 3 = f1Field w := BitVec.extractLsb'_append_eq_left
  have hc : (splitAddressOf w).extractLsb' 0 4 = f3Field w := BitVec.extractLsb'_append_eq_right
  conv_rhs => rw [← wordOfFields_of_word w, opField_of_masked rfl h, f2Field_of_masked rfl h, ← hr, ← hc]
  fin_cases hrow
  all_goals rfl

theorem encode_of_lowOperandRow (hrow : row ∈ rowsMasked 0xFFF0) (h : w &&& 0xFFF0 = row.pattern) :
    encode (row.instr w) = w := by
  conv_rhs =>
    rw [← wordOfFields_of_word w, opField_of_masked rfl h, f1Field_of_masked rfl h, f2Field_of_masked rfl h]
  fin_cases hrow
  all_goals rfl

theorem encode_of_constantRow (hrow : row ∈ rowsMasked 0xFFFF) (h : w &&& 0xFFFF = row.pattern) :
    encode (row.instr w) = w := by
  have hw : w = row.pattern := BitVec.and_allOnes.symm.trans h
  rw [hw]
  fin_cases hrow
  all_goals rfl

theorem encode_of_accepting_row (hrow : row ∈ opcodeRows) (h : w &&& row.mask = row.pattern) :
    encode (row.instr w) = w := by
  have hmem : row ∈ rowsMasked row.mask := mem_rowsMasked.2 ⟨hrow, rfl⟩
  have hmask := mask_of_mem_opcodeRows row hrow
  generalize row.mask = mask at h hmem hmask
  fin_cases hmask
  · exact encode_of_operationRow hmem h
  · exact encode_of_addressRow hmem h
  · exact encode_of_splitAddressRow hmem h
  · exact encode_of_lowOperandRow hmem h
  · exact encode_of_constantRow hmem h

end

/-- Settles O3: a word that decodes is accepted by a row of the table (O1), and the row's fields are all of the word. -/
theorem encodeOfDecode : Obligations.EncodeOfDecode := by
  intro w i h
  obtain ⟨row, hrow, hacc, rfl⟩ := (decodeIsTheOpcodeTable.2 w i).1 h
  exact encode_of_accepting_row hrow hacc

/-! ## The words that are no instruction (O4) -/

section
variable {w : Word}

theorem decode_ok_of_operationCode (h : opField w ∈ operationCodes) : ∃ i, decode w = .ok i := by
  unfold decode
  generalize opField w = op at h
  fin_cases h
  all_goals exact ⟨_, rfl⟩

theorem decode_ok_of_addressCode (h : opField w ∈ addressCodes) (hbit : w.getLsbD 10 = false) :
    ∃ i, decode w = .ok i := by
  rcases List.mem_pair.1 h with hbr | hcall
  · exact ⟨_, (decode_br hbr).trans ((decodeAddress_eq_ok_iff w _ _).2 ⟨hbit, rfl⟩)⟩
  · exact ⟨_, (decode_call hcall).trans ((decodeAddress_eq_ok_iff w _ _).2 ⟨hbit, rfl⟩)⟩

theorem decodeGroupX_ok_of_splitAddressCode (h : f2Field w ∈ splitAddressCodes) : ∃ i, decodeGroupX w = .ok i := by
  unfold decodeGroupX
  generalize f2Field w = f2 at h
  fin_cases h
  all_goals exact ⟨_, rfl⟩

theorem decodeGroupX_ok_of_lowOperandCode (h : (f1Field w, f2Field w) ∈ lowOperandCodes) :
    ∃ i, decodeGroupX w = .ok i := by
  unfold decodeGroupX withF1
  generalize f1Field w = f1 at h
  generalize f2Field w = f2 at h
  fin_cases h
  all_goals exact ⟨_, rfl⟩

theorem decodeGroupX_ok_of_constantCode (h : (f1Field w, f2Field w) ∈ constantCodes) (h3 : f3Field w = 0) :
    ∃ i, decodeGroupX w = .ok i := by
  unfold decodeGroupX withF1F3 withF1
  rw [h3]
  generalize f1Field w = f1 at h
  generalize f2Field w = f2 at h
  fin_cases h
  all_goals exact ⟨_, rfl⟩

theorem decode_ok_iff : (∃ i, decode w = .ok i) ↔
    opField w ∈ operationCodes ∨ (opField w ∈ addressCodes ∧ w.getLsbD 10 = false) ∨
      (opField w = 0b00111 ∧ (f2Field w ∈ splitAddressCodes ∨ (f1Field w, f2Field w) ∈ lowOperandCodes ∨
        (f1Field w, f2Field w) ∈ constantCodes ∧ f3Field w = 0)) := by
  constructor
  · rintro ⟨i, h⟩
    rcases format_of_decode_ok h with hop | hA | ⟨hop, hX⟩
    · exact .inl hop
    · exact .inr (.inl hA)
    · exact .inr (.inr ⟨hop, format_of_decodeGroupX_ok hX⟩)
  · rintro (hop | ⟨hop, hbit⟩ | ⟨hop, h2 | h12 | ⟨h12, h3⟩⟩)
    · exact decode_ok_of_operationCode hop
    · exact decode_ok_of_addressCode hop hbit
    · exact decode_groupX hop ▸ decodeGroupX_ok_of_splitAddressCode h2
    · exact decode_groupX hop ▸ decodeGroupX_ok_of_lowOperandCode h12
    · exact decode_groupX hop ▸ decodeGroupX_ok_of_constantCode h12 h3

theorem decode_error_iff : (∃ e, decode w = .error e) ↔ ¬ ∃ i, decode w = .ok i := by
  cases decode w <;> simp

end

/-- Outside the operation codes of formats RM and MI a word is rejected by the rest of it, or whatever that is. -/
theorem rejected_operation : ∀ (op : BitVec 5) (bit10 groupX : Bool),
    ¬ (op ∈ operationCodes ∨ (op ∈ addressCodes ∧ bit10 = false) ∨ (op = 0b00111 ∧ groupX = true)) ↔
      op ∈ ([0b01101, 0b01110, 0b01111, 0b10111] : List (BitVec 5)) ∨
        (op ∈ ([0b01100, 0b11100] : List (BitVec 5)) ∧ bit10 = true) ∨ (op = 0b00111 ∧ groupX = false) := by
  decide

/-- The fields of group X that no row has; `f3zero` says whether `f3` is 0000. -/
theorem rejected_groupX : ∀ (f1 : BitVec 3) (f2 : BitVec 4) (f3zero : Bool),
    ¬ (f2 ∈ splitAddressCodes ∨ (f1, f2) ∈ lowOperandCodes ∨ (f1, f2) ∈ constantCodes ∧ f3zero = true) ↔
      (f2 ∈ ([0b0000, 0b0110] : List (BitVec 4)) ∨
        (f2 ∈ ([0b0001, 0b0100, 0b0101, 0b1000, 0b1001, 0b1100, 0b1101] : List (BitVec 4)) ∧
          (f1 ≠ 0 ∨ f3zero = false)) ∨
        (f2 = 0b0111 ∧ f1 ≠ 0) ∨
        (f2 = 0b1110 ∧ (f1 ∉ ([0b000, 0b001, 0b100] : List (BitVec 3)) ∨ f3zero = false)) ∨
        (f2 = 0b1111 ∧ (f1 ∈ ([0b101, 0b110, 0b111] : List (BitVec 3)) ∨
          (f1 ∈ ([0b000, 0b001, 0b100] : List (BitVec 3)) ∧ f3zero = false)))) := by
  intro f1 f2 f3zero
  cases f3zero
  all_goals revert f1 f2; decide

/-- Settles O4: the complement of the words the decoder accepts, first by operation code, then by the fields of
group X. -/
theorem undefinedWordsAreThoseOfR132 : Obligations.UndefinedWordsAreThoseOfR132 := by
  intro w
  have hop := rejected_operation (opField w) (w.getLsbD 10) (decide (f2Field w ∈ splitAddressCodes ∨
    (f1Field w, f2Field w) ∈ lowOperandCodes ∨ (f1Field w, f2Field w) ∈ constantCodes ∧ f3Field w = 0))
  have hX := rejected_groupX (f1Field w) (f2Field w) (decide (f3Field w = 0))
  simp only [decide_eq_true_eq, decide_eq_false_iff_not] at hop hX
  rw [decode_error_iff, decode_ok_iff, hop, hX]
  rfl

/-! ## Printed words (O5) -/

/-- Settles O5: each printed word is evaluated. -/
theorem sampleWordsDecode : Obligations.SampleWordsDecode :=
  ⟨rfl, rfl, rfl, rfl, rfl, rfl, rfl, rfl, rfl, rfl, rfl, rfl, rfl, rfl, rfl⟩

end Sys2Proof.Machine
end

section
/-! PROOFS. Instructions over data memory: reads (20_memory.md), arithmetic (40_add_sub.md), logic (41_logic.md), judge
and compare (42_judge_compare.md), rotation (43_rotate.md) and the plain transfers (44_transfer.md section 1). Each
instruction is one equation that names the shared operation it ends in; Laws/Ops says what that operation does. -/

namespace Sys2Proof.Machine

/-! ## Reads (O14) -/

/-- RAM and the system registers are neither empty nor ports. -/
theorem dmPlace_of_storage : ∀ a : Addr, a.toNat < 0x40 ∨ 0x74 ≤ a.toNat →
    dmPlace a ∉ [DmPlace.empty, .portE, .portA, .portB, .portC, .portD] := by
  decide

theorem memRead_eq_stored (s : State) (k : Nat) {a : Addr} (h : a.toNat < 0x40 ∨ 0x74 ≤ a.toNat) :
    memRead s k a = stored s a := by
  have hp := dmPlace_of_storage a h
  unfold memRead stored
  generalize dmPlace a = p at hp
  cases p
  case empty | portE | portA | portB | portC | portD => simp at hp
  all_goals rfl

theorem dmPlace_ne_empty : ∀ a : Addr, a.toNat < 0x40 ∨ 0x6F ≤ a.toNat → dmPlace a ≠ .empty := by decide

theorem and_not_all (v : Nibble) : v &&& ~~~0b1111 = 0 := by revert v; decide

theorem setWidth_2_fixed (v : BitVec 2) : v.setWidth 4 &&& ~~~0b0011#4 = 0 := by revert v; decide

theorem setWidth_3_fixed (v : BitVec 3) : v.setWidth 4 &&& ~~~0b0111#4 = 0 := by revert v; decide

theorem nibbleOf_top_fixed (b : Bool) : nibbleOf b false false false &&& ~~~0b1000#4 = 0 := by revert b; decide

/-- A place is as wide as the bits it can be written in: what it holds has no other. -/
theorem memRead_fixed_bits (s : State) (k : Nat) {a : Addr} (h : a.toNat < 0x40 ∨ 0x6F ≤ a.toNat) :
    memRead s k a &&& ~~~(writableBits a) = 0 := by
  have hp := dmPlace_ne_empty a h
  rw [writableBits_eq]
  unfold memRead
  generalize dmPlace a = p at hp
  cases p
  case empty => exact absurd rfl hp
  case portE => exact setWidth_2_fixed _
  case ar2 => exact setWidth_2_fixed _
  case ixm => exact setWidth_3_fixed _
  case ixh => exact nibbleOf_top_fixed _
  case ar3 | bank | rph => exact BitVec.zero_and
  all_goals exact and_not_all _

/-- Settles O14: place by place of the data-memory map. -/
theorem readsGiveWhatIsStored : Obligations.ReadsGiveWhatIsStored :=
  fun s k _ => ⟨memRead_eq_stored s k, memRead_fixed_bits s k⟩

/-! ## Addition and subtraction (O15 to O19) -/

section
variable {i : Instr} {s : State} {dst : Addr} {a b : Nibble} {c : Bool}

/-- What R173 and R174 say of every ADD, ADDC, SUB and SUBC: the two refusals, and else a result `out` stored. -/
theorem arithmetic_ends {out : Nibble × Bool} (h : exec i s = endArith s dst a b out) :
    (dst = 0x7F → exec i s = .refused .flagDestination) ∧
      (dst ≠ 0x7F → s.psw.bcd = true ∧ (9 < a.toNat ∨ 9 < b.toNat) → exec i s = .refused .decimalOperand) ∧
      (dst ≠ 0x7F → ¬ (s.psw.bcd = true ∧ (9 < a.toNat ∨ 9 < b.toNat)) →
        ∃ t, exec i s = .next t ∧ ArithmeticEnds s t dst out.1 out.2) := by
  obtain ⟨hflag, hdecimal, hnext⟩ := endArith_spec s dst a b out
  exact ⟨fun hd => h.trans (hflag hd), fun hd hi => h.trans (hdecimal hd hi),
    fun hd hl => ⟨_, h.trans (hnext hd hl), arithStore_ends s hd out⟩⟩

theorem addition_ends (h : exec i s = endArith s dst a b (aluAdd s.psw.bcd a b c)) :
    (dst = 0x7F → exec i s = .refused .flagDestination) ∧
      (dst ≠ 0x7F → s.psw.bcd = true ∧ (9 < a.toNat ∨ 9 < b.toNat) → exec i s = .refused .decimalOperand) ∧
      (dst ≠ 0x7F → ¬ (s.psw.bcd = true ∧ (9 < a.toNat ∨ 9 < b.toNat)) → ∃ t res cy, exec i s = .next t ∧
        (s.psw.bcd = false → res.toNat + 16 * cy.toNat = a.toNat + b.toNat + c.toNat) ∧
        (s.psw.bcd = true → (res, cy) = Config.bcdAdd a b c) ∧ ArithmeticEnds s t dst res cy) := by
  obtain ⟨hflag, hdecimal, hnext⟩ := arithmetic_ends h
  refine ⟨hflag, hdecimal, fun hd hl => ?_⟩
  obtain ⟨t, ht, hends⟩ := hnext hd hl
  refine ⟨t, _, _, ht, fun hb => ?_, fun hb => ?_, hends⟩
  · simpa only [aluAdd, hb, Bool.false_eq_true, if_false] using binaryAdd_exact a b c
  · simp [aluAdd, hb]

theorem subtraction_ends (h : exec i s = endArith s dst a b (aluSub s.psw.bcd a b c)) :
    (dst = 0x7F → exec i s = .refused .flagDestination) ∧
      (dst ≠ 0x7F → s.psw.bcd = true ∧ (9 < a.toNat ∨ 9 < b.toNat) → exec i s = .refused .decimalOperand) ∧
      (dst ≠ 0x7F → ¬ (s.psw.bcd = true ∧ (9 < a.toNat ∨ 9 < b.toNat)) → ∃ t res cy, exec i s = .next t ∧
        (s.psw.bcd = false → (res.toNat : Int) - 16 * cy.toNat = a.toNat - b.toNat - c.toNat) ∧
        (s.psw.bcd = true → (res, cy) = Config.bcdSub a b c) ∧ ArithmeticEnds s t dst res cy) := by
  obtain ⟨hflag, hdecimal, hnext⟩ := arithmetic_ends h
  refine ⟨hflag, hdecimal, fun hd hl => ?_⟩
  obtain ⟨t, ht, hends⟩ := hnext hd hl
  refine ⟨t, _, _, ht, fun hb => ?_, fun hb => ?_, hends⟩
  · simpa only [aluSub, hb, Bool.false_eq_true, if_false] using binarySub_exact a b c
  · simp [aluSub, hb]

end

section
variable (r : Nibble) (m : Addr) (n : Nibble) (s : State)

theorem exec_addReg : exec (.addReg r m) s =
    endArith s (grAddr s r) (grRead s 0 r) (mRead s 1 m) (aluAdd s.psw.bcd (grRead s 0 r) (mRead s 1 m) false) := rfl

theorem exec_addcReg : exec (.addcReg r m) s =
    endArith s (grAddr s r) (grRead s 0 r) (mRead s 1 m) (aluAdd s.psw.bcd (grRead s 0 r) (mRead s 1 m) s.psw.cy) :=
  rfl

theorem exec_subReg : exec (.subReg r m) s =
    endArith s (grAddr s r) (grRead s 0 r) (mRead s 1 m) (aluSub s.psw.bcd (grRead s 0 r) (mRead s 1 m) false) := rfl

theorem exec_subcReg : exec (.subcReg r m) s =
    endArith s (grAddr s r) (grRead s 0 r) (mRead s 1 m) (aluSub s.psw.bcd (grRead s 0 r) (mRead s 1 m) s.psw.cy) :=
  rfl

theorem exec_addImm : exec (.addImm m n) s =
    endArith s (ea s m) (mRead s 0 m) n (aluAdd s.psw.bcd (mRead s 0 m) n false) := rfl

theorem exec_addcImm : exec (.addcImm m n) s =
    endArith s (ea s m) (mRead s 0 m) n (aluAdd s.psw.bcd (mRead s 0 m) n s.psw.cy) := rfl

theorem exec_subImm : exec (.subImm m n) s =
    endArith s (ea s m) (mRead s 0 m) n (aluSub s.psw.bcd (mRead s 0 m) n false) := rfl

theorem exec_subcImm : exec (.subcImm m n) s =
    endArith s (ea s m) (mRead s 0 m) n (aluSub s.psw.bcd (mRead s 0 m) n s.psw.cy) := rfl

end

/-- Settles O15: ADD and ADDC differ in the carry in alone. -/
theorem addToGeneralRegister : Obligations.AddToGeneralRegister := by
  intro r m s p hp
  rcases List.mem_pair.1 hp with rfl | rfl
  · exact addition_ends (exec_addReg r m s)
  · exact addition_ends (exec_addcReg r m s)

/-- Settles O16: ADD and ADDC differ in the carry in alone. -/
theorem addToDataMemory : Obligations.AddToDataMemory := by
  intro m n s p hp
  rcases List.mem_pair.1 hp with rfl | rfl
  · exact addition_ends (exec_addImm m n s)
  · exact addition_ends (exec_addcImm m n s)

/-- Settles O17: SUB and SUBC differ in the borrow in alone. -/
theorem subtractFromGeneralRegister : Obligations.SubtractFromGeneralRegister := by
  intro r m s p hp
  rcases List.mem_pair.1 hp with rfl | rfl
  · exact subtraction_ends (exec_subReg r m s)
  · exact subtraction_ends (exec_subcReg r m s)

/-- Settles O18: SUB and SUBC differ in the borrow in alone. -/
theorem subtractFromDataMemory : Obligations.SubtractFromDataMemory := by
  intro m n s p hp
  rcases List.mem_pair.1 hp with rfl | rfl
  · exact subtraction_ends (exec_subImm m n s)
  · exact subtraction_ends (exec_subcImm m n s)

theorem exec_incAr (s : State) : exec .incAr s = .next { s with ar := s.ar + 1, pc := s.pc + 1 } := rfl

theorem exec_incIx (s : State) : exec .incIx s = .next { s with ix := s.ix + 1, pc := s.pc + 1 } := rfl

/-- Settles O19: the width of each register is that of its type. -/
theorem incrementsCountInTheirWidths : Obligations.IncrementsCountInTheirWidths :=
  fun s => ⟨exec_incAr s, exec_incIx s⟩

/-! ## Logic (O20) -/

section
variable (r : Nibble) (m : Addr) (n : Nibble) (s : State)

theorem exec_orReg : exec (.orReg r m) s =
    .next (memWrite s (grAddr s r) (grRead s 0 r ||| mRead s 1 m)).advance := rfl

theorem exec_orImm : exec (.orImm m n) s = .next (memWrite s (ea s m) (mRead s 0 m ||| n)).advance := rfl

theorem exec_andReg : exec (.andReg r m) s =
    .next (memWrite s (grAddr s r) (grRead s 0 r &&& mRead s 1 m)).advance := rfl

theorem exec_andImm : exec (.andImm m n) s = .next (memWrite s (ea s m) (mRead s 0 m &&& n)).advance := rfl

theorem exec_xorReg : exec (.xorReg r m) s =
    .next (memWrite s (grAddr s r) (grRead s 0 r ^^^ mRead s 1 m)).advance := rfl

theorem exec_xorImm : exec (.xorImm m n) s = .next (memWrite s (ea s m) (mRead s 0 m ^^^ n)).advance := rfl

end

/-- An instruction that is one data-memory write and the next address. -/
theorem writesOnly_of_exec {i : Instr} {s : State} {a : Addr} {v : Nibble}
    (h : exec i s = .next (memWrite s a v).advance) : ∃ t, exec i s = .next t ∧ WritesOnly s t a v :=
  ⟨_, h, writesOnly_memWrite s a v⟩

/-- Settles O20: the six words are rows of the table, and each instruction is one data-memory write. -/
theorem logicIsBitwiseAndAlwaysStored : Obligations.LogicIsBitwiseAndAlwaysStored := by
  refine ⟨⟨?_, ?_, ?_, ?_, ?_, ?_⟩, fun r m n s => ⟨?_, ?_, ?_, ?_, ?_, ?_⟩⟩
  iterate 6 exact encodes_of_mem_opcodeRows (by simp [opcodeRows, arithmeticRows])
  · exact writesOnly_of_exec (exec_orReg r m s)
  · exact writesOnly_of_exec (exec_orImm m n s)
  · exact writesOnly_of_exec (exec_andReg r m s)
  · exact writesOnly_of_exec (exec_andImm m n s)
  · exact writesOnly_of_exec (exec_xorReg r m s)
  · exact writesOnly_of_exec (exec_xorImm m n s)

/-! ## Judge and compare (O21, O22) -/

theorem skipIf_eq (s : State) (c : Bool) : s.skipIf c = { s with pc := if c then s.pc + 2 else s.pc + 1 } := by
  cases c <;> rfl

section
variable (m : Addr) (n : Nibble) (s : State)

theorem exec_skt : exec (.skt m n) s = .next { s with
    psw := { s.psw with cmp := false }
    pc := if mRead s 0 m &&& n = n then s.pc + 2 else s.pc + 1 } := by
  simp [exec, execSkt, judge, skipIf_eq, allOnes]

theorem exec_skf : exec (.skf m n) s = .next { s with
    psw := { s.psw with cmp := false }
    pc := if mRead s 0 m &&& n = 0 then s.pc + 2 else s.pc + 1 } := by
  simp [exec, execSkf, judge, skipIf_eq, allZeros]

theorem exec_ske : exec (.ske m n) s = .next { s with pc := if mRead s 0 m = n then s.pc + 2 else s.pc + 1 } := by
  simp [exec, execSke, compare, skipIf_eq]

theorem exec_skne : exec (.skne m n) s = .next { s with pc := if mRead s 0 m = n then s.pc + 1 else s.pc + 2 } := by
  simp [exec, execSkne, compare, skipIf_eq]

theorem exec_skge : exec (.skge m n) s =
    .next { s with pc := if n.toNat ≤ (mRead s 0 m).toNat then s.pc + 2 else s.pc + 1 } := by
  simp [exec, execSkge, compare, skipIf_eq, borrows]

theorem exec_sklt : exec (.sklt m n) s =
    .next { s with pc := if (mRead s 0 m).toNat < n.toNat then s.pc + 2 else s.pc + 1 } := by
  simp [exec, execSklt, compare, skipIf_eq, borrows]

end

/-- Settles O21: the words are rows of the table, and the nibble is read in the state before CMP is cleared. -/
theorem judgeClearsCmpAndSkips : Obligations.JudgeClearsCmpAndSkips := by
  refine ⟨⟨?_, ?_⟩, fun m n s => ⟨exec_skt m n s, exec_skf m n s⟩⟩
  iterate 2 exact encodes_of_mem_opcodeRows (by simp [opcodeRows, judgeRows])

/-- Settles O22: the words are rows of the table, and each comparison sets the pc alone. -/
theorem compareSkipsAndWritesNothing : Obligations.CompareSkipsAndWritesNothing := by
  refine ⟨⟨?_, ?_, ?_, ?_⟩, fun m n s => ⟨exec_ske m n s, exec_skne m n s, exec_skge m n s, exec_sklt m n s⟩⟩
  iterate 4 exact encodes_of_mem_opcodeRows (by simp [opcodeRows, judgeRows])

/-! ## Rotate (O23, O24) -/

theorem exec_rorc (r : Nibble) (s : State) :
    let v := grRead s 0 r
    exec (.rorc r) s = endUnlessFlags (grAddr s r) (rotateStore s (grAddr s r)
      (nibbleOf s.psw.cy (v.getLsbD 3) (v.getLsbD 2) (v.getLsbD 1), v.getLsbD 0)) := by
  intro v
  rw [← rotateRight_eq]
  rfl

/-- Settles O23: RORC stores its rotated nibble where the flags do not lie. -/
theorem rorcRotatesThroughCarry : Obligations.RorcRotatesThroughCarry := by
  intro r s
  obtain ⟨hflag, hnext⟩ := endUnlessFlags_spec (grAddr s r) _
  exact ⟨fun hd => (exec_rorc r s).trans (hflag hd),
    fun hd => ⟨_, (exec_rorc r s).trans (hnext hd), rotateStore_ends s hd _⟩⟩

/-- The nibble and CY, five bits in a ring, after one rotation. -/
def rotateRing (x : Nibble × Bool) : Nibble × Bool := rotateRight x.1 x.2

theorem rotateRing_five : ∀ x : Nibble × Bool, rotateRing^[5] x = x := by
  rintro ⟨v, cy⟩
  revert v cy
  decide

/-- RORC of a register in RAM, as a change of RAM, CY and the pc. -/
theorem exec_rorc_ram {r : Nibble} {s : State} (h : (rowCol s.rp r).toNat < 0x40) :
    let x := rotateRing (ramRead s.ram (rowCol s.rp r).toNat, s.psw.cy)
    exec (.rorc r) s = .next { s with
      ram := ramWrite s.ram (rowCol s.rp r).toNat x.1
      psw := { s.psw with cy := x.2 }
      pc := s.pc + 1 } := by
  have hne : grAddr s r ≠ 0x7F := by
    intro h7
    have : (0x7F : Addr).toNat < 0x40 := h7 ▸ h
    exact absurd this (by decide)
  have hplace : dmPlace (grAddr s r) = .ram (rowCol s.rp r).toNat := dmPlace_ram h
  rw [exec_rorc, ← rotateRight_eq, (endUnlessFlags_spec _ _).2 hne]
  simp only [grRead, memRead, rotateStore, memWrite, hplace]
  rfl

/-- `n` rotations of a register in RAM turn the ring `n` times; RAM elsewhere stays. -/
theorem execAll_rorc_ram (r : Nibble) (n : Nat) {s : State} (h : (rowCol s.rp r).toNat < 0x40) :
    let x := rotateRing^[n] (ramRead s.ram (rowCol s.rp r).toNat, s.psw.cy)
    ∃ ram, execAll (List.replicate n (.rorc r)) s = .next { s with
        ram := ram
        psw := { s.psw with cy := x.2 }
        pc := s.pc + BitVec.ofNat 10 n } ∧
      ramRead ram (rowCol s.rp r).toNat = x.1 ∧
      ∀ a, a ≠ (rowCol s.rp r).toNat → ramRead ram a = ramRead s.ram a := by
  induction n generalizing s with
  | zero => exact ⟨s.ram, by simp [execAll], rfl, fun _ _ => rfl⟩
  | succ n ih =>
    have hfirst := exec_rorc_ram h
    revert hfirst
    generalize hx : rotateRing (ramRead s.ram (rowCol s.rp r).toNat, s.psw.cy) = x
    intro hfirst
    obtain ⟨ram, hrun, hself, hother⟩ := ih (s := { s with
      ram := ramWrite s.ram (rowCol s.rp r).toNat x.1, psw := { s.psw with cy := x.2 }, pc := s.pc + 1 }) h
    simp only [ramRead_ramWrite_self] at hrun hself hother
    have hpc : s.pc + 1 + BitVec.ofNat 10 n = s.pc + BitVec.ofNat 10 (n + 1) := by
      rw [BitVec.add_assoc, Nat.add_comm n 1, BitVec.ofNat_add]; rfl
    refine ⟨ram, ?_, ?_, fun a ha => (hother a ha).trans (ramRead_ramWrite_ne _ _ ha)⟩
    · rw [List.replicate_succ, execAll, hfirst]
      simpa only [Function.iterate_succ_apply, hx, hpc] using hrun
    · simpa only [Function.iterate_succ_apply, hx] using hself

/-- Settles O24: the ring of a nibble and CY has five bits. -/
theorem fiveRotationsRestore : Obligations.FiveRotationsRestore := by
  intro r s h
  obtain ⟨ram, hrun, hself, hother⟩ := execAll_rorc_ram r 5 h
  simp only [rotateRing_five] at hrun hself
  refine ⟨_, hrun, rfl, ?_, rfl, rfl⟩
  have hdata : KeepsData s { s with ram := ram } [] := by
    refine keepsData_ram s ram [] fun a _ _ => ?_
    by_cases ha : a.toNat = (rowCol s.rp r).toNat
    · rw [ha, hself]
    · exact hother _ ha
  exact hdata

/-! ## Plain transfers (O25, O26) -/

section
variable (r : Nibble) (m : Addr) (n : Nibble) (s : State)

theorem exec_ld : exec (.ld r m) s = .next (memWrite s (grAddr s r) (mRead s 0 m)).advance := rfl

theorem exec_st : exec (.st m r) s = .next (memWrite s (ea s m) (grRead s 0 r)).advance := rfl

theorem exec_movImm : exec (.movImm m n) s = .next (memWrite s (ea s m) n).advance := rfl

theorem exec_movToInd : exec (.movToInd r m) s =
    .next (memWrite s (indirectAddr s m (grRead s 1 r)) (mRead s 0 m)).advance := rfl

theorem exec_movFromInd : exec (.movFromInd m r) s =
    .next (memWrite s (ea s m) (memRead s 1 (indirectAddr s m (grRead s 0 r)))).advance := rfl

end

/-- Settles O25: the words are rows of the table, and each transfer is one data-memory write. -/
theorem loadStoreAndMoveImmediate : Obligations.LoadStoreAndMoveImmediate := by
  refine ⟨⟨?_, ?_, ?_⟩, fun r m n s => ⟨?_, ?_, ?_⟩⟩
  iterate 3 exact encodes_of_mem_opcodeRows (by simp [opcodeRows, judgeRows])
  · exact writesOnly_of_exec (exec_ld r m s)
  · exact writesOnly_of_exec (exec_st r m s)
  · exact writesOnly_of_exec (exec_movImm m n s)

/-- Settles O26: the words are rows of the table, and each move is one data-memory write, of or at the address
`indirectAddr`. -/
theorem moveIndirectSelectsTheRowByMpe : Obligations.MoveIndirectSelectsTheRowByMpe := by
  refine ⟨⟨?_, ?_⟩, fun r m s => ⟨?_, ?_⟩⟩
  iterate 2 exact encodes_of_mem_opcodeRows (by simp [opcodeRows, judgeRows])
  · exact writesOnly_of_exec (exec_movToInd r m s)
  · exact writesOnly_of_exec (exec_movFromInd r m s)

end Sys2Proof.Machine
end

section
/-! PROOFS. Instructions over the stack (45_branch_subroutine.md, 44_transfer.md sections 2 and 3, 60_exceptions.md
section 1): each is one push or one pop, or both, and with no level to push or pop each is the stack reset. -/

namespace Sys2Proof.Machine

/-! ## The instructions as pushes and pops -/

section
variable (a : ProgAddr) (s : State)

theorem exec_push : exec .push s = .next (withPush s s.ar State.advance) := rfl

theorem exec_pop : exec .pop s = .next (withPop s fun a t => { t with ar := a }.advance) := rfl

theorem exec_call : exec (.call a) s = .next (withPush s (s.pc + 1) fun t => { t with pc := a }) := rfl

theorem exec_callAr : exec .callAr s = .next (withPush s (s.pc + 1) fun t => { t with pc := s.ar }) := rfl

theorem exec_ret : exec .ret s = .next (withPop s fun a t => { t with pc := a }) := rfl

theorem exec_retsk : exec .retsk s = .next (withPop s fun a t => { t with pc := a + 1 }) := rfl

theorem exec_reti : exec .reti s = .next (withPop s fun a t => { t with pc := a, psw := s.intsk }) := rfl

theorem exec_movt : exec .movt s = .next (withPush s (s.pc + 1) fun t =>
    withPop (t.withDbf (romWord s.rom s.ar)) fun a u => { u with pc := a }) := rfl

end

/-! ## Without a level -/

section
variable {i : Instr} {s : State}

theorem not_canPush_iff : ¬ s.canPush ↔ s.sp = 0 ∨ 6 ≤ s.sp.toNat := by
  have hzero : s.sp = 0 ↔ s.sp.toNat = 0 := BitVec.toNat_inj.symm
  rw [State.canPush, hzero]
  omega

theorem push_resets {v : ProgAddr} {go : State → State} (h : exec i s = .next (withPush s v go))
    (hs : ¬ s.canPush) : ∃ t, exec i s = .next t ∧ AfterStackReset s t := by
  obtain ⟨why, hreset⟩ := (withPush_spec s v go).2 hs
  exact ⟨_, h.trans (congrArg _ hreset), afterStackReset s why⟩

theorem pop_resets {go : ProgAddr → State → State} (h : exec i s = .next (withPop s go)) (hs : 5 ≤ s.sp.toNat) :
    ∃ t, exec i s = .next t ∧ AfterStackReset s t :=
  ⟨_, h.trans (congrArg _ ((withPop_spec s go).2 hs)), afterStackReset s .underflow⟩

end

/-! ## PUSH, POP, calls and returns (O28, O36, O37, O38) -/

section
variable {s : State}

theorem exec_push_of_canPush (h : s.canPush) : exec .push s = .next { s with
    sp := s.sp - 1, asr := s.asr.setIfInBounds (s.sp.toNat - 1) s.ar, pc := s.pc + 1 } :=
  (exec_push s).trans (congrArg _ ((withPush_spec s _ _).1 h))

theorem exec_call_of_canPush (h : s.canPush) (a : ProgAddr) : exec (.call a) s = .next { s with
    sp := s.sp - 1, asr := s.asr.setIfInBounds (s.sp.toNat - 1) (s.pc + 1), pc := a } :=
  (exec_call a s).trans (congrArg _ ((withPush_spec s _ _).1 h))

theorem exec_callAr_of_canPush (h : s.canPush) : exec .callAr s = .next { s with
    sp := s.sp - 1, asr := s.asr.setIfInBounds (s.sp.toNat - 1) (s.pc + 1), pc := s.ar } :=
  (exec_callAr s).trans (congrArg _ ((withPush_spec s _ _).1 h))

theorem exec_pop_of_level (h : s.sp.toNat < 5) : exec .pop s = .next { s with
    ar := s.asr[s.sp.toNat], sp := s.sp + 1, pc := s.pc + 1 } :=
  (exec_pop s).trans (congrArg _ ((withPop_spec s _).1 h))

theorem exec_ret_of_level (h : s.sp.toNat < 5) : exec .ret s = .next { s with
    pc := s.asr[s.sp.toNat], sp := s.sp + 1 } :=
  (exec_ret s).trans (congrArg _ ((withPop_spec s _).1 h))

theorem exec_retsk_of_level (h : s.sp.toNat < 5) : exec .retsk s = .next { s with
    pc := s.asr[s.sp.toNat] + 1, sp := s.sp + 1 } :=
  (exec_retsk s).trans (congrArg _ ((withPop_spec s _).1 h))

theorem exec_reti_of_level (h : s.sp.toNat < 5) : exec .reti s = .next { s with
    pc := s.asr[s.sp.toNat], sp := s.sp + 1, psw := s.intsk } :=
  (exec_reti s).trans (congrArg _ ((withPop_spec s _).1 h))

end

/-- Settles O28: the words are rows of the table; a push or a pop with a level, or the stack reset. -/
theorem pushAndPopOfAr : Obligations.PushAndPopOfAr := by
  refine ⟨⟨?_, ?_⟩, fun s => ⟨exec_push_of_canPush, fun h0 => ?_, exec_pop_of_level, pop_resets (exec_pop s)⟩⟩
  iterate 2 exact encodes_of_mem_opcodeRows (by simp [opcodeRows, transferRows])
  exact push_resets (exec_push s) (not_canPush_iff.2 (.inl h0))

/-- Settles O36: the words are rows of the table; a push with a level, or the stack reset. -/
theorem callsPushTheReturnAddress : Obligations.CallsPushTheReturnAddress := by
  refine ⟨⟨?_, ?_⟩, fun a s p hp => ?_⟩
  iterate 2 exact encodes_of_mem_opcodeRows (by simp [opcodeRows, controlRows])
  have hreset (h0 : s.sp = 0) : ¬ s.canPush := not_canPush_iff.2 (.inl h0)
  rcases List.mem_pair.1 hp with rfl | rfl
  · exact ⟨fun h => exec_call_of_canPush h a, fun h0 => push_resets (exec_call a s) (hreset h0)⟩
  · exact ⟨fun h => exec_callAr_of_canPush h, fun h0 => push_resets (exec_callAr s) (hreset h0)⟩

/-- Settles O37: the words are rows of the table; a pop with a level, or the stack reset. -/
theorem returnsPopThePc : Obligations.ReturnsPopThePc := by
  refine ⟨⟨?_, ?_⟩, fun s => ⟨fun h => ⟨exec_ret_of_level h, exec_retsk_of_level h⟩,
    fun h => ⟨pop_resets (exec_ret s) h, pop_resets (exec_retsk s) h⟩⟩⟩
  iterate 2 exact encodes_of_mem_opcodeRows (by simp [opcodeRows, controlRows])

/-- Settles O38: a pop with a level, and the flags from INTSK. -/
theorem retiRestoresTheFlags : Obligations.RetiRestoresTheFlags :=
  fun _ h => exec_reti_of_level h

/-! ## MOVT: a push and a pop (O27) -/

theorem sp_sub_one_toNat {s : State} (h : s.canPush) : (s.sp - 1).toNat = s.sp.toNat - 1 := by
  obtain ⟨h1, h5⟩ := h
  bv_omega

/-- What was pushed last is what a pop gives back. -/
theorem asr_getElem_of_pushed {s : State} (h : s.canPush) (v : ProgAddr) (hlt : (s.sp - 1).toNat < 5) :
    (s.asr.setIfInBounds (s.sp.toNat - 1) v)[(s.sp - 1).toNat] = v := by
  simp only [sp_sub_one_toNat h]
  exact Vector.getElem_setIfInBounds_self _

theorem exec_movt_of_canPush {s : State} (h : s.canPush) : exec .movt s = .next { s.withDbf (romWord s.rom s.ar) with
    asr := s.asr.setIfInBounds (s.sp.toNat - 1) (s.pc + 1), pc := s.pc + 1 } := by
  have hlevel : (s.sp - 1).toNat < 5 := by
    have := sp_sub_one_toNat h
    have := h.2
    omega
  have hsp : s.sp - 1 + 1 = s.sp := BitVec.sub_add_cancel _ _
  rw [exec_movt, (withPush_spec s _ _).1 h, (withPop_spec _ _).1 hlevel]
  simp only [withDbf_sp, withDbf_asr, asr_getElem_of_pushed h, hsp]
  rfl

/-- Settles O27: the level pushed is popped again, and in between DBF is loaded. -/
theorem movtReadsTheTableThroughTheStack : Obligations.MovtReadsTheTableThroughTheStack := by
  intro s h w
  obtain ⟨hstored, hdata, hout⟩ := withDbf_spec s w
  refine ⟨_, exec_movt_of_canPush h, hstored, fun ha => ?_, hdata, ?_, rfl⟩
  · exact if_neg (Nat.not_lt.2 ha)
  · rfl

/-! ## Five levels (O39) -/

/-- `n` pushes of AR with a level for each. -/
theorem execAll_push (n : Nat) {s : State} (hn : n ≤ s.sp.toNat) (h5 : s.sp.toNat ≤ 5) :
    ∃ t, execAll (List.replicate n .push) s = .next t ∧ t.sp.toNat = s.sp.toNat - n ∧
      t.pc = s.pc + BitVec.ofNat 10 n ∧
      ∀ k (hk : k < 5), t.asr[k] = if s.sp.toNat - n ≤ k ∧ k < s.sp.toNat then s.ar else s.asr[k] := by
  induction n generalizing s with
  | zero => exact ⟨s, rfl, rfl, by simp, fun k _ => (if_neg (by omega)).symm⟩
  | succ n ih =>
    have hpush : s.canPush := ⟨by omega, h5⟩
    have hsp := sp_sub_one_toNat hpush
    obtain ⟨t, hrun, htsp, htpc, htasr⟩ := ih (s := { s with
      sp := s.sp - 1, asr := s.asr.setIfInBounds (s.sp.toNat - 1) s.ar, pc := s.pc + 1 })
      (by simp only [hsp]; omega) (by simp only [hsp]; omega)
    simp only [hsp] at htsp htpc htasr
    refine ⟨t, ?_, by omega, ?_, fun k hk => ?_⟩
    · rw [List.replicate_succ, execAll, exec_push_of_canPush hpush]
      exact hrun
    · rw [htpc, BitVec.add_assoc, Nat.add_comm n 1, BitVec.ofNat_add]
      rfl
    · rw [htasr k hk, Vector.getElem_setIfInBounds]
      grind

/-- Settles O39: no level means the stack reset, and five pushes use up the five levels from SP = 5. -/
theorem fiveLevelsThenTheStackResets : Obligations.FiveLevelsThenTheStackResets := by
  refine fun s => ⟨fun h a i hi => ?_, fun h i hi => ?_, fun h5 => ?_⟩
  · have hs : ¬ s.canPush := not_canPush_iff.2 h
    simp only [List.mem_cons, List.not_mem_nil, or_false] at hi
    rcases hi with rfl | rfl | rfl | rfl
    · exact push_resets (exec_call a s) hs
    · exact push_resets (exec_callAr s) hs
    · exact push_resets (exec_movt s) hs
    · exact push_resets (exec_push s) hs
  · simp only [List.mem_cons, List.not_mem_nil, or_false] at hi
    rcases hi with rfl | rfl | rfl | rfl
    · exact pop_resets (exec_ret s) h
    · exact pop_resets (exec_retsk s) h
    · exact pop_resets (exec_reti s) h
    · exact pop_resets (exec_pop s) h
  · have hsp : s.sp.toNat = 5 := congrArg BitVec.toNat h5
    obtain ⟨t, hrun, htsp, htpc, htasr⟩ := execAll_push 5 (s := s) (by omega) (by omega)
    have hzero : t.sp = 0 := BitVec.eq_of_toNat_eq (by simp [htsp, hsp])
    obtain ⟨u, hu, hreset⟩ := push_resets (exec_push t) (not_canPush_iff.2 (.inl hzero))
    refine ⟨t, u, hrun, hzero, htpc, Vector.ext fun k hk => ?_, hu, hreset⟩
    rw [htasr k hk, if_pos ⟨by omega, by omega⟩, Vector.getElem_replicate]

end Sys2Proof.Machine
end

section
/-! PROOFS. Instructions over the register file and the peripheral registers (44_transfer.md sections 4 and 5,
20_memory.md sections 5 and 6): PEEK, POKE, GET, PUT. -/

namespace Sys2Proof.Machine

/-! ## PEEK (O29) -/

theorem rfPlace_dataMemory {rf : Addr} (h : 0x40 ≤ rf.toNat) : rfPlace rf = .dataMemory rf := if_pos h

theorem rfRead_dataMemory (s : State) {rf : Addr} (h : 0x40 ≤ rf.toNat) : rfRead s rf = memRead s 0 rf := by
  rw [rfRead, rfPlace_dataMemory h]

/-- PEEK is a data-memory write of WR. -/
theorem exec_peek (rf : Addr) (s : State) : exec (.peek rf) s = .next (memWrite s 0x78 (rfRead s rf)).advance := rfl

theorem toNat_setWidth_4 {n : Nat} (v : BitVec n) (h : n ≤ 4) : (v.setWidth 4).toNat = v.toNat :=
  BitVec.toNat_setWidth_of_le h

/-- Settles O29: PEEK writes WR alone, and what it reads is read off the register-file map. -/
theorem peekReadsTheRegisterFile : Obligations.PeekReadsTheRegisterFile := by
  intro rf s
  refine ⟨_, rfRead s rf, exec_peek rf s, writesOnly_memWrite s 0x78 _, rfRead_dataMemory s, ?_⟩
  refine ⟨?_, ?_, ?_, ?_, ?_, ?_, ?_, ?_, ?_, ?_, ?_, ?_, ?_, ?_, ?_, ?_, ?_⟩
  all_goals rintro rfl
  -- SP, IEGMD and POEBIO are narrower than the nibble they are read in
  case refine_1 => exact toNat_setWidth_4 s.sp (by decide)
  case refine_8 => exact toNat_setWidth_4 s.iegmd (by decide)
  case refine_11 => exact toNat_setWidth_4 s.ports.poebio (by decide)
  all_goals rfl

/-! ## POKE (O30, O31, O32) -/

section
variable {rf : Addr} {s : State}

theorem exec_poke (h : rfWriteDisturbs s rf s.wr = false) : exec (.poke rf) s = .next (rfWrite s rf s.wr).advance :=
  if_neg (by simp [h])

theorem exec_poke_refused (h : rfWriteDisturbs s rf s.wr = true) : exec (.poke rf) s = .refused .serialDisturbed :=
  if_pos h

theorem rfWriteDisturbs_eq_false {v : Nibble} (hen : rf ≠ 0x0A) (hmode : rf ≠ 0x1A) :
    rfWriteDisturbs s rf v = false := by
  rw [Bool.eq_false_iff, Ne, rfWriteDisturbs_iff]
  rintro (⟨h, -⟩ | ⟨h, -⟩)
  · exact hen h
  · exact hmode h

/-- Outside the two serial control registers no write is refused. -/
theorem exec_poke_plain (hen : rf ≠ 0x0A) (hmode : rf ≠ 0x1A) :
    exec (.poke rf) s = .next (rfWrite s rf s.wr).advance :=
  exec_poke (rfWriteDisturbs_eq_false hen hmode)

end

/-- Settles O30: the register file from 40H on is data memory. -/
theorem pokeWritesDataMemory : Obligations.PokeWritesDataMemory := by
  intro rf s h
  have hcontrol {a : Addr} (ha : a.toNat < 0x40) : rf ≠ a := by rintro rfl; omega
  have hwrite : rfWrite s rf s.wr = memWrite s rf s.wr := by rw [rfWrite, rfPlace_dataMemory h]
  exact writesOnly_of_exec (hwrite ▸ exec_poke_plain (hcontrol (by decide)) (hcontrol (by decide)))

/-- The addresses below 40H where a write does nothing: INT and the unassigned ones (log 6). -/
theorem rfPlace_ignoring : ∀ rf : Addr, rf.toNat < 0x40 →
    rf ∉ ([0x01, 0x0A, 0x10, 0x11, 0x12, 0x1A, 0x1F, 0x24, 0x2F, 0x32, 0x33, 0x34, 0x35, 0x3D, 0x3E,
      0x3F] : List Addr) →
    rfPlace rf = .intPin ∨ rfPlace rf = .unassigned := by
  decide

theorem setWidth_2_eq_extract (v : Nibble) : v.setWidth 2 = v.extractLsb' 0 2 :=
  BitVec.setWidth_eq_extractLsb' (by decide)

theorem setWidth_3_eq_extract (v : Nibble) : v.setWidth 3 = v.extractLsb' 0 3 :=
  BitVec.setWidth_eq_extractLsb' (by decide)

theorem if_true_else (b x : Bool) : (if b then true else x) = (b || x) := by cases b <;> rfl

theorem if_false_else (b x : Bool) : (if b then false else x) = (!b && x) := by cases b <;> rfl

/-- Settles O31: each write is read off the register-file map, and none of these addresses can be refused. -/
theorem pokeWritesControlRegisters : Obligations.PokeWritesControlRegisters := by
  refine fun s => ⟨⟨?_, ?_, ?_, ?_, ?_, ?_, ?_, ?_, ?_, ?_, ?_, ?_, ?_, ?_⟩, fun rf hlt hrf => ?_⟩
  case refine_15 =>
    have hwrite : rfWrite s rf s.wr = s := by
      rcases rfPlace_ignoring rf hlt hrf with h | h <;> rw [rfWrite, h]
    have hne {a : Addr} (ha : a ∈ ([0x0A, 0x1A] : List Addr)) : rf ≠ a := by
      rintro rfl
      fin_cases ha <;> simp at hrf
    exact (exec_poke_plain (hne (by simp)) (hne (by simp))).trans (by rw [hwrite]; rfl)
  all_goals
    refine (exec_poke_plain (by decide) (by decide)).trans ?_
    simp only [← setWidth_2_eq_extract, ← setWidth_3_eq_extract, ← if_true_else]
    rfl

/-- Settles O32: the two refusals are `rfWriteDisturbs` at the two addresses. -/
theorem pokeSerialControl : Obligations.PokeSerialControl := by
  intro s
  simp only [← setWidth_2_eq_extract, ← if_false_else]
  exact ⟨fun h => exec_poke h, fun h => exec_poke h, fun h => exec_poke_refused h, fun h => exec_poke_refused h⟩

/-! ## GET (O33) -/

theorem exec_get (p : Addr) (s : State) : exec (.get p) s = .next (periRead s p).advance := rfl

/-- The byte-wide peripheral registers fill DBF1:DBF0, all others the four nibbles. -/
theorem periRead_width (s : State) (p : Addr) :
    ((p = 0x01 ∨ p = 0x02 ∨ p = 0x03) ∧ ∃ v, periRead s p = s.withDbfLow v) ∨
      (¬ (p = 0x01 ∨ p = 0x02 ∨ p = 0x03) ∧ ∃ v, periRead s p = s.withDbf v) := by
  have hbyte : ∀ p : Addr, (p = 0x01 ∨ p = 0x02 ∨ p = 0x03) ↔
      periPlace p ∈ [PeriPlace.sfr, .tmc, .tmm] := by decide
  rw [hbyte]
  unfold periRead
  cases periPlace p
  case sfr | tmc | tmm => exact .inl ⟨by simp, _, rfl⟩
  case ar | unassigned => exact .inr ⟨by simp, _, rfl⟩

/-- AR in the data buffer: ten bits, zero-extended. -/
theorem nibbles_of_ar (v : BitVec 10) :
    nibbleAt (v.setWidth 16) 3 = 0 ∧ (nibbleAt (v.setWidth 16) 2).toNat = v.toNat / 256 ∧
      nibbleAt (v.setWidth 16) 1 = v.extractLsb' 4 4 ∧ nibbleAt (v.setWidth 16) 0 = v.extractLsb' 0 4 := by
  have hlt : v.toNat < 1024 := v.isLt
  have hwide : (v.setWidth 16).toNat = v.toNat := BitVec.toNat_setWidth_of_le (by decide)
  refine ⟨BitVec.eq_of_toNat_eq ?_, ?_, ?_, ?_⟩
  · simp only [nibbleAt, BitVec.extractLsb'_toNat, hwide, Nat.shiftRight_eq_div_pow]
    change _ = 0
    omega
  · simp only [nibbleAt, BitVec.extractLsb'_toNat, hwide, Nat.shiftRight_eq_div_pow]
    omega
  · exact BitVec.extractLsb'_setWidth_of_le (by decide)
  · exact BitVec.extractLsb'_setWidth_of_le (by decide)

/-- Settles O33: GET loads DBF, or its low half, and no more. -/
theorem getLoadsTheDataBuffer : Obligations.GetLoadsTheDataBuffer := by
  intro p s
  have hframe : KeepsOutside s (periRead s p) ∧ (periRead s p).pc = s.pc ∧
      KeepsData s (periRead s p)
        (if p = 0x01 ∨ p = 0x02 ∨ p = 0x03 then [0x0E, 0x0F] else [0x0C, 0x0D, 0x0E, 0x0F]) := by
    rcases periRead_width s p with ⟨hp, v, hv⟩ | ⟨hp, v, hv⟩
    · obtain ⟨-, hdata, hout⟩ := withDbfLow_spec s v
      rw [hv, if_pos hp]
      exact ⟨hout, rfl, hdata⟩
    · obtain ⟨-, hdata, hout⟩ := withDbf_spec s v
      rw [hv, if_neg hp]
      exact ⟨hout, rfl, hdata⟩
  obtain ⟨hout, hpc, hdata⟩ := hframe
  refine ⟨_, exec_get p s, hout, congrArg (· + 1) hpc, hdata, ?_, ?_, ?_⟩
  · rintro rfl
    exact (withDbfLow_spec s s.sio.sfr).1
  · rintro rfl
    exact (withDbfLow_spec s s.timer.tmc).1
  · rintro rfl
    obtain ⟨⟨h3, h2, h1, h0⟩, -⟩ := withDbf_spec s (s.ar.setWidth 16)
    obtain ⟨n3, n2, n1, n0⟩ := nibbles_of_ar s.ar
    exact ⟨h3.trans n3, (congrArg _ h2).trans n2, h1.trans n1, h0.trans n0⟩

/-! ## PUT (O34) -/

section
variable {s : State} {p : Addr}

theorem exec_put (h : periWriteDisturbs s p = false) : exec (.put p) s = .next (periWrite s p).advance :=
  if_neg (by simp [h])

theorem periWriteDisturbs_eq_false (h : p ≠ 0x01) : periWriteDisturbs s p = false := by
  have hsfr : ∀ p : Addr, p ≠ 0x01 → periPlace p ≠ .sfr := by decide
  simp [periWriteDisturbs, hsfr p h]

end

theorem wordOf_low_byte (n3 n2 n1 n0 : Nibble) : (wordOf n3 n2 n1 n0).setWidth 8 = n1 ++ n0 := by
  have join : (nibbleAt (wordOf n3 n2 n1 n0) 1 ++ nibbleAt (wordOf n3 n2 n1 n0) 0 : BitVec 8) =
      (wordOf n3 n2 n1 n0).extractLsb' 0 8 := BitVec.extractLsb'_append_extractLsb'_eq_extractLsb' rfl
  rw [BitVec.setWidth_eq_extractLsb' (by decide), ← join, nibbleAt_one_wordOf, nibbleAt_zero_wordOf]

theorem wordOf_low_ten (n3 n2 n1 n0 : Nibble) :
    (wordOf n3 n2 n1 n0).setWidth 10 = n2.extractLsb' 0 2 ++ n1 ++ n0 := by
  have join : ((wordOf n3 n2 n1 n0).extractLsb' 8 2 ++ (n1 ++ n0 : BitVec 8) : BitVec 10) =
      (wordOf n3 n2 n1 n0).extractLsb' 0 10 := by
    rw [← wordOf_low_byte n3 n2 n1 n0, BitVec.setWidth_eq_extractLsb' (by decide)]
    exact BitVec.extractLsb'_append_extractLsb'_eq_extractLsb' rfl
  have htop : (wordOf n3 n2 n1 n0).extractLsb' 8 2 = n2.extractLsb' 0 2 := by
    conv_rhs => rw [← nibbleAt_two_wordOf n3 n2 n1 n0]
    apply BitVec.eq_of_getLsbD_eq
    intro k hk
    simp [nibbleAt, hk, show k < 4 by omega]
  rw [BitVec.setWidth_eq_extractLsb' (by decide), ← join, htop]
  exact BitVec.append_assoc'.trans (BitVec.cast_eq rfl _)

theorem periPlace_ignoring : ∀ p : Addr, p ∉ ([0x01, 0x03, 0x40] : List Addr) →
    periPlace p = .tmc ∨ periPlace p = .unassigned := by
  decide

/-- Settles O34: what is written is read off the peripheral map, and only SIOSFR can be refused. -/
theorem putStoresTheDataBuffer : Obligations.PutStoresTheDataBuffer := by
  intro s
  refine ⟨fun h => ?_, fun h => if_pos h, ?_, ?_, fun p hp => ?_⟩
  · rw [exec_put (s := s) (p := 0x01) h, ← wordOf_low_byte (stored s 0x0C) (stored s 0x0D)]
    rfl
  · rw [exec_put rfl, ← wordOf_low_byte (stored s 0x0C) (stored s 0x0D)]
    rfl
  · rw [exec_put rfl, ← wordOf_low_ten (stored s 0x0C)]
    rfl
  · have hwrite : periWrite s p = s := by
      rcases periPlace_ignoring p hp with h | h <;> rw [periWrite, h]
    have hne : p ≠ 0x01 := by rintro rfl; simp at hp
    rw [exec_put (periWriteDisturbs_eq_false hne), hwrite]
    rfl

end Sys2Proof.Machine
end

section
/-! PROOFS. The step, interrupts and standby (30_encoding.md section 1, 46_interrupt_other.md, 60_exceptions.md sections
2, 7 and 8): what the CPU's turn is in each mode, EI and DI, entry and return, HALT and STOP. -/

namespace Sys2Proof.Machine

/-! ## What a step is (O6, O7) -/

section
variable {s : State}

theorem acceptedSource_turn_eq_none (h : (s.inte && !s.eiHold && s.anyWants) = false) :
    acceptedSource s.turn = none :=
  (acceptedSource_eq_none s.turn).2 h

theorem step_of_decode_ok (hm : s.cpuMoves) (hr : s.standby = .running) (hx : acceptedSource s.turn = none)
    {i : Instr} (hi : decode (romWord s.rom s.pc) = .ok i) : step s = exec i { s.turn with eiHold := false } := by
  have hfetch : decode (fetchWord { s.turn with eiHold := false }) = .ok i := hi
  rw [step, boundary_executes hm hr hx]
  simp only [hfetch]

theorem step_of_decode_error (hm : s.cpuMoves) (hr : s.standby = .running) (hx : acceptedSource s.turn = none)
    {e : DecodeError} (he : decode (romWord s.rom s.pc) = .error e) :
    step s = .refused (.undefinedWord (romWord s.rom s.pc)) := by
  have hfetch : decode (fetchWord { s.turn with eiHold := false }) = .error e := he
  rw [step, boundary_executes hm hr hx]
  simp only [hfetch]
  rfl

theorem step_of_event {e : Event} {rest : List Event} (hs : s.schedule = e :: rest) (he : e ≠ .cpu) :
    step s = .next (applyEvent e s.turn) := by
  rw [step, (boundary_spec s).2 e rest hs he]

theorem step_of_done {t : State} (hm : s.cpuMoves) (ht : cpuTurn s.turn = .done t) : step s = .next t := by
  rw [step, (boundary_spec s).1 hm, ht]

/-- The hold EI puts on acceptance, ended where it was not there. -/
theorem eiHold_eq_self (h : s.eiHold = false) : { s with eiHold := false } = s := by rw [← h]

end

/-- Settles O6: the fetched word decodes to an instruction or to none. -/
theorem stepRunsDecodedInstruction : Obligations.StepRunsDecodedInstruction := by
  intro s hm hr hx
  have hnone := acceptedSource_turn_eq_none hx
  exact ⟨fun i hi => step_of_decode_ok hm hr hnone hi, fun e he => step_of_decode_error hm hr hnone he⟩

/-- Settles O7: the head of the schedule is the event that is applied. -/
theorem stepTakesScheduledEvents : Obligations.StepTakesScheduledEvents :=
  fun _ _ _ hs he => step_of_event hs he

/-! ## The end of program memory (O57) -/

theorem romWord_past_end (m : Memory) {a : ProgAddr} (h : 0x300 ≤ a.toNat) : romWord m a = 0xFFFF :=
  if_neg (Nat.not_lt.2 h)

theorem ea_of_ixe_clear {s : State} (h : s.psw.ixe = false) (m : Addr) : ea s m = m := by simp [ea, h]

theorem flags_all_zero : ∀ cmp cy z : Bool,
    nibbleOf cmp cy z false &&& 0xF = 0 ↔ (cmp || cy || z) = false := by
  decide

/-- Settles O57: FFFFH is SKF of all four flags of 7FH. -/
theorem endOfRomRunsSkf : Obligations.EndOfRomRunsSkf := by
  intro s hm hr hx hpc hixe
  have hdec : decode (romWord s.rom s.pc) = .ok (.skf 0x7F 0xF) := by
    rw [romWord_past_end _ hpc, decode_allOnes]
  have hread : mRead { s.turn with eiHold := false } 0 0x7F = nibbleOf s.psw.cmp s.psw.cy s.psw.z false := by
    rw [mRead, ea_of_ixe_clear (s := { s.turn with eiHold := false }) hixe, ← hixe]
    rfl
  rw [step_of_decode_ok hm hr (acceptedSource_turn_eq_none hx) hdec, exec_skf, hread]
  simp only [flags_all_zero]
  cases s.psw.cmp || s.psw.cy || s.psw.z <;> rfl

/-! ## Acceptance and entry (O45, O46) -/

section
variable {s : State} {x : IntSource}

theorem step_accepts (hp : s.acceptancePoint) (hi : s.inte = true) (hx : s.firstWanted x = true) :
    step s = .next (takeInterrupt s.turn x) := by
  obtain ⟨hm, hr, hh⟩ := hp
  have hsome : acceptedSource s.turn = some x := (acceptedSource_eq_some s.turn x).2 ⟨hi, hh, hx⟩
  rw [step, boundary_accepts hm hr hsome]

theorem step_enters (hp : s.acceptancePoint) (hi : s.inte = true) (hx : s.firstWanted x = true) (hc : s.canPush) :
    step s = .next (entered s.turn x) :=
  (step_accepts hp hi hx).trans (congrArg _ ((takeInterrupt_spec s.turn x).1 hc))

end

/-- Settles O45: entry with a free level, or the stack reset. -/
theorem interruptEntrySavesAndVectors : Obligations.InterruptEntrySavesAndVectors := by
  refine fun s x hp hi hx => ⟨step_enters hp hi hx, fun hc => ?_⟩
  obtain ⟨why, hreset⟩ := (takeInterrupt_spec s.turn x).2 hc
  exact ⟨_, (step_accepts hp hi hx).trans (congrArg _ hreset), afterStackReset s.turn why⟩

theorem entryAddress_injective : ∀ x y : IntSource, entryAddress x = entryAddress y → x = y := by
  intro x y
  cases x <;> cases y <;> simp [entryAddress]

/-- Settles O46: a turn that ends without executing is the entry of the accepted source, and the vectors differ. -/
theorem acceptanceFollowsEnablesAndPriority : Obligations.AcceptanceFollowsEnablesAndPriority := by
  rintro s x ⟨hm, hr, hh⟩ hc
  constructor
  · rintro ⟨t, ht, hpc⟩
    cases hy : acceptedSource s.turn with
    | none =>
      rw [boundary_executes hm hr hy] at ht
      cases ht
    | some y =>
      rw [boundary_accepts hm hr hy, (takeInterrupt_spec s.turn y).1 hc] at ht
      cases ht
      obtain rfl : y = x := entryAddress_injective y x hpc
      obtain ⟨hi, -, hw⟩ := (acceptedSource_eq_some s.turn y).1 hy
      exact ⟨hi, hw⟩
  · rintro ⟨hi, hw⟩
    have hsome : acceptedSource s.turn = some x := (acceptedSource_eq_some s.turn x).2 ⟨hi, hh, hw⟩
    refine ⟨entered s.turn x, ?_, rfl⟩
    rw [boundary_accepts hm hr hsome, (takeInterrupt_spec s.turn x).1 hc]

/-! ## Entry and return (O47, O48) -/

/-- RETI where the level below `n` holds `v`. -/
theorem exec_reti_of_top {u : State} {n : BitVec 3} {v : ProgAddr} (hsp : u.sp = n - 1) (hlt : (n - 1).toNat < 5)
    (htop : u.asr[(n - 1).toNat] = v) : exec .reti u = .next { u with pc := v, sp := n, psw := u.intsk } := by
  have hlt' : u.sp.toNat < 5 := hsp ▸ hlt
  have hn : n - 1 + 1 = n := BitVec.sub_add_cancel n 1
  rw [exec_reti_of_level hlt']
  simp only [hsp, htop, hn]

theorem level_below_lt {s : State} (h : s.canPush) : (s.sp - 1).toNat < 5 := by
  have hsp := sp_sub_one_toNat h
  have h5 := h.2
  omega

/-- Settles O47: the level entry pushed is the one RETI pops, and INTSK holds the flags of `s`. -/
theorem retiUndoesTheEntry : Obligations.RetiUndoesTheEntry := by
  intro s x hp hi hx hc
  refine ⟨entered s.turn x, step_enters hp hi hx hc, fun u hsp hasr hintsk => ?_⟩
  have htop : u.asr[(s.sp - 1).toNat]'(level_below_lt hc) = s.pc := by
    simp only [hasr]
    exact asr_getElem_of_pushed hc s.pc (level_below_lt hc)
  rw [exec_reti_of_top hsp (level_below_lt hc) htop, hintsk]
  rfl

/-- Settles O48: the two levels pushed are popped in turn, and INTSK holds the flags of `u` both times. -/
theorem nestedEntryLosesTheFirstFlags : Obligations.NestedEntryLosesTheFirstFlags := by
  intro s u x y hp hi hx h2 h5 hpu hiu hyu hentry
  have hc : s.canPush := ⟨by omega, h5⟩
  obtain ⟨hsp, hasr⟩ := hentry _ (step_enters hp hi hx hc)
  replace hsp : u.sp = s.sp - 1 := hsp
  have hspNat : u.sp.toNat = s.sp.toNat - 1 := hsp ▸ sp_sub_one_toNat hc
  have hcu : u.canPush := ⟨by omega, by omega⟩
  have hreti := exec_reti_of_top (u := entered u.turn y) rfl (level_below_lt hcu)
    (asr_getElem_of_pushed hcu u.pc (level_below_lt hcu))
  have hbelow : (u.asr.setIfInBounds (u.sp.toNat - 1) u.pc)[(s.sp - 1).toNat]'(level_below_lt hc) = s.pc := by
    have hne : u.sp.toNat - 1 ≠ (s.sp - 1).toNat := by rw [← hsp]; omega
    rw [Vector.getElem_setIfInBounds_ne _ hne]
    simp only [hasr]
    exact asr_getElem_of_pushed hc s.pc (level_below_lt hc)
  exact ⟨_, _, _, step_enters hpu hiu hyu hcu, hreti, rfl, rfl, exec_reti_of_top hsp (level_below_lt hc) hbelow,
    rfl, rfl, rfl⟩

/-! ## EI and DI (O40) -/

theorem exec_ei (s : State) :
    exec .ei s = .next { s with inte := true, eiHold := Config.eiDelay, pc := s.pc + 1 } := rfl

theorem exec_di (s : State) : exec .di s = .next { s with inte := false, pc := s.pc + 1 } := rfl

/-- Settles O40: after EI acceptance is held or not as `EiDelay` says; after DI it is off. -/
theorem eiAndDiTakeEffect : Obligations.EiAndDiTakeEffect := by
  refine fun s => ⟨⟨exec_ei s, exec_di s⟩, fun hsch hr hc => ⟨fun x hx t ht => ?_, fun t ht i hi => ?_⟩⟩
  · obtain rfl := Host.Outcome.next.inj ((exec_ei s).symm.trans ht)
    refine ⟨fun hd => step_enters ⟨.inl hsch, hr, hd⟩ rfl hx hc, fun hd i hi => ?_⟩
    apply step_of_decode_ok
    exacts [.inl hsch, hr, acceptedSource_turn_eq_none (by simp [hd]), hi]
  · obtain rfl := Host.Outcome.next.inj ((exec_di s).symm.trans ht)
    apply step_of_decode_ok
    exacts [.inl hsch, hr, acceptedSource_turn_eq_none (by simp), hi]

/-! ## HALT and STOP (O42, O43, O44) -/

theorem legalHalt_eq (h : Nibble) : legalHalt h = !(h.getLsbD 2 || h.getLsbD 0) := by revert h; decide

theorem legalStop_iff : ∀ c : Nibble, legalStop c = true ↔ c.setWidth 3 = 0 := by decide

theorem nopBefore_iff (s : State) : nopBefore s = true ↔ romWord s.rom (s.pc - 1) = 0x3CF0 := decide_eq_true_iff

theorem haltReleased_eq (s : State) (h : Nibble) :
    haltReleased s h = ((h.getLsbD 3 && s.anyWants) || (h.getLsbD 1 && s.irqTm)) := rfl

theorem stopReleased_eq (s : State) (c : Nibble) :
    stopReleased s c = (c.getLsbD 3 && (s.wants .int || s.wants .serial)) := rfl

section
variable {s : State} {h c : Nibble}

theorem exec_halt_illegal (hl : legalHalt h = false) : exec (.halt h) s = .refused (.standbyOperand h) := by
  rw [legalHalt_eq, Bool.not_eq_false'] at hl
  exact if_pos hl

theorem exec_halt_legal (hl : legalHalt h = true) : exec (.halt h) s =
    if !nopBefore s then .refused .noNopBefore
    else if haltReleased s h then .next s.advance
    else .next { s with standby := .halt h }.advance := by
  rw [legalHalt_eq, Bool.not_eq_true'] at hl
  exact if_neg (by simp only [hl, Bool.false_eq_true, not_false_eq_true])

theorem exec_halt_after_nop (hl : legalHalt h = true) (hn : romWord s.rom (s.pc - 1) = 0x3CF0) : exec (.halt h) s =
    .next { s with pc := s.pc + 1, standby := if haltReleased s h then s.standby else .halt h } := by
  rw [exec_halt_legal hl, (nopBefore_iff s).2 hn]
  cases haltReleased s h <;> rfl

theorem exec_halt_without_nop (hl : legalHalt h = true) (hn : romWord s.rom (s.pc - 1) ≠ 0x3CF0) :
    exec (.halt h) s = .refused .noNopBefore := by
  have hb : nopBefore s = false := Bool.eq_false_iff.2 (mt (nopBefore_iff s).1 hn)
  rw [exec_halt_legal hl, hb]
  rfl

theorem exec_stop_illegal (hl : legalStop c = false) : exec (.stop c) s = .refused (.standbyOperand c) :=
  if_pos (mt (legalStop_iff c).2 (by simp [hl]))

theorem exec_stop_legal (hl : legalStop c = true) : exec (.stop c) s =
    if !nopBefore s then .refused .noNopBefore
    else if c = 0 then .next { resetDefined s with standby := .stop c }.advance
    else if stopReleased s c then .next s.advance
    else .next { s with standby := .stop c, timer := { s.timer with tmc := 0 } }.advance :=
  if_neg (not_not.2 ((legalStop_iff c).1 hl))

theorem exec_stop_without_nop (hl : legalStop c = true) (hn : romWord s.rom (s.pc - 1) ≠ 0x3CF0) :
    exec (.stop c) s = .refused .noNopBefore := by
  have hb : nopBefore s = false := Bool.eq_false_iff.2 (mt (nopBefore_iff s).1 hn)
  rw [exec_stop_legal hl, hb]
  rfl

theorem exec_stop_eight (hn : romWord s.rom (s.pc - 1) = 0x3CF0) : exec (.stop 0b1000) s = .next
    (if s.wants .int || s.wants .serial then { s with pc := s.pc + 1 }
    else { s with pc := s.pc + 1, standby := .stop 0b1000, timer := { s.timer with tmc := 0 } }) := by
  have hreleased : stopReleased s 0b1000 = (s.wants .int || s.wants .serial) := rfl
  rw [exec_stop_legal rfl, (nopBefore_iff s).2 hn, hreleased]
  cases s.wants .int || s.wants .serial <;> rfl

theorem exec_stop_zero (hn : romWord s.rom (s.pc - 1) = 0x3CF0) :
    exec (.stop 0) s = .next { resetDefined s with standby := .stop 0 }.advance := by
  rw [exec_stop_legal rfl, (nopBefore_iff s).2 hn]
  rfl

end

/-- Settles O42: the branches of HALT. -/
theorem haltEntersUnlessReleased : Obligations.HaltEntersUnlessReleased :=
  fun _ _ => ⟨exec_halt_after_nop, exec_halt_illegal, exec_halt_without_nop⟩

/-- Settles O43: the branches of STOP with b3 = 1, and its refusals. -/
theorem stopEntersUnlessReleased : Obligations.StopEntersUnlessReleased :=
  fun _ => ⟨exec_stop_eight, fun _ => exec_stop_illegal, fun _ => exec_stop_without_nop⟩

/-- The values of reset do not depend on the pc, the mode, the schedule or the step number. -/
theorem HasResetValues.frame {s : State} (h : HasResetValues s) (a : ProgAddr) (m : Standby) (l : List Event)
    (n : Nat) : HasResetValues { s with pc := a, standby := m, schedule := l, drawClock := n } :=
  ⟨h.sp, h.inte, h.systemRegisters, h.latches, h.inputMode, h.timer, h.serial, h.requests, h.enables, h.control⟩

/-- Settles O44: STOP 0000B sets what every reset sets, and the mode. -/
theorem stopZeroInitialisesAndSleeps : Obligations.StopZeroInitialisesAndSleeps := by
  intro s hn
  exact ⟨_, exec_stop_zero hn, rfl, rfl, (resetDefined_values s).frame (s.pc + 1) (.stop 0) s.schedule s.drawClock,
    rfl, rfl, rfl, rfl, rfl, rfl, rfl, rfl⟩

/-! ## The CPU's turn in standby (O49, O50) -/

section
variable {s : State} {h c : Nibble}

theorem cpuTurn_halt (hs : s.standby = .halt h) :
    cpuTurn s = .done (if haltReleased s h then { s with standby := .running } else s) := by
  rw [cpuTurn, hs]

theorem cpuTurn_stop (hs : s.standby = .stop c) :
    cpuTurn s = .done (if stopReleased s c then { s with standby := .running } else s) := by
  rw [cpuTurn, hs]

theorem cpuTurn_held (hs : s.standby = .resetHeld ∨ s.standby = .oscWait) : cpuTurn s = .done s := by
  rcases hs with hs | hs <;> rw [cpuTurn, hs]

end

/-- Settles O49: the CPU's turn in each mode but running. -/
theorem standbyWaitsForItsReleaseCondition : Obligations.StandbyWaitsForItsReleaseCondition :=
  fun s hm => ⟨fun _ hs => step_of_done hm (cpuTurn_halt (s := s.turn) hs),
    fun _ hs => step_of_done hm (cpuTurn_stop (s := s.turn) hs),
    fun hs => step_of_done hm (cpuTurn_held (s := s.turn) hs)⟩

theorem anyWants_of_firstWanted {s : State} {x : IntSource} (h : s.firstWanted x = true) : s.anyWants = true := by
  unfold State.firstWanted at h
  cases x <;> simp_all [State.anyWants]

/-- Settles O50: the release is one turn, and the next is an acceptance point. -/
theorem releaseWithInteEntersTheInterrupt : Obligations.ReleaseWithInteEntersTheInterrupt := by
  intro s h x hsch hs h3 hh hx hc
  have hreleased : haltReleased s.turn h = true := by
    have hw : s.turn.anyWants = true := anyWants_of_firstWanted hx
    simp [haltReleased_eq, h3, hw]
  have hstep : step s = .next { s.turn with standby := .running } := by
    rw [step_of_done (.inl hsch) (cpuTurn_halt (s := s.turn) hs), hreleased]
    rfl
  have hnext : { s.turn with standby := .running }.cpuMoves := .inl (by simp [State.turn, hsch])
  refine ⟨_, hstep, rfl, rfl, fun hi => step_enters ⟨hnext, rfl, hh⟩ hi hx hc, fun hi i hdec => ?_⟩
  have hnone : acceptedSource { s.turn with standby := .running }.turn = none :=
    acceptedSource_turn_eq_none (by simp [State.turn, hi])
  rw [step_of_decode_ok hnext rfl hnone hdec]
  exact congrArg (exec i) (eiHold_eq_self hh)

end Sys2Proof.Machine
end

section
/-! PROOFS. The devices (60_exceptions.md sections 2 and 4 to 7): runs of scheduled events, the timer, the serial
interface, the INT edge, the ports and the pins. -/

namespace Sys2Proof.Machine

/-! ## Runs -/

theorem run_succ_of_step (M : Host.Core) {s t : M.State} (h : M.step s = .next t) (n : Nat) :
    M.run (n + 1) s = M.run n t := by
  rw [Host.Core.run, h]

theorem run_add_of_run (M : Host.Core) {s t : M.State} {n : Nat} (h : M.run n s = .next t) (m : Nat) :
    M.run (n + m) s = M.run m t := by
  induction n generalizing s with
  | zero =>
    obtain rfl : s = t := Host.Outcome.next.inj h
    rw [Nat.zero_add]
  | succ n ih =>
    rw [Nat.add_right_comm]
    cases hs : M.step s with
    | next u => rw [run_succ_of_step M hs] at h ⊢; exact ih h
    | fault r => rw [Host.Core.run, hs] at h; cases h
    | refused r => rw [Host.Core.run, hs] at h; cases h

/-- The first step of a run of the machine. -/
theorem core_run_succ {s t : State} (h : step s = .next t) (n : Nat) :
    Sys2Proof.core.run (n + 1) s = Sys2Proof.core.run n t :=
  run_succ_of_step Sys2Proof.core h n

theorem core_run_add {s t : State} {n : Nat} (h : Sys2Proof.core.run n s = .next t) (m : Nat) :
    Sys2Proof.core.run (n + m) s = Sys2Proof.core.run m t :=
  run_add_of_run Sys2Proof.core h m

/-! ## Timer (O51, O52) -/

section
variable {s : State}

theorem countPulse_counting (ht : s.timer.tmen = true) (hs : s.standby = .running ∨ ∃ h, s.standby = .halt h) :
    countPulse s =
      if s.timer.tmc = s.timer.tmm then
        { s with timer := { s.timer with tmc := 0, out := !s.timer.out }, irqTm := true }
      else { s with timer := { s.timer with tmc := s.timer.tmc + 1 } } := by
  rcases hs with hs | ⟨h, hs⟩ <;> simp [countPulse, hs, ht]

theorem countPulse_idle (h : ¬ (s.timer.tmen = true ∧ (s.standby = .running ∨ ∃ h, s.standby = .halt h))) :
    countPulse s = s := by
  unfold countPulse
  cases hs : s.standby <;> simp_all

end

/-- Settles O51: the step is the pulse of the schedule's head. -/
theorem countPulseCountsOrMatches : Obligations.CountPulseCountsOrMatches := by
  intro s rest hs
  have hstep := step_of_event hs (by simp)
  refine ⟨fun ⟨ht, hm⟩ => ?_, fun h => ?_⟩
  · exact hstep.trans (congrArg _ (countPulse_counting (s := s.turn) ht hm))
  · exact hstep.trans (congrArg _ (countPulse_idle (s := s.turn) h))

section
variable {s : State} {rest : List Event}

theorem step_count (hs : s.schedule = .countPulse :: rest) (ht : s.timer.tmen = true)
    (hm : s.standby = .running ∨ ∃ h, s.standby = .halt h) (hne : s.timer.tmc ≠ s.timer.tmm) :
    step s = .next { s with
      timer := { s.timer with tmc := s.timer.tmc + 1 }, schedule := rest, drawClock := s.drawClock + 1 } := by
  rw [(countPulseCountsOrMatches s rest hs).1 ⟨ht, hm⟩, if_neg hne, State.turn, hs]
  rfl

theorem step_match (hs : s.schedule = .countPulse :: rest) (ht : s.timer.tmen = true)
    (hm : s.standby = .running ∨ ∃ h, s.standby = .halt h) (heq : s.timer.tmc = s.timer.tmm) :
    step s = .next { s with
      timer := { s.timer with tmc := 0, out := !s.timer.out }
      irqTm := true, schedule := rest, drawClock := s.drawClock + 1 } := by
  rw [(countPulseCountsOrMatches s rest hs).1 ⟨ht, hm⟩, if_pos heq, State.turn, hs]
  rfl

/-- Pulses below the modulo count up. -/
theorem core_run_count (n : Nat) (ht : s.timer.tmen = true) (hm : s.standby = .running ∨ ∃ h, s.standby = .halt h)
    (hs : s.schedule = List.replicate n .countPulse ++ rest) (hn : s.timer.tmc.toNat + n ≤ s.timer.tmm.toNat) :
    Sys2Proof.core.run n s = .next { s with
      timer := { s.timer with tmc := s.timer.tmc + BitVec.ofNat 8 n }
      schedule := rest, drawClock := s.drawClock + n } := by
  induction n generalizing s with
  | zero =>
    have hs' : s.schedule = rest := hs
    subst hs'
    simp [Host.Core.run]
  | succ n ih =>
    have htop := s.timer.tmm.isLt
    have hne : s.timer.tmc ≠ s.timer.tmm := fun h => by rw [h] at hn; omega
    have hinc : (s.timer.tmc + 1).toNat = s.timer.tmc.toNat + 1 := by bv_omega
    refine (core_run_succ (step_count hs ht hm hne) n).trans ?_
    refine (ih (s := { s with
      timer := { s.timer with tmc := s.timer.tmc + 1 }
      schedule := List.replicate n .countPulse ++ rest, drawClock := s.drawClock + 1 })
      ht hm rfl (by simp only [hinc]; omega)).trans ?_
    have hcount : s.timer.tmc + 1 + BitVec.ofNat 8 n = s.timer.tmc + BitVec.ofNat 8 (n + 1) := by
      rw [BitVec.add_assoc, Nat.add_comm n 1, BitVec.ofNat_add]
      rfl
    have hclock : s.drawClock + 1 + n = s.drawClock + (n + 1) := by omega
    exact congrArg₂ (fun c d => Host.Outcome.next { s with
      timer := { s.timer with tmc := c }, schedule := rest, drawClock := d }) hcount hclock

end

/-- Settles O52: the count goes up to TMM, and the pulse after that is the match. -/
theorem timerPeriodIsModuloPlusOne : Obligations.TimerPeriodIsModuloPlusOne := by
  intro s n rest ht hm hzero hs
  have hzeroNat : s.timer.tmc.toNat = 0 := congrArg BitVec.toNat hzero
  refine ⟨fun hn => ?_, fun hn => ?_⟩
  · rw [core_run_count n ht hm hs (by omega)]
    simp [hzero]
  · subst hn
    have hs' : s.schedule = List.replicate s.timer.tmm.toNat .countPulse ++ .countPulse :: rest := by
      rw [hs, List.replicate_succ', List.append_assoc]
      rfl
    have htop : s.timer.tmc + BitVec.ofNat 8 s.timer.tmm.toNat = s.timer.tmm := by
      simp [hzero]
    refine (core_run_add (core_run_count _ ht hm hs' (by omega)) 1).trans ?_
    refine (core_run_succ (step_match (s := { s with
      timer := { s.timer with tmc := s.timer.tmc + BitVec.ofNat 8 s.timer.tmm.toNat }
      schedule := .countPulse :: rest, drawClock := s.drawClock + s.timer.tmm.toNat }) rfl ht hm htop) 0).trans ?_
    rfl

/-! ## Serial interface: one edge (O54) -/

/-- With an internal clock the pin is low between the edges of a transfer, and released elsewhere in it. -/
theorem sckPulledLow_in_transfer {s : State} (hck : s.sio.siock ≠ 0) (hts : s.sio.siots = true)
    (hst : s.sio.started = true) : s.sckPulledLow = s.sio.sckLow := by
  have hck' : decide (s.sio.siock ≠ 0) = true := decide_eq_true hck
  rw [State.sckPulledLow, hck', hts, hst]
  rfl

theorem podPins_bit0_of_sioen {s : State} (he : s.sio.sioen = true) :
    s.podPins.getLsbD 0 = (!s.sckPulledLow && s.podLine 0 0) := by
  rw [podPins_getLsbD s (by decide)]
  simp [State.podPulledLow, he]

theorem siLevel_of_held {s : State} {v : Bool} (h : s.podHeld 2 v) : siLevel s = v := podLine_of_held h 0

/-- The ports a falling edge leaves: the SO latch is loaded in transmit/receive mode. -/
def fallPorts (s : State) : Ports :=
  if s.sio.siohiz then s.ports else s.ports.withSoLatch (s.sio.sfr.getLsbD 7)

theorem fallPorts_spec (s : State) :
    fallPorts s = { s.ports with latchD := (fallPorts s).latchD } ∧
      (fallPorts s).latchD.getLsbD 1 = (if s.sio.siohiz then s.ports.latchD.getLsbD 1 else s.sio.sfr.getLsbD 7) ∧
      ∀ n, n < 4 → n ≠ 1 → (fallPorts s).latchD.getLsbD n = s.ports.latchD.getLsbD n := by
  obtain ⟨hrest, hbits⟩ := withSoLatch_spec s.ports (s.sio.sfr.getLsbD 7)
  unfold fallPorts
  cases s.sio.siohiz
  · exact ⟨hrest, hbits 1 (by decide), fun n hn hne => (hbits n hn).trans (if_neg hne)⟩
  · exact ⟨rfl, rfl, fun _ _ _ => rfl⟩

/-- Settles O54: `sckFall` and `sckRise` in the state with the turn taken. -/
theorem serialEdgesShiftMsbFirst : Obligations.SerialEdgesShiftMsbFirst := by
  intro s rest
  refine ⟨fun hs he hsh => ?_, fun hs he hsh hst => ?_, fun hs he hsh hst => ?_, fun hs hsh => ?_⟩
  · have hfall := (sckFall_spec s.turn).2 hsh he
    obtain ⟨hrest, hso, hother⟩ := fallPorts_spec s.turn
    refine ⟨_, (step_of_event hs (by simp)).trans (congrArg _ hfall), ?_, hso, hother, fun hck => ?_⟩
    · exact congrArg (fun p => { s.turn with sio := { s.sio with started := true, sckLow := true }, ports := p }) hrest
    · rw [podPins_bit0_of_sioen (by exact he), sckPulledLow_in_transfer (by exact hck) (by exact hsh.1) rfl]
      rfl
  · have hrise := (sckRise_spec s.turn).2.2 hsh he hst
    refine ⟨sckRise s.turn, siLevel s.turn, step_of_event hs (by simp), fun v hv => ?_, hrise, fun hck hc v hv => ?_⟩
    · exact siLevel_of_held (s := s.turn) hv
    · rw [hrise, if_neg (by exact hc), podPins_bit0_of_sioen (by exact he),
        sckPulledLow_in_transfer (by exact hck) (by exact hsh.1) (by exact hst)]
      exact podLine_of_held (s := s.turn) hv 0
  · exact (step_of_event hs (by simp)).trans (congrArg _ ((sckRise_spec s.turn).2.1 hsh he hst))
  · rcases hs with hs | hs
    · exact (step_of_event hs (by simp)).trans (congrArg _ ((sckFall_spec s.turn).1 hsh))
    · exact (step_of_event hs (by simp)).trans (congrArg _ ((sckRise_spec s.turn).1 hsh))

/-! ## The INT edge (O55) -/

theorem edgeSelected_eq (e : Edge) (was now : Bool) : edgeSelected e was now =
    (((!was && now) && (e == .rising || e == .both)) || ((was && !now) && (e == .falling || e == .both))) := by
  cases e <;> revert was now <;> decide

theorem pinsChange_detecting {s : State} (hheld : s.standby ≠ .resetHeld) (hwait : s.standby ≠ .oscWait) (p : Pins) :
    pinsChange s p = { s with
      pins := p, irq := s.irq || edgeSelected (Config.iegmdEdge s.iegmd) s.pins.int p.int } := by
  unfold pinsChange
  cases hs : s.standby <;> simp_all

/-- Settles O55: running and in the standby modes edges are detected. -/
theorem selectedIntEdgeSetsIrq : Obligations.SelectedIntEdgeSetsIrq := by
  intro s p rest hs hheld hwait rises falls e
  rw [step_of_event hs (by simp)]
  refine congrArg _ ((pinsChange_detecting (s := s.turn) hheld hwait p).trans ?_)
  rw [edgeSelected_eq, ← Bool.or_assoc]
  rfl

end Sys2Proof.Machine
end

section
/-! PROOFS. A serial transfer of eight bits (60_exceptions.md section 6). One bit is a level on SI, a falling and a
rising edge; seven bits that leave the transfer under way are an induction, and the eighth ends it. -/

namespace Sys2Proof.Machine

/-! ## The shift register -/

theorem getLsbD_shiftIn (b : Byte) (x : Bool) {i : Nat} (hi : i < 8) :
    (shiftIn b x).getLsbD i = if i = 0 then x else b.getLsbD (i - 1) := by
  have happend := BitVec.getLsbD_append (x := b.extractLsb' 0 7) (y := BitVec.ofBool x) (i := i)
  rcases i with _ | i
  · exact happend.trans (by simp)
  · exact happend.trans (by simp [show i < 7 by omega])

/-- Bits shifted in stand in reverse order from bit 0 up, and above them the old bits. -/
theorem getLsbD_foldl_shiftIn (l : List Bool) (b : Byte) {i : Nat} (hi : i < 8) :
    (l.foldl shiftIn b).getLsbD i = (l.reverse[i]?).getD (b.getLsbD (i - l.length)) := by
  induction l using List.reverseRecOn generalizing i with
  | nil => simp
  | append_singleton l x ih =>
    rw [List.foldl_append, List.foldl_cons, List.foldl_nil, getLsbD_shiftIn _ _ hi, List.reverse_append]
    rcases i with _ | i
    · simp
    · simpa using ih (i := i) (by omega)

/-! ## One bit -/

/-- What the edges of a transfer leave alone. -/
structure KeepsTransferFrame (s t : State) : Prop where
  mode : t.sio.sioen = s.sio.sioen ∧ t.sio.siohiz = s.sio.siohiz ∧ t.sio.siock = s.sio.siock
  cpu : t.pc = s.pc ∧ t.ram = s.ram ∧ t.rom = s.rom ∧ t.asr = s.asr ∧ t.sp = s.sp ∧ t.psw = s.psw
  standby : t.standby = s.standby

theorem KeepsTransferFrame.refl (s : State) : KeepsTransferFrame s s :=
  ⟨⟨rfl, rfl, rfl⟩, ⟨rfl, rfl, rfl, rfl, rfl, rfl⟩, rfl⟩

theorem KeepsTransferFrame.trans {s t u : State} (h : KeepsTransferFrame s t) (h' : KeepsTransferFrame t u) :
    KeepsTransferFrame s u := by
  obtain ⟨⟨m1, m2, m3⟩, ⟨c1, c2, c3, c4, c5, c6⟩, hs⟩ := h
  obtain ⟨⟨m1', m2', m3'⟩, ⟨c1', c2', c3', c4', c5', c6'⟩, hs'⟩ := h'
  exact ⟨⟨m1'.trans m1, m2'.trans m2, m3'.trans m3⟩,
    ⟨c1'.trans c1, c2'.trans c2, c3'.trans c3, c4'.trans c4, c5'.trans c5, c6'.trans c6⟩, hs'.trans hs⟩

/-- A transfer is under way and its clock runs: SIOEN = SIOTS = 1, running or in HALT mode. -/
structure State.receives (s : State) : Prop where
  sioen : s.sio.sioen = true
  siots : s.sio.siots = true
  clocked : s.standby = .running ∨ ∃ h, s.standby = .halt h

theorem State.receives.shifts {s : State} (h : s.receives) : s.shifts :=
  ⟨h.siots, h.clocked.imp_right .inl⟩

/-- The events of one bit. -/
def bitEvents (p : Pins) : List Event := [.pins p, .sckFall, .sckRise]

/-- The level of SI while the outside drives the pins at `p`. -/
def siOf (p : Pins) : Bool := p.pod.getLsbD 2

/-- What a bit does to the transfer itself: the shift register, the SO latch, and the count or the end. -/
structure ReceivesBit (s t : State) (p : Pins) : Prop where
  sfr : t.sio.sfr = shiftIn s.sio.sfr (siOf p)
  latch : t.ports.latchD.getLsbD 1 =
    if s.sio.siohiz then s.ports.latchD.getLsbD 1 else s.sio.sfr.getLsbD 7
  counts : s.sio.count ≠ 7 → t.sio.siots = true ∧ t.sio.count = s.sio.count + 1
  ends : s.sio.count = 7 → t.sio.siots = false ∧ t.sio.count = 0 ∧ t.irqSio = true

/-- `s` after the outside levels became `p`, the events `l` being left. -/
def afterPins (s : State) (p : Pins) (irq : Bool) (l : List Event) : State :=
  { s with pins := p, irq := irq, schedule := l, drawClock := s.drawClock + 1 }

/-- `s` after a falling edge of a transfer. -/
def afterFall (s : State) (l : List Event) : State :=
  { s with
    sio := { s.sio with started := true, sckLow := true }
    ports := fallPorts s, schedule := l, drawClock := s.drawClock + 1 }

/-- `s` after a rising edge of a started transfer with SI at `x`. -/
def afterRise (s : State) (x : Bool) (l : List Event) : State :=
  if s.sio.count = 7 then { s with
    sio := { s.sio with sfr := shiftIn s.sio.sfr x, count := 0, siots := false, started := false, sckLow := false }
    irqSio := true, schedule := l, drawClock := s.drawClock + 1 }
  else { s with
    sio := { s.sio with sfr := shiftIn s.sio.sfr x, count := s.sio.count + 1, sckLow := false }
    schedule := l, drawClock := s.drawClock + 1 }

section
variable {s : State} {rest : List Event}

theorem step_pins (hr : s.receives) {p : Pins} (hs : s.schedule = .pins p :: rest) :
    ∃ irq, step s = .next (afterPins s p irq rest) := by
  have hheld : s.standby ≠ .resetHeld ∧ s.standby ≠ .oscWait := by
    rcases hr.clocked with h | ⟨_, h⟩ <;> simp [h]
  have hrest : s.schedule.tail = rest := congrArg List.tail hs
  have hpins := pinsChange_detecting (s := s.turn) hheld.1 hheld.2 p
  rw [← hrest]
  exact ⟨_, (step_of_event hs (by simp)).trans (congrArg _ hpins)⟩

theorem step_sckFall (hr : s.receives) (hs : s.schedule = .sckFall :: rest) : step s = .next (afterFall s rest) := by
  have hrest : s.schedule.tail = rest := congrArg List.tail hs
  rw [← hrest]
  exact (step_of_event hs (by simp)).trans (congrArg _ ((sckFall_spec s.turn).2 hr.shifts hr.sioen))

theorem step_sckRise (hr : s.receives) (hst : s.sio.started = true) (hs : s.schedule = .sckRise :: rest)
    {x : Bool} (hx : s.podHeld 2 x) : step s = .next (afterRise s x rest) := by
  have hrest : s.schedule.tail = rest := congrArg List.tail hs
  have hlevel : siLevel s.turn = x := siLevel_of_held (s := s.turn) hx
  rw [← hrest, ← hlevel]
  exact (step_of_event hs (by simp)).trans (congrArg _ ((sckRise_spec s.turn).2.2 hr.shifts hr.sioen hst))

theorem afterRise_receivesBit {p : Pins} {irq : Bool} {l l' : List Event} (hts : s.sio.siots = true) :
    let t := afterRise (afterFall (afterPins s p irq l) l') (siOf p) rest
    t.schedule = rest ∧ KeepsTransferFrame s t ∧ ReceivesBit s t p := by
  intro t
  have hlatch := (fallPorts_spec (afterPins s p irq l)).2.1
  by_cases hc : s.sio.count = 7
  · have ht : t = _ := if_pos hc
    rw [ht]
    exact ⟨rfl, ⟨⟨rfl, rfl, rfl⟩, ⟨rfl, rfl, rfl, rfl, rfl, rfl⟩, rfl⟩, rfl, hlatch, fun h => absurd hc h,
      fun _ => ⟨rfl, rfl, rfl⟩⟩
  · have ht : t = _ := if_neg hc
    rw [ht]
    exact ⟨rfl, ⟨⟨rfl, rfl, rfl⟩, ⟨rfl, rfl, rfl, rfl, rfl, rfl⟩, rfl⟩, rfl, hlatch, fun _ => ⟨hts, rfl⟩,
      fun h => absurd h hc⟩

theorem run_bit (hr : s.receives) {p : Pins} (hp : p.podDriven.getLsbD 2 = true)
    (hs : s.schedule = bitEvents p ++ rest) :
    ∃ t, Sys2Proof.core.run 3 s = .next t ∧ t.schedule = rest ∧ KeepsTransferFrame s t ∧ ReceivesBit s t p := by
  obtain ⟨irq, hpins⟩ := step_pins (rest := .sckFall :: .sckRise :: rest) hr hs
  have hfall : step (afterPins s p irq (.sckFall :: .sckRise :: rest)) = _ :=
    step_sckFall (rest := .sckRise :: rest) ⟨hr.sioen, hr.siots, hr.clocked⟩ rfl
  have hrise : step (afterFall (afterPins s p irq (.sckFall :: .sckRise :: rest)) (.sckRise :: rest)) = _ :=
    step_sckRise (s := afterFall (afterPins s p irq (.sckFall :: .sckRise :: rest)) (.sckRise :: rest)) (x := siOf p)
      ⟨hr.sioen, hr.siots, hr.clocked⟩ rfl rfl (.inl ⟨hp, rfl⟩)
  exact ⟨_, (core_run_succ hpins 2).trans ((core_run_succ hfall 1).trans (core_run_succ hrise 0)),
    afterRise_receivesBit hr.siots⟩

/-! ## Up to seven bits, and the eighth -/

/-- Bits that leave the transfer under way. -/
theorem run_bits (ps : List Pins) (hr : s.receives) (hp : ∀ p ∈ ps, p.podDriven.getLsbD 2 = true)
    (hs : s.schedule = ps.flatMap bitEvents ++ rest) (hc : s.sio.count.toNat + ps.length ≤ 7) :
    ∃ t, Sys2Proof.core.run (3 * ps.length) s = .next t ∧ t.schedule = rest ∧ KeepsTransferFrame s t ∧
      t.sio.siots = true ∧ t.sio.count.toNat = s.sio.count.toNat + ps.length ∧
      t.sio.sfr = (ps.map siOf).foldl shiftIn s.sio.sfr ∧
      (s.sio.siohiz = true → t.ports.latchD.getLsbD 1 = s.ports.latchD.getLsbD 1) := by
  induction ps generalizing s with
  | nil => exact ⟨s, rfl, hs, .refl s, hr.siots, rfl, rfl, fun _ => rfl⟩
  | cons p ps ih =>
    rw [List.length_cons] at hc ⊢
    rw [List.flatMap_cons, List.append_assoc] at hs
    obtain ⟨u, hrun, hsu, hframe, hbit⟩ := run_bit hr (hp p (by simp)) hs
    have hne : s.sio.count ≠ 7 := fun h => by rw [h] at hc; simp at hc
    obtain ⟨hts, hcount⟩ := hbit.counts hne
    have hcountNat : u.sio.count.toNat = s.sio.count.toNat + 1 := by bv_omega
    have hru : u.receives := ⟨hframe.mode.1.trans hr.sioen, hts, hframe.standby ▸ hr.clocked⟩
    obtain ⟨t, hrunt, hst, hframet, htst, hcountt, hsfr, hlatch⟩ :=
      ih hru (fun q hq => hp q (by simp [hq])) hsu (by omega)
    refine ⟨t, ?_, hst, hframe.trans hframet, htst, by omega, ?_, fun hhiz => ?_⟩
    · rw [Nat.mul_add, Nat.add_comm]
      exact (core_run_add hrun _).trans hrunt
    · rw [hsfr, hbit.sfr, List.map_cons, List.foldl_cons]
    · rw [hlatch (hframe.mode.2.1.trans hhiz), hbit.latch, if_pos hhiz]

end

/-- Settles O53: seven bits leave the transfer under way, the eighth ends it. -/
theorem serialTransferReceivesEightBits : Obligations.SerialTransferReceivesEightBits := by
  intro s ps rest hen hts hcount hmode hlen hdriven hs
  obtain ⟨init, last, rfl⟩ : ∃ init last, ps = init ++ [last] :=
    (List.eq_nil_or_concat' ps).resolve_left (by rintro rfl; simp at hlen)
  have hinit : init.length = 7 := by simpa using hlen
  have hs' : s.schedule = init.flatMap bitEvents ++ (bitEvents last ++ rest) := by
    change s.schedule = (init ++ [last]).flatMap bitEvents ++ rest at hs
    simp [hs]
  obtain ⟨u, hrun, hsu, hframe, htsu, hcountu, hsfru, hlatchu⟩ := run_bits init ⟨hen, hts, hmode⟩
    (fun p hp => hdriven p (by simp [hp])) hs' (by simp [hcount, hinit])
  have hru : u.receives := ⟨hframe.mode.1.trans hen, htsu, hframe.standby ▸ hmode⟩
  obtain ⟨t, hrunt, hst, hframet, hbit⟩ := run_bit hru (hdriven last (by simp)) hsu
  have hseven : u.sio.count = 7 := BitVec.eq_of_toNat_eq (by simp [hcountu, hcount, hinit])
  obtain ⟨htst, hcountt, hirq⟩ := hbit.ends hseven
  have hsfr : t.sio.sfr = ((init ++ [last]).map siOf).foldl shiftIn s.sio.sfr := by
    rw [hbit.sfr, hsfru, List.map_append, List.foldl_append]
    rfl
  have htotal := hframe.trans hframet
  obtain ⟨hen', hhiz', hck'⟩ := htotal.mode
  obtain ⟨hpc, hram, hrom, hasr, hsp, hpsw⟩ := htotal.cpu
  refine ⟨t, ?_, fun i hi => ?_, htst, hcountt, hirq, ?_, hen'.trans hen, hhiz', hck', hpc, hram, hrom, hasr, hsp,
    hpsw, htotal.standby, hst⟩
  · rw [hinit] at hrun
    exact (core_run_add hrun 3).trans hrunt
  · have hlen8 : ((init ++ [last]).map siOf).length = 8 := by simp [hinit]
    rw [hsfr, getLsbD_foldl_shiftIn _ _ (by omega), List.getElem?_reverse (by omega), hlen8,
      show 8 - 1 - (7 - i) = i by omega, List.getElem?_map, List.getElem?_eq_getElem (by simp [hinit]; omega)]
    rfl
  · rw [hbit.latch, hframe.mode.2.1]
    cases hhiz : s.sio.siohiz
    · rw [hsfru, if_neg (by simp), if_neg (by simp), getLsbD_foldl_shiftIn _ _ (by decide)]
      simp [hinit]
    · exact hlatchu hhiz

end Sys2Proof.Machine
end

section
/-! PROOFS. Ports and pins (60_exceptions.md section 5, 10_state.md section 12): what the port registers read and what
the pins of TMOUT and SO show, bit by bit. -/

namespace Sys2Proof.Machine

section
variable {s : State} {k : Nat}

/-! ## Ports A, B, C and E -/

theorem byMode_getLsbD (mode x y : Nibble) {n : Nat} (hn : n < 4) :
    (byMode mode x y).getLsbD n = if mode.getLsbD n then x.getLsbD n else y.getLsbD n := by
  rw [byMode, BitVec.getLsbD_or, BitVec.getLsbD_and, BitVec.getLsbD_and, BitVec.getLsbD_not]
  cases mode.getLsbD n <;> simp [hn]

theorem readPortA_getLsbD {n : Nat} (hn : n < 4) : (memRead s k 0x70).getLsbD n =
    if s.ports.poabio.getLsbD n then s.ports.latchA.getLsbD n else s.pins.poa.getLsbD n :=
  byMode_getLsbD _ _ _ hn

theorem readPortB_getLsbD (n : Nat) : (memRead s k 0x71).getLsbD n =
    if s.ports.pobgio then s.ports.latchB.getLsbD n else s.pins.pob.getLsbD n := by
  have hread : memRead s k 0x71 = if s.ports.pobgio then s.ports.latchB else s.pins.pob := rfl
  rw [hread]
  split <;> rfl

theorem readPortC_getLsbD {n : Nat} (hn : n < 4) : (memRead s k 0x72).getLsbD n =
    if s.ports.pocbio.getLsbD n then s.ports.latchC.getLsbD n else s.pins.poc.getLsbD n :=
  byMode_getLsbD _ _ _ hn

theorem poeOutside_getLsbD {n : Nat} (hn : n < 2) : (s.poeOutside k).getLsbD n = s.poeLine k n := by
  have hpair : ∀ a b : Bool, (BitVec.ofBool a ++ BitVec.ofBool b : BitVec 2).getLsbD 0 = b ∧
      (BitVec.ofBool a ++ BitVec.ofBool b : BitVec 2).getLsbD 1 = a := by decide
  obtain rfl | rfl : n = 0 ∨ n = 1 := by omega
  · exact (hpair _ _).1
  · exact (hpair _ _).2

/-- A POE pin is low where it is an output whose latch is 0, else as the outside leaves it. -/
theorem readPortE_getLsbD {n : Nat} (hn : n < 2) : (memRead s k 0x6F).getLsbD n =
    (!(s.ports.poebio.getLsbD n && !s.ports.latchE.getLsbD n) && s.poeLine k n) := by
  have hread : memRead s k 0x6F = (s.poePins k).setWidth 4 := rfl
  rw [hread, BitVec.getLsbD_setWidth, State.poePins, openDrain, BitVec.getLsbD_and, poeOutside_getLsbD hn]
  simp [hn, show n < 4 by omega]

theorem readPortE_high : (memRead s k 0x6F).getLsbD 3 = false ∧ (memRead s k 0x6F).getLsbD 2 = false := by
  have hread : memRead s k 0x6F = (s.poePins k).setWidth 4 := rfl
  rw [hread]
  simp

/-! ## Port D by the function of its pins -/

theorem podPortBit_output {n : Nat} (h : s.ports.podbio.getLsbD n = true) :
    s.podPortBit k n = s.ports.latchD.getLsbD n := if_pos h

theorem podPortBit_input {n : Nat} (h : s.ports.podbio.getLsbD n = false) {v : Bool} (hv : s.podHeld n v) :
    s.podPortBit k n = v := by
  rw [State.podPortBit, h]
  exact podLine_of_held hv k

theorem readPortD_bit0 : (memRead s k 0x73).getLsbD 0 = s.readPod0 k := readPortD_getLsbD s k 0

theorem readPortD_bit1 : (memRead s k 0x73).getLsbD 1 = s.readPod1 k := readPortD_getLsbD s k 1

theorem readPortD_bit2 : (memRead s k 0x73).getLsbD 2 = s.readPod2 k := readPortD_getLsbD s k 2

theorem readPortD_bit3 : (memRead s k 0x73).getLsbD 3 = s.readPod3 k := readPortD_getLsbD s k 3

theorem readPortD_tmout (h : s.timer.tmosel = true) : (memRead s k 0x73).getLsbD 3 = s.ports.latchD.getLsbD 3 := by
  rw [readPortD_bit3, State.readPod3, h]
  rfl

theorem readPortD_bit3_port (h : s.timer.tmosel = false) : (memRead s k 0x73).getLsbD 3 = s.podPortBit k 3 := by
  rw [readPortD_bit3, State.readPod3, h]
  rfl

/-- With SIOEN = 0 the three lower pins are ports. -/
theorem readPortD_port (h : s.sio.sioen = false) {n : Nat} (hn : n < 3) :
    (memRead s k 0x73).getLsbD n = s.podPortBit k n := by
  obtain rfl | rfl | rfl : n = 0 ∨ n = 1 ∨ n = 2 := by omega
  · rw [readPortD_bit0, State.readPod0, h]; rfl
  · rw [readPortD_bit1, State.readPod1, h]; rfl
  · rw [readPortD_bit2, State.readPod2, h]; rfl

theorem readPortD_si (h : s.sio.sioen = true) : (memRead s k 0x73).getLsbD 2 = s.podLine k 2 := by
  rw [readPortD_bit2, State.readPod2, h]
  rfl

theorem readPortD_receive (h : s.sio.sioen = true) (hz : s.sio.siohiz = true) :
    (memRead s k 0x73).getLsbD 1 = s.podLine k 1 := by
  rw [readPortD_bit1, State.readPod1, h, hz]
  rfl

theorem readPortD_sck_internal (h : s.sio.sioen = true) (hck : s.sio.siock ≠ 0) :
    (memRead s k 0x73).getLsbD 0 = s.ports.latchD.getLsbD 0 := by
  rw [readPortD_bit0, State.readPod0, h]
  exact if_neg hck

theorem readPortD_sck_external (h : s.sio.sioen = true) (hck : s.sio.siock = 0) :
    (memRead s k 0x73).getLsbD 0 = s.podLine k 0 := by
  rw [readPortD_bit0, State.readPod0, h]
  exact if_pos hck

/-! ## The pins of TMOUT and SO -/

theorem podPins_tmout (h : s.timer.tmosel = true) : s.podPins.getLsbD 3 = (s.timer.out && s.podLine 0 3) := by
  rw [podPins_getLsbD s (by decide)]
  simp [State.podPulledLow, h]

theorem podPins_so (h : s.sio.sioen = true) (hz : s.sio.siohiz = false) :
    s.podPins.getLsbD 1 = (s.ports.latchD.getLsbD 1 && s.podLine 0 1) := by
  rw [podPins_getLsbD s (by decide)]
  simp [State.podPulledLow, h, hz]

/-- A pin that is `x` and the line outside: low where `x` is, else at the level the outside holds. -/
theorem pin_cases {pin x line : Bool} {held : Bool → Prop} (h : pin = (x && line)) (hl : ∀ v, held v → line = v) :
    (x = false → pin = false) ∧ (x = true → ∀ v, held v → pin = v) := by
  constructor
  · rintro rfl
    simpa using h
  · rintro rfl v hv
    simpa [hl v hv] using h

end

/-- Settles O56: per port and per function of a POD pin, one lemma above. -/
theorem portsReadPinsOrLatches : Obligations.PortsReadPinsOrLatches := by
  intro s k d latch
  have held (j n : Nat) (v : Bool) (hv : s.podHeld n v) : s.podLine j n = v := podLine_of_held hv j
  refine ⟨fun n hn => ⟨readPortA_getLsbD hn, readPortB_getLsbD n, readPortC_getLsbD hn⟩, readPortD_tmout,
    fun h => ⟨fun ho => ?_, fun hi v hv => ?_⟩, fun h n hn => ⟨fun ho => ?_, fun hi v hv => ?_⟩,
    fun h => ⟨fun v hv => ?_, fun hz v hv => ?_, readPortD_sck_internal h, fun hck v hv => ?_⟩,
    readPortE_high.1, readPortE_high.2, fun n hn => ⟨fun ⟨ho, hl⟩ => ?_, fun hol v hv => ?_⟩,
    fun h => pin_cases (podPins_tmout h) (held 0 3), fun h hz => pin_cases (podPins_so h hz) (held 0 1)⟩
  · exact (readPortD_bit3_port h).trans (podPortBit_output ho)
  · exact (readPortD_bit3_port h).trans (podPortBit_input hi hv)
  · exact (readPortD_port h hn).trans (podPortBit_output ho)
  · exact (readPortD_port h hn).trans (podPortBit_input hi hv)
  · exact (readPortD_si h).trans (held k 2 v hv)
  · exact (readPortD_receive h hz).trans (held k 1 v hv)
  · exact (readPortD_sck_external h hck).trans (held k 0 v hv)
  · rw [readPortE_getLsbD hn, ho, hl]
    rfl
  · rw [readPortE_getLsbD hn, poeLine_of_held hv k]
    rcases hol with h | h <;> simp [h]

end Sys2Proof.Machine
end

section
/-! PROOFS. Resets (70_reset_and_hazards.md section 1, 10_state.md section 13). -/

namespace Sys2Proof.Machine

/-! ## The state after reset (O9, O58) -/

/-- Settles O9: the state is a literal. -/
theorem resetMeetsTheInvariant : Obligations.ResetMeetsTheInvariant := by
  unfold Obligations.ResetMeetsTheInvariant
  decide

theorem hasResetValues_reset : HasResetValues State.reset :=
  ⟨rfl, rfl, ⟨rfl, rfl, rfl, rfl, rfl⟩, ⟨rfl, rfl, rfl, rfl, rfl⟩, ⟨rfl, rfl, rfl, rfl, rfl⟩,
    ⟨rfl, rfl, rfl, rfl, rfl⟩, ⟨rfl, rfl, rfl, rfl⟩, ⟨rfl, rfl, rfl⟩, ⟨rfl, rfl, rfl⟩, ⟨rfl, rfl⟩⟩

/-- Settles O58: the state is a literal, and the registers read as it says. -/
theorem resetLeavesTheTableValues : Obligations.ResetLeavesTheTableValues := by
  refine ⟨hasResetValues_reset, rfl, rfl, rfl, rfl, rfl, rfl, ?_⟩
  decide

/-! ## Reset events (O59, O60) -/

section
variable {s : State} {c : ResetCause}

/-- What kinds 1 and 2 have in common: the values of the table, and what no reset touches. -/
theorem resetAssert_values (hc : c = .powerDown → s.pdresen = true) :
    let t := resetAssert s c
    HasResetValues t ∧ t.pc = 0 ∧ t.standby = .resetHeld ∧ t.rom = s.rom ∧ t.pins = s.pins ∧
      t.schedule = s.schedule := by
  obtain ⟨hkind2, hkind1⟩ := (resetAssert_spec s c).2 hc
  by_cases hm : (∃ h, s.standby = .halt h) ∨ ∃ h, s.standby = .stop h
  · rw [hkind2 hm]
    exact ⟨(resetKind2_values s).frame 0 .resetHeld s.schedule s.drawClock, rfl, rfl, rfl, rfl, rfl⟩
  · rw [hkind1 hm]
    exact ⟨(resetKind1_values s).frame 0 .resetHeld s.schedule s.drawClock, rfl, rfl, rfl, rfl, rfl⟩

/-- Kind 2 leaves RAM but DBF. -/
theorem stored_resetKind2 {a : Addr} (ha : a.toNat < 0x40) (hdbf : a ∉ ([0x0C, 0x0D, 0x0E, 0x0F] : List Addr)) :
    stored (resetKind2 s) a = stored s a := by
  have hkept := ((withDbf_spec (resetDefined s) (wordOf ((resetDefined s).freeNibble (.ram 0x0C))
    ((resetDefined s).freeNibble (.ram 0x0D)) ((resetDefined s).freeNibble (.ram 0x0E))
    ((resetDefined s).freeNibble (.ram 0x0F)))).2.1 a hdbf).1
  rw [stored_ram _ ha, stored_ram _ ha] at hkept ⊢
  exact hkept

end

/-- A chip with the values of reset at 0000H, in mode `m` and with the events `l` to come. -/
structure InReset (t : State) (rom : Memory) (m : Standby) (l : List Event) : Prop where
  values : HasResetValues t
  pc : t.pc = 0
  rom : t.rom = rom
  standby : t.standby = m
  schedule : t.schedule = l

section
variable {s : State} {rom : Memory} {m : Standby} {e : Event} {rest : List Event}

/-- A turn that at most changes the mode. -/
theorem InReset.turn (h : InReset s rom m (e :: rest)) (m' : Standby) :
    InReset { s.turn with standby := m' } rom m' rest :=
  ⟨h.values.frame s.pc m' _ _, h.pc, h.rom, rfl, congrArg List.tail h.schedule⟩

theorem step_held (h : InReset s rom m (.cpu :: rest)) (hm : m = .resetHeld ∨ m = .oscWait) :
    ∃ t, step s = .next t ∧ InReset t rom m rest := by
  have hcpu : s.cpuMoves := .inr (by rw [h.schedule]; rfl)
  have hmode : s.standby = .resetHeld ∨ s.standby = .oscWait := h.standby ▸ hm
  have hsame : { s.turn with standby := m } = s.turn := by rw [← h.standby]; rfl
  exact ⟨s.turn, (standbyWaitsForItsReleaseCondition s hcpu).2.2 hmode, hsame ▸ h.turn m⟩

theorem step_resetRelease (h : InReset s rom .resetHeld (.resetRelease :: rest)) :
    ∃ t, step s = .next t ∧ InReset t rom .oscWait rest :=
  ⟨_, (step_of_event h.schedule (by simp)).trans (congrArg _ (if_pos h.standby)), h.turn .oscWait⟩

theorem step_oscWaitOver (h : InReset s rom .oscWait (.oscWaitOver :: rest)) :
    ∃ t, step s = .next t ∧ InReset t rom .running rest :=
  ⟨_, (step_of_event h.schedule (by simp)).trans (congrArg _ (if_pos h.standby)), h.turn .running⟩

end

/-- Settles O59: kind 2 out of a standby mode, else kind 1. -/
theorem resetEventsOfKindsOneAndTwo : Obligations.ResetEventsOfKindsOneAndTwo := by
  intro s c rest hs
  have hstep : step s = .next (resetAssert s.turn c) := step_of_event hs (by simp)
  refine ⟨fun hc hp => hstep.trans (congrArg _ ((resetAssert_spec s.turn c).1 hc hp)), fun hc => ?_⟩
  obtain ⟨hvalues, hpc, hheld, hrom, hpins, hsch⟩ := resetAssert_values (s := s.turn) hc
  refine ⟨_, hstep, hvalues, hpc, hheld, hrom, hpins, hsch.trans (congrArg List.tail hs), fun hm => ?_⟩
  rw [((resetAssert_spec s.turn c).2 hc).1 hm]
  exact ⟨rfl, rfl, fun a ha hdbf => stored_resetKind2 (s := s.turn) ha hdbf⟩

/-- Settles O60: after the reset each turn of the CPU waits, and the two events pass on to running. -/
theorem resetRunsFromZeroAfterTheWait : Obligations.ResetRunsFromZeroAfterTheWait := by
  intro s rest hs
  have hreset : step s = .next (resetAssert s.turn .resetPin) := step_of_event hs (by simp)
  obtain ⟨hvalues, hpc, hheld, hrom, -, hsch⟩ := resetAssert_values (s := s.turn) (c := .resetPin) (by simp)
  have hin : InReset _ s.rom .resetHeld ([.cpu, .resetRelease, .cpu, .oscWaitOver] ++ rest) :=
    ⟨hvalues, hpc, hrom, hheld, hsch.trans (congrArg List.tail hs)⟩
  obtain ⟨t1, h1, hin1⟩ := step_held hin (.inl rfl)
  obtain ⟨t2, h2, hin2⟩ := step_resetRelease hin1
  obtain ⟨t3, h3, hin3⟩ := step_held hin2 (.inr rfl)
  obtain ⟨t4, h4, hin4⟩ := step_oscWaitOver hin3
  refine ⟨t4, ?_, hin4.standby, hin4.pc, hin4.values, hin4.rom, hin4.schedule⟩
  calc Sys2Proof.core.run 5 s
    _ = Sys2Proof.core.run 4 (resetAssert s.turn .resetPin) := core_run_succ hreset 4
    _ = Sys2Proof.core.run 3 t1 := core_run_succ h1 3
    _ = Sys2Proof.core.run 2 t2 := core_run_succ h2 2
    _ = Sys2Proof.core.run 1 t3 := core_run_succ h3 1
    _ = .next t4 := core_run_succ h4 0

end Sys2Proof.Machine
end

section
/-! PROOFS. What one instruction can do, said once (`exec_ends`), and the rules of the whole machine that follow from it
and from `step_cases`: the invariant, program memory, INTE, standby. -/

namespace Sys2Proof.Machine

/-! ## The end of an instruction -/

/-- A transfer is under way only with the interface enabled (93_implementation_defined.md U9). -/
def Sio.legal (u : Sio) : Prop := u.siots = true → u.sioen = true

/-- Everything an instruction that completes can have done to the standby state, INTE, the EI hold, the memories and the
legality of the serial interface. -/
inductive Ends (s : State) : Instr → State → Prop
  /-- it worked on registers and memory that its operands reach -/
  | operands {i : Instr} {t : State} (core : KeepsCore s t) (serial : s.sio.legal → t.sio.legal) : Ends s i t
  /-- it pushed or popped without a level -/
  | stackReset {i : Instr} (why : StackEvent) : Ends s i (stackReset s why)
  | ei : Ends s .ei { s with inte := true, eiHold := Config.eiDelay, pc := s.pc + 1 }
  | di : Ends s .di { s with inte := false, pc := s.pc + 1 }
  | stopZero : Ends s (.stop 0) { resetDefined s with standby := .stop 0 }.advance
  | stop {c : Nibble} (legal : legalStop c = true) :
      Ends s (.stop c) { s with standby := .stop c, timer := { s.timer with tmc := 0 } }.advance
  | halt {h : Nibble} (legal : legalHalt h = true) : Ends s (.halt h) { s with standby := .halt h }.advance

section
variable {s t : State} {i : Instr}

theorem Ends.of_sio_eq (core : KeepsCore s t) (hsio : t.sio = s.sio) : Ends s i t :=
  .operands core fun h => hsio ▸ h

theorem KeepsOutside.sio_eq (h : KeepsOutside s t) : t.sio = s.sio :=
  have hsio : t.outsideData.sio = s.outsideData.sio := congrArg (fun u : State => u.sio) h
  hsio

/-- A data-memory write and the next address. -/
theorem ends_memWrite (a : Addr) (v : Nibble) : Ends s i (memWrite s a v).advance :=
  .of_sio_eq (keepsCore_memWrite s a v).advance (keepsOutside_memWrite s a v).sio_eq

theorem ends_of_endArith {dst : Addr} {a b : Nibble} {out : Nibble × Bool} (h : endArith s dst a b out = .next t) :
    Ends s i t := by
  obtain ⟨hflag, hdecimal, hnext⟩ := endArith_spec s dst a b out
  by_cases hd : dst = 0x7F
  · cases (hflag hd).symm.trans h
  · by_cases hb : s.psw.bcd = true ∧ (9 < a.toNat ∨ 9 < b.toNat)
    · cases (hdecimal hd hb).symm.trans h
    · cases (hnext hd hb).symm.trans h
      exact .of_sio_eq (keepsCore_arithStore s dst out).advance (arithStore_ends s hd out).2.1.sio_eq

theorem ends_of_rorc {r : Nibble} (h : exec (.rorc r) s = .next t) : Ends s i t := by
  obtain ⟨hflag, hnext⟩ := rorcRotatesThroughCarry r s
  by_cases hd : rowCol s.rp r = 0x7F
  · cases (hflag hd).symm.trans h
  · obtain ⟨u, hu, -, hout, -⟩ := hnext hd
    obtain rfl := Host.Outcome.next.inj (hu.symm.trans h)
    have hend := (endUnlessFlags_spec (grAddr s r) (rotateStore s (grAddr s r)
      (rotateRight (grRead s 0 r) s.psw.cy))).2 hd
    obtain rfl := Host.Outcome.next.inj (hend.symm.trans h)
    exact .of_sio_eq (keepsCore_rotateStore s _ _).advance hout.sio_eq

theorem ends_withPush {v : ProgAddr} {go : State → State}
    (hgo : s.canPush → Ends s i (go { s with sp := s.sp - 1, asr := s.asr.setIfInBounds (s.sp.toNat - 1) v })) :
    Ends s i (withPush s v go) := by
  obtain ⟨hpush, hreset⟩ := withPush_spec s v go
  by_cases hc : s.canPush
  · exact hpush hc ▸ hgo hc
  · obtain ⟨why, hwhy⟩ := hreset hc
    exact hwhy ▸ .stackReset why

theorem ends_withPop {go : ProgAddr → State → State}
    (hgo : ∀ a, Ends s i (go a { s with sp := s.sp + 1 })) : Ends s i (withPop s go) := by
  obtain ⟨hpop, hreset⟩ := withPop_spec s go
  by_cases hc : s.sp.toNat < 5
  · exact hpop hc ▸ hgo _
  · exact hreset (Nat.not_lt.1 hc) ▸ .stackReset .underflow

theorem ends_of_movt (h : exec .movt s = .next t) : Ends s .movt t := by
  by_cases hc : s.canPush
  · obtain rfl := Host.Outcome.next.inj ((exec_movt_of_canPush hc).symm.trans h)
    exact .of_sio_eq ⟨rfl, fun hw => withDbf_wf hw _, rfl, rfl, rfl, rfl, rfl, rfl⟩ rfl
  · obtain ⟨why, hwhy⟩ := (withPush_spec s (s.pc + 1) fun t =>
      withPop (t.withDbf (romWord s.rom s.ar)) fun a u => { u with pc := a }).2 hc
    obtain rfl := Host.Outcome.next.inj ((exec_movt s).symm.trans h)
    exact hwhy ▸ .stackReset why

/-- The writes of the register file that are not refused keep the serial interface legal. -/
theorem rfWrite_legal {rf : Addr} {v : Nibble} (hd : rfWriteDisturbs s rf v = false) (h : s.sio.legal) :
    (rfWrite s rf v).sio.legal := by
  unfold rfWriteDisturbs at hd
  unfold rfWrite
  generalize rfPlace rf = p at hd
  cases p
  case dataMemory a => exact (keepsOutside_memWrite s a v).sio_eq ▸ h
  case sioen =>
    intro (hts : s.sio.siots = true)
    have hen := h hts
    simp only [hts, hen, Bool.true_and, bne_eq_false_iff_eq] at hd
    exact hd
  case sioMode =>
    intro (hts : v.getLsbD 3 = true)
    simp only [hts, Bool.true_and, Bool.or_eq_false_iff, Bool.not_eq_false'] at hd
    exact hd.2
  all_goals exact h

theorem ends_of_poke {rf : Addr} (h : exec (.poke rf) s = .next t) : Ends s i t := by
  cases hd : rfWriteDisturbs s rf s.wr
  · obtain rfl := Host.Outcome.next.inj ((exec_poke hd).symm.trans h)
    exact .operands (keepsCore_rfWrite s rf s.wr).advance (rfWrite_legal hd)
  · cases (exec_poke_refused hd).symm.trans h

theorem ends_of_get {p : Addr} : Ends s i (periRead s p).advance := by
  refine .of_sio_eq (keepsCore_periRead s p).advance ?_
  rcases periRead_width s p with ⟨-, v, hv⟩ | ⟨-, v, hv⟩
  · rw [advance_sio, hv, withDbfLow_sio]
  · rw [advance_sio, hv, withDbf_sio]

theorem ends_of_put {p : Addr} (h : exec (.put p) s = .next t) : Ends s i t := by
  cases hd : periWriteDisturbs s p
  · obtain rfl := Host.Outcome.next.inj ((exec_put hd).symm.trans h)
    refine .operands (keepsCore_periWrite s p).advance fun hl => ?_
    have hmode : (periWrite s p).sio.siots = s.sio.siots ∧ (periWrite s p).sio.sioen = s.sio.sioen := by
      unfold periWrite
      cases periPlace p <;> exact ⟨rfl, rfl⟩
    exact fun hts => hmode.2.trans (hl (hmode.1.symm.trans hts))
  · cases (if_pos hd).symm.trans h

theorem ends_of_halt {h : Nibble} (hx : exec (.halt h) s = .next t) : Ends s (.halt h) t := by
  cases hl : legalHalt h
  · cases (exec_halt_illegal hl).symm.trans hx
  · rw [exec_halt_legal hl] at hx
    split at hx
    · cases hx
    · split at hx
      · cases hx; exact .of_sio_eq (KeepsCore.refl s).advance rfl
      · cases hx; exact .halt hl

theorem ends_of_stop {c : Nibble} (hx : exec (.stop c) s = .next t) : Ends s (.stop c) t := by
  cases hl : legalStop c
  · cases (exec_stop_illegal hl).symm.trans hx
  · rw [exec_stop_legal hl] at hx
    split at hx
    · cases hx
    · split at hx
      case isTrue hzero => subst hzero; cases hx; exact .stopZero
      · split at hx
        · cases hx; exact .of_sio_eq (KeepsCore.refl s).advance rfl
        · cases hx; exact .stop hl

/-- The inversion of `exec`: what an instruction that completes can have done. -/
theorem exec_ends (h : exec i s = .next t) : Ends s i t := by
  cases i
  case addReg | addcReg | subReg | subcReg | addImm | addcImm | subImm | subcImm => exact ends_of_endArith h
  case rorc => exact ends_of_rorc h
  case orReg | orImm | andReg | andImm | xorReg | xorImm | ld | st | movToInd | movFromInd | movImm =>
    cases h; exact ends_memWrite _ _
  case push | call | callAr =>
    cases h; exact ends_withPush fun _ => .of_sio_eq ⟨rfl, id, rfl, rfl, rfl, rfl, rfl, rfl⟩ rfl
  case pop | ret | retsk | reti =>
    cases h; exact ends_withPop fun _ => .of_sio_eq ⟨rfl, id, rfl, rfl, rfl, rfl, rfl, rfl⟩ rfl
  case movt => exact ends_of_movt h
  case poke => exact ends_of_poke h
  case get => cases h; exact ends_of_get
  case put => exact ends_of_put h
  case ei => cases h; exact .ei
  case di => cases h; exact .di
  case stop => exact ends_of_stop h
  case halt => exact ends_of_halt h
  -- the pc, the flags, WR, AR or IX alone
  case peek | skt | skf | ske | skne | skge | sklt | incAr | incIx | br | brAr |
      nop =>
    cases h; exact .of_sio_eq ⟨rfl, id, rfl, rfl, rfl, rfl, rfl, rfl⟩ rfl

end

/-! ## What a step keeps -/

/-- What every move of every agent but an EI keeps: program memory, the form of RAM, a legal mode and serial interface;
INTE is not raised, and acceptance is not held without it. -/
structure Keeps (s t : State) : Prop where
  rom : t.rom = s.rom
  ram : Memory.wf ramUnlisted 0x0F 0x40 s.ram = true → Memory.wf ramUnlisted 0x0F 0x40 t.ram = true
  mode : s.standby.legal = true → t.standby.legal = true
  inte : t.inte = true → s.inte = true
  hold : (s.eiHold = true → s.inte = true) → (t.eiHold = true → t.inte = true)
  serial : s.sio.legal → t.sio.legal

section
variable {s t u : State}

theorem Keeps.refl (s : State) : Keeps s s := ⟨rfl, id, id, id, id, id⟩

theorem Keeps.trans (h : Keeps s t) (h' : Keeps t u) : Keeps s u :=
  ⟨h'.rom.trans h.rom, h'.ram ∘ h.ram, h'.mode ∘ h.mode, h.inte ∘ h'.inte, h'.hold ∘ h.hold, h'.serial ∘ h.serial⟩

theorem Keeps.of_core (h : KeepsCore s t) (serial : s.sio.legal → t.sio.legal) : Keeps s t :=
  ⟨h.rom, h.ram, fun hm => h.standby ▸ hm, fun hi => h.inte ▸ hi,
    fun hh he => h.inte.trans (hh (h.eiHold.symm.trans he)), serial⟩

theorem keeps_turn (s : State) : Keeps s s.turn := ⟨rfl, id, id, id, id, id⟩

theorem keeps_standby (s : State) {m : Standby} (hm : m.legal = true) : Keeps s { s with standby := m } :=
  ⟨rfl, id, fun _ => hm, id, id, id⟩

theorem keeps_stackReset (s : State) (why : StackEvent) : Keeps s (stackReset s why) :=
  ⟨rfl, fun _ => stackReset_wf s why, id, nofun, fun _ => nofun, id⟩

theorem keeps_entered (hh : s.eiHold = false) (x : IntSource) : Keeps s (entered s x) :=
  ⟨rfl, id, id, nofun, fun _ h => Bool.noConfusion (hh.symm.trans h), id⟩

theorem keeps_takeInterrupt (hh : s.eiHold = false) (x : IntSource) : Keeps s (takeInterrupt s x) := by
  by_cases hc : s.canPush
  · exact (takeInterrupt_spec s x).1 hc ▸ keeps_entered hh x
  · obtain ⟨why, hwhy⟩ := (takeInterrupt_spec s x).2 hc
    exact hwhy ▸ keeps_stackReset s why

/-! ### Events -/

theorem keeps_countPulse (s : State) : Keeps s (countPulse s) := by
  refine .of_core (deviceOnly_countPulse s).core ?_
  by_cases hc : s.timer.tmen = true ∧ (s.standby = .running ∨ ∃ h, s.standby = .halt h)
  · rw [countPulse_counting hc.1 hc.2]
    split <;> exact id
  · rw [countPulse_idle hc]
    exact id

/-- A clock edge of a legal serial interface never meets SIOTS = 1 with SIOEN = 0. -/
theorem keeps_sckFall (s : State) : Keeps s (sckFall s) := by
  refine .of_core (deviceOnly_sckFall s).core fun h => ?_
  by_cases hsh : s.shifts
  · rw [(sckFall_spec s).2 hsh (h hsh.1)]
    exact h
  · rwa [(sckFall_spec s).1 hsh]

theorem keeps_sckRise (s : State) : Keeps s (sckRise s) := by
  refine .of_core (deviceOnly_sckRise s).core fun h => ?_
  obtain ⟨hidle, hwaits, hshifts⟩ := sckRise_spec s
  by_cases hsh : s.shifts
  · have hen := h hsh.1
    cases hst : s.sio.started
    · rwa [hwaits hsh hen hst]
    · rw [hshifts hsh hen hst]
      split
      · exact nofun
      · exact h
  · rwa [hidle hsh]

theorem keeps_resetAssert (s : State) (c : ResetCause) : Keeps s (resetAssert s c) := by
  obtain ⟨hnone, hreset⟩ := resetAssert_spec s c
  by_cases hc : c = .powerDown → s.pdresen = true
  · obtain ⟨hkind2, hkind1⟩ := hreset hc
    by_cases hm : (∃ h, s.standby = .halt h) ∨ ∃ h, s.standby = .stop h
    · rw [hkind2 hm]
      exact ⟨rfl, resetKind2_wf, fun _ => rfl, nofun, fun _ => nofun,
        fun _ => nofun⟩
    · rw [hkind1 hm]
      exact ⟨rfl, fun _ => resetKind1_wf s, fun _ => rfl, nofun,
        fun _ => nofun, fun _ => nofun⟩
  · obtain ⟨hpd, hen⟩ := Classical.not_imp.1 hc
    rw [hnone hpd (Bool.eq_false_iff.2 hen)]
    exact .refl s

theorem keeps_applyEvent (e : Event) (s : State) : Keeps s (applyEvent e s) := by
  cases e with
  | cpu => exact .refl s
  | countPulse => exact keeps_countPulse s
  | sckFall => exact keeps_sckFall s
  | sckRise => exact keeps_sckRise s
  | pins p => exact ⟨rfl, id, id, id, id, id⟩
  | resetAssert c => exact keeps_resetAssert s c
  | resetRelease =>
    rw [applyEvent, resetRelease]
    split
    · exact keeps_standby s rfl
    · exact .refl s
  | oscWaitOver =>
    rw [applyEvent, oscWaitOver]
    split
    · exact keeps_standby s rfl
    · exact .refl s

/-! ### The CPU's turn -/

/-- A turn of the CPU that executes nothing: an entry, a wait, or a release on the mode's condition. -/
theorem cpuTurn_done_cases (h : cpuTurn s = .done t) :
    (s.standby = .running ∧ ∃ x, acceptedSource s = some x ∧ t = takeInterrupt s x) ∨
      (∃ c, s.standby = .halt c ∧ t = if haltReleased s c then { s with standby := .running } else s) ∨
      (∃ c, s.standby = .stop c ∧ t = if stopReleased s c then { s with standby := .running } else s) ∨
      (s.standby = .resetHeld ∨ s.standby = .oscWait) ∧ t = s := by
  cases hs : s.standby with
  | running =>
    cases hx : acceptedSource s with
    | none => simp [cpuTurn, hs, hx] at h
    | some x =>
      have hturn : cpuTurn s = .done (takeInterrupt s x) := by simp [cpuTurn, hs, hx]
      exact .inl ⟨rfl, x, rfl, (Turn.done.inj (hturn.symm.trans h)).symm⟩
  | halt c => exact .inr (.inl ⟨c, rfl, (Turn.done.inj ((cpuTurn_halt hs).symm.trans h)).symm⟩)
  | stop c => exact .inr (.inr (.inl ⟨c, rfl, (Turn.done.inj ((cpuTurn_stop hs).symm.trans h)).symm⟩))
  | resetHeld =>
    exact .inr (.inr (.inr ⟨.inl rfl, (Turn.done.inj ((cpuTurn_held (.inl hs)).symm.trans h)).symm⟩))
  | oscWait =>
    exact .inr (.inr (.inr ⟨.inr rfl, (Turn.done.inj ((cpuTurn_held (.inr hs)).symm.trans h)).symm⟩))

theorem keeps_cpuTurn (h : cpuTurn s = .done t) : Keeps s t := by
  rcases cpuTurn_done_cases h with ⟨-, x, hx, rfl⟩ | ⟨c, -, rfl⟩ | ⟨c, -, rfl⟩ | ⟨-, rfl⟩
  · obtain ⟨-, hh, -⟩ := (acceptedSource_eq_some s x).1 hx
    exact keeps_takeInterrupt hh x
  · split
    · exact keeps_standby s rfl
    · exact .refl s
  · split
    · exact keeps_standby s rfl
    · exact .refl s
  · exact .refl _

/-! ### Instructions -/

theorem Ends.keeps {i : Instr} (h : Ends s i t) (hh : s.eiHold = false) : i = .ei ∨ Keeps s t := by
  cases h with
  | operands core serial => exact .inr (.of_core core serial)
  | stackReset why => exact .inr (keeps_stackReset s why)
  | ei => exact .inl rfl
  | di =>
    exact .inr ⟨rfl, id, id, nofun, fun _ h => Bool.noConfusion (hh.symm.trans h), id⟩
  | stopZero =>
    exact .inr ⟨rfl, id, fun _ => rfl, nofun, fun _ => nofun,
      fun _ => nofun⟩
  | stop legal => exact .inr ⟨rfl, id, fun _ => legal, id, id, id⟩
  | halt legal => exact .inr ⟨rfl, id, fun _ => legal, id, id, id⟩

/-- Every step keeps what `Keeps` says, or is an EI. -/
theorem step_keeps (h : step s = .next t) : Keeps s t ∨
    (s.cpuMoves ∧ s.standby = .running ∧ decode (romWord s.rom s.pc) = .ok .ei ∧
      t = { s.turn with inte := true, eiHold := Config.eiDelay, pc := s.pc + 1 }) := by
  rcases step_cases h with ⟨e, rest, -, -, rfl⟩ | ⟨-, hturn⟩ | ⟨hm, hr, -, i, hi, hexec⟩
  · exact .inl ((keeps_turn s).trans (keeps_applyEvent e s.turn))
  · exact .inl ((keeps_turn s).trans (keeps_cpuTurn hturn))
  · have hbegin : Keeps s { s.turn with eiHold := false } :=
      ⟨rfl, id, id, id, fun _ => nofun, id⟩
    rcases (exec_ends hexec).keeps rfl with rfl | hk
    · exact .inr ⟨hm, hr, hi, (Host.Outcome.next.inj ((exec_ei _).symm.trans hexec)).symm⟩
    · exact .inl (hbegin.trans hk)

end

/-! ## The invariant, program memory and INTE (O8, O10, O12) -/

theorem inv_iff (s : State) : s.inv = true ↔
    Memory.wf romUnlisted 0xFF 0x600 s.rom = true ∧ Memory.wf ramUnlisted 0x0F 0x40 s.ram = true ∧
      s.standby.legal = true ∧ (s.eiHold = true → s.inte = true) ∧ s.sio.legal := by
  have himp : ∀ a b : Bool, (!a || b) = true ↔ (a = true → b = true) := by decide
  simp only [State.inv, Sio.legal, Bool.and_eq_true, himp, and_assoc]

/-- Settles O8: clause by clause `Keeps` keeps it, and an EI sets INTE with the hold. -/
theorem everyStepKeepsTheInvariant : Obligations.EveryStepKeepsTheInvariant := by
  intro s t hs h
  obtain ⟨hrom, hram, hmode, hhold, hserial⟩ := (inv_iff s).1 hs
  refine (inv_iff t).2 ?_
  rcases step_keeps h with hk | ⟨-, -, -, rfl⟩
  · exact ⟨hk.rom ▸ hrom, hk.ram hram, hk.mode hmode, hk.hold hhold, hk.serial hserial⟩
  · exact ⟨hrom, hram, hmode, fun _ => rfl, hserial⟩

/-- Settles O10: no agent's move and no instruction touches it. -/
theorem programMemoryIsNeverWritten : Obligations.ProgramMemoryIsNeverWritten := by
  intro s t h
  rcases step_keeps h with hk | ⟨-, -, -, rfl⟩
  · exact hk.rom
  · rfl

/-- Settles O12: a step that is no EI does not raise INTE. -/
theorem inteIsRaisedOnlyByEi : Obligations.InteIsRaisedOnlyByEi := by
  intro s t h hs ht
  rcases step_keeps h with hk | ⟨hm, hr, hi, -⟩
  · exact Bool.noConfusion (hs.symm.trans (hk.inte ht))
  · exact ⟨hm, hr, hi⟩

/-! ## Standby (O13) -/

section
variable {s t : State}

theorem KeepsRegisters.refl (s : State) : KeepsRegisters s s :=
  ⟨rfl, rfl, ⟨rfl, rfl, rfl, rfl, rfl, rfl⟩, rfl, rfl, rfl⟩

theorem DeviceOnly.keepsRegisters (h : DeviceOnly s t) : KeepsRegisters s t := ⟨h.pc, h.ram, h.registers, h.stack⟩

/-- The mode is one that a step must leave by a release. -/
def Standby.sleeps (m : Standby) : Prop := m ≠ .running ∧ m ≠ .resetHeld ∧ m ≠ .oscWait

/-- An event in HALT or STOP mode keeps the mode and the registers, or asserts a reset. -/
theorem applyEvent_sleeping (e : Event) (hs : s.standby.sleeps) :
    ((applyEvent e s).standby = s.standby ∧ KeepsRegisters s (applyEvent e s)) ∨
      ((applyEvent e s).standby = .resetHeld ∧ ∃ c, e = .resetAssert c) := by
  obtain ⟨-, hheld, hwait⟩ := hs
  have device {u : State} (h : DeviceOnly s u) : u.standby = s.standby ∧ KeepsRegisters s u :=
    ⟨h.core.standby, h.keepsRegisters⟩
  cases e with
  | cpu => exact .inl ⟨rfl, .refl s⟩
  | countPulse => exact .inl (device (deviceOnly_countPulse s))
  | sckFall => exact .inl (device (deviceOnly_sckFall s))
  | sckRise => exact .inl (device (deviceOnly_sckRise s))
  | pins p => exact .inl ⟨rfl, rfl, rfl, ⟨rfl, rfl, rfl, rfl, rfl, rfl⟩, rfl, rfl, rfl⟩
  | resetRelease =>
    rw [applyEvent, resetRelease, if_neg hheld]
    exact .inl ⟨rfl, .refl s⟩
  | oscWaitOver =>
    rw [applyEvent, oscWaitOver, if_neg hwait]
    exact .inl ⟨rfl, .refl s⟩
  | resetAssert c =>
    by_cases hc : c = .powerDown → s.pdresen = true
    · obtain ⟨-, -, hres, -⟩ := resetAssert_values hc
      exact .inr ⟨hres, c, rfl⟩
    · obtain ⟨hpd, hen⟩ := Classical.not_imp.1 hc
      rw [applyEvent, (resetAssert_spec s c).1 hpd (Bool.eq_false_iff.2 hen)]
      exact .inl ⟨rfl, .refl s⟩

/-- A step in HALT or STOP mode whose turn of the CPU is a release on `c`: the mode stays, or is released on the CPU's
turn, or a reset is asserted. -/
theorem step_sleeping {m : Standby} {c : Bool} (h : step s = .next t) (hs : s.standby = m) (hm : m.sleeps)
    (hturn : cpuTurn s.turn = .done (if c then { s.turn with standby := .running } else s.turn)) :
    (t.standby = m ∧ KeepsRegisters s t) ∨
      (t.standby = .running ∧ KeepsRegisters s t ∧ s.cpuMoves ∧ c = true) ∨
      (t.standby = .resetHeld ∧ ∃ c, s.schedule.head? = some (.resetAssert c)) := by
  subst hs
  rcases step_cases h with ⟨e, rest, hsch, -, rfl⟩ | ⟨hcpu, hdone⟩ | ⟨-, hr, -⟩
  · rcases applyEvent_sleeping (s := s.turn) e hm with ⟨hmode, hk⟩ | ⟨hmode, c, rfl⟩
    · exact .inl ⟨hmode, hk.pc, hk.ram, hk.systemRegisters, hk.stack⟩
    · exact .inr (.inr ⟨hmode, c, by rw [hsch]; rfl⟩)
  · obtain rfl := Turn.done.inj (hturn.symm.trans hdone)
    cases c
    · exact .inl ⟨rfl, rfl, rfl, ⟨rfl, rfl, rfl, rfl, rfl, rfl⟩, rfl, rfl, rfl⟩
    · exact .inr (.inl ⟨rfl, ⟨rfl, rfl, ⟨rfl, rfl, rfl, rfl, rfl, rfl⟩, rfl, rfl, rfl⟩, hcpu, rfl⟩)
  · exact absurd hr hm.1

end

/-- Settles O13: HALT and STOP differ in the condition of the release alone. -/
theorem standbyIsLeftOnlyByReleaseOrReset : Obligations.StandbyIsLeftOnlyByReleaseOrReset := by
  refine fun s t hstep => ⟨fun h hs => ?_, fun c hs => ?_⟩
  · have hcases := step_sleeping hstep hs ⟨by simp, by simp, by simp⟩ (cpuTurn_halt (s := s.turn) hs)
    rw [haltReleased_eq, Bool.or_eq_true, Bool.and_eq_true, Bool.and_eq_true] at hcases
    exact hcases
  · have hcases := step_sleeping hstep hs ⟨by simp, by simp, by simp⟩ (cpuTurn_stop (s := s.turn) hs)
    rw [stopReleased_eq, Bool.and_eq_true] at hcases
    exact hcases

/-! ## Refusals (O11) -/

/-- When and why an instruction is refused. -/
inductive Refuses (s : State) : Instr → Refusal → Prop
  | stopOperand {c : Nibble} (h : legalStop c = false) : Refuses s (.stop c) (.standbyOperand c)
  | haltOperand {c : Nibble} (h : legalHalt c = false) : Refuses s (.halt c) (.standbyOperand c)
  | stopNop {c : Nibble} (h : romWord s.rom (s.pc - 1) ≠ 0x3CF0) : Refuses s (.stop c) .noNopBefore
  | haltNop {c : Nibble} (h : romWord s.rom (s.pc - 1) ≠ 0x3CF0) : Refuses s (.halt c) .noNopBefore
  | regFlags {i : Instr} (g : Nibble) (m : Addr) (h : rowCol s.rp g = 0x7F)
      (hi : i ∈ [Instr.addReg g m, Instr.addcReg g m, Instr.subReg g m, Instr.subcReg g m, Instr.rorc g]) :
      Refuses s i .flagDestination
  | memFlags {i : Instr} (m : Addr) (n : Nibble) (h : ea s m = 0x7F)
      (hi : i ∈ [Instr.addImm m n, Instr.addcImm m n, Instr.subImm m n, Instr.subcImm m n]) :
      Refuses s i .flagDestination
  | regDecimal {i : Instr} (g : Nibble) (m : Addr) (hb : s.psw.bcd = true)
      (hi : i ∈ [Instr.addReg g m, Instr.addcReg g m, Instr.subReg g m, Instr.subcReg g m])
      (h : 9 < (memRead s 0 (rowCol s.rp g)).toNat ∨ 9 < (memRead s 1 (ea s m)).toNat) :
      Refuses s i .decimalOperand
  | memDecimal {i : Instr} (m : Addr) (n : Nibble) (hb : s.psw.bcd = true)
      (hi : i ∈ [Instr.addImm m n, Instr.addcImm m n, Instr.subImm m n, Instr.subcImm m n])
      (h : 9 < (memRead s 0 (ea s m)).toNat ∨ 9 < n.toNat) : Refuses s i .decimalOperand
  | putSfr (h : s.sio.siots = true) : Refuses s (.put 0x01) .serialDisturbed
  | pokeEnable (hts : s.sio.siots = true) (h : s.wr.getLsbD 0 ≠ s.sio.sioen) :
      Refuses s (.poke 0x0A) .serialDisturbed
  | pokeMode (h : (s.sio.siots = true ∧ (s.wr.getLsbD 2 ≠ s.sio.siohiz ∨ s.wr.setWidth 2 ≠ s.sio.siock)) ∨
      (s.wr.getLsbD 3 = true ∧ s.sio.sioen = false)) : Refuses s (.poke 0x1A) .serialDisturbed

section
variable {s : State} {i : Instr} {r : Refusal}

theorem endArith_refused {dst : Addr} {a b : Nibble} {out : Nibble × Bool}
    (h : endArith s dst a b out = .refused r) : (r = .flagDestination ∧ dst = 0x7F) ∨
      (r = .decimalOperand ∧ s.psw.bcd = true ∧ (9 < a.toNat ∨ 9 < b.toNat)) := by
  obtain ⟨hflag, hdecimal, hnext⟩ := endArith_spec s dst a b out
  by_cases hd : dst = 0x7F
  · exact .inl ⟨(Host.Outcome.refused.inj ((hflag hd).symm.trans h)).symm, hd⟩
  · by_cases hb : s.psw.bcd = true ∧ (9 < a.toNat ∨ 9 < b.toNat)
    · exact .inr ⟨(Host.Outcome.refused.inj ((hdecimal hd hb).symm.trans h)).symm, hb⟩
    · cases (hnext hd hb).symm.trans h

/-- ADD, ADDC, SUB and SUBC into a register. -/
theorem refuses_reg {g : Nibble} {m : Addr} {out : Nibble × Bool}
    (hi : i ∈ [Instr.addReg g m, Instr.addcReg g m, Instr.subReg g m, Instr.subcReg g m])
    (h : endArith s (grAddr s g) (grRead s 0 g) (mRead s 1 m) out = .refused r) : Refuses s i r := by
  rcases endArith_refused h with ⟨rfl, hd⟩ | ⟨rfl, hb, h9⟩
  · exact .regFlags g m hd (List.mem_append_left [Instr.rorc g] hi)
  · exact .regDecimal g m hb hi h9

/-- ADD, ADDC, SUB and SUBC into memory. -/
theorem refuses_mem {m : Addr} {n : Nibble} {out : Nibble × Bool}
    (hi : i ∈ [Instr.addImm m n, Instr.addcImm m n, Instr.subImm m n, Instr.subcImm m n])
    (h : endArith s (ea s m) (mRead s 0 m) n out = .refused r) : Refuses s i r := by
  rcases endArith_refused h with ⟨rfl, hd⟩ | ⟨rfl, hb, h9⟩
  · exact .memFlags m n hd hi
  · exact .memDecimal m n hb hi h9

theorem refuses_rorc {g : Nibble} (h : exec (.rorc g) s = .refused r) : Refuses s (.rorc g) r := by
  obtain ⟨hflag, hnext⟩ := rorcRotatesThroughCarry g s
  by_cases hd : rowCol s.rp g = 0x7F
  · obtain rfl := Host.Outcome.refused.inj ((hflag hd).symm.trans h)
    exact .regFlags g 0 hd (by simp)
  · obtain ⟨u, hu, -⟩ := hnext hd
    cases hu.symm.trans h

theorem refuses_poke {rf : Addr} (h : exec (.poke rf) s = .refused r) : Refuses s (.poke rf) r := by
  cases hd : rfWriteDisturbs s rf s.wr
  · cases (exec_poke hd).symm.trans h
  · obtain rfl := Host.Outcome.refused.inj ((exec_poke_refused hd).symm.trans h)
    rcases (rfWriteDisturbs_iff s rf s.wr).1 hd with ⟨rfl, hts, hne⟩ | ⟨rfl, hmode⟩
    · exact .pokeEnable hts hne
    · exact .pokeMode hmode

theorem refuses_put {p : Addr} (h : exec (.put p) s = .refused r) : Refuses s (.put p) r := by
  cases hd : periWriteDisturbs s p
  · cases (exec_put hd).symm.trans h
  · obtain rfl := Host.Outcome.refused.inj ((show exec (.put p) s = _ from if_pos hd).symm.trans h)
    obtain rfl : p = 0x01 := by
      by_contra hp
      exact Bool.noConfusion ((periWriteDisturbs_eq_false hp).symm.trans hd)
    exact .putSfr hd

theorem refuses_halt {c : Nibble} (h : exec (.halt c) s = .refused r) : Refuses s (.halt c) r := by
  cases hl : legalHalt c
  · obtain rfl := Host.Outcome.refused.inj ((exec_halt_illegal hl).symm.trans h)
    exact .haltOperand hl
  · by_cases hn : romWord s.rom (s.pc - 1) = 0x3CF0
    · cases (exec_halt_after_nop hl hn).symm.trans h
    · obtain rfl := Host.Outcome.refused.inj ((exec_halt_without_nop hl hn).symm.trans h)
      exact .haltNop hn

theorem refuses_stop {c : Nibble} (h : exec (.stop c) s = .refused r) : Refuses s (.stop c) r := by
  cases hl : legalStop c
  · obtain rfl := Host.Outcome.refused.inj ((exec_stop_illegal hl).symm.trans h)
    exact .stopOperand hl
  · by_cases hn : romWord s.rom (s.pc - 1) = 0x3CF0
    · rw [exec_stop_legal hl, (nopBefore_iff s).2 hn, Bool.not_true, if_neg Bool.false_ne_true] at h
      split at h
      · cases h
      · split at h <;> cases h
    · obtain rfl := Host.Outcome.refused.inj ((exec_stop_without_nop hl hn).symm.trans h)
      exact .stopNop hn

/-- The inversion of a refusal of `exec`. -/
theorem exec_refuses (h : exec i s = .refused r) : Refuses s i r := by
  cases i
  case addReg | addcReg | subReg | subcReg => exact refuses_reg (by simp) h
  case addImm | addcImm | subImm | subcImm => exact refuses_mem (by simp) h
  case rorc => exact refuses_rorc h
  case poke => exact refuses_poke h
  case put => exact refuses_put h
  case halt => exact refuses_halt h
  case stop => exact refuses_stop h
  -- the others complete from every state
  all_goals cases h

/-- A step is refused where the CPU fetches a word that is no instruction, or one that `exec` refuses. -/
theorem step_refused_cases (h : step s = .refused r) : s.cpuMoves ∧ s.standby = .running ∧
    ((r = .undefinedWord (romWord s.rom s.pc) ∧ ∃ e, decode (romWord s.rom s.pc) = .error e) ∨
      ∃ i, decode (romWord s.rom s.pc) = .ok i ∧ Refuses { s.turn with eiHold := false } i r) := by
  by_cases hm : s.cpuMoves
  · cases hturn : cpuTurn s.turn with
    | done t => cases (step_of_done hm hturn).symm.trans h
    | execute u =>
      obtain ⟨hr, hx⟩ : s.standby = .running ∧ acceptedSource s.turn = none := by
        have hmode : ∀ m, s.standby = m → s.turn.standby = m := fun _ => id
        cases hs : s.standby with
        | running =>
          cases hx : acceptedSource s.turn with
          | none => exact ⟨rfl, rfl⟩
          | some x => simp [cpuTurn, hmode _ hs, hx] at hturn
        | _ => simp [cpuTurn, hmode _ hs] at hturn
      refine ⟨hm, hr, ?_⟩
      cases hdec : decode (romWord s.rom s.pc) with
      | error e =>
        have hr' := Host.Outcome.refused.inj ((step_of_decode_error hm hr hx hdec).symm.trans h)
        exact .inl ⟨hr'.symm, e, rfl⟩
      | ok i => exact .inr ⟨i, rfl, exec_refuses ((step_of_decode_ok hm hr hx hdec).symm.trans h)⟩
  · cases hs : s.schedule with
    | nil => exact absurd (.inl hs) hm
    | cons e rest =>
      have he : e ≠ .cpu := fun he => hm (.inr (by rw [hs, he]; rfl))
      cases (step_of_event hs he).symm.trans h

end

/-- Settles O11: there are no faults, and each refusal is one of `Refuses`. -/
theorem stepStopsOnlyForNamedReasons : Obligations.StepStopsOnlyForNamedReasons := by
  refine fun s => ⟨fun f => (nomatch f), fun r hstep => ?_⟩
  obtain ⟨hm, hr, hcases⟩ := step_refused_cases hstep
  refine ⟨hm, hr, ?_⟩
  rcases hcases with hword | ⟨i, hi, hrefuses⟩
  · exact .inl hword
  · refine .inr ?_
    cases hrefuses with
    | stopOperand h => exact .inl ⟨_, rfl, .inl ⟨hi, h⟩⟩
    | haltOperand h => exact .inl ⟨_, rfl, .inr ⟨hi, h⟩⟩
    | stopNop h => exact .inr (.inl ⟨rfl, h, _, .inl hi⟩)
    | haltNop h => exact .inr (.inl ⟨rfl, h, _, .inr hi⟩)
    | regFlags g m h hg => exact .inr (.inr (.inl ⟨rfl, i, hi, .inl ⟨g, m, h, hg⟩⟩))
    | memFlags m n h hg => exact .inr (.inr (.inl ⟨rfl, i, hi, .inr ⟨m, n, h, hg⟩⟩))
    | regDecimal g m hb hg h => exact .inr (.inr (.inr (.inl ⟨rfl, hb, i, hi, .inl ⟨g, m, hg, h⟩⟩)))
    | memDecimal m n hb hg h => exact .inr (.inr (.inr (.inl ⟨rfl, hb, i, hi, .inr ⟨m, n, hg, h⟩⟩)))
    | putSfr h => exact .inr (.inr (.inr (.inr ⟨rfl, .inl ⟨hi, h⟩⟩)))
    | pokeEnable hts h => exact .inr (.inr (.inr (.inr ⟨rfl, .inr (.inl ⟨hi, hts, h⟩)⟩)))
    | pokeMode h =>
      rw [setWidth_2_eq_extract] at h
      exact .inr (.inr (.inr (.inr ⟨rfl, .inr (.inr ⟨hi, h⟩)⟩)))

end Sys2Proof.Machine
end
